-- ==== Sys2Proof/Word.lean ====
section
/-! DEFINITION. The value types of the engine (spec/00_scope.md R7, R9; spec/10_state.md R21). -/

namespace Sys2Proof

/-- R9: `Bit` is the set of 0 and 1; `true` is 1. -/
abbrev Bit := Bool

/-- R7, R21: a memory data word of `WORD_BITS` = 14 bits. -/
abbrev Word := BitVec 14

/-- R8, R9: a duration parameter. Its value is a non-negative real number of seconds; State is plain data, so it holds
an index of that real, and `Seconds` gives the real. DESIGN CHOICE (safe, log 1). -/
structure Duration where
  index : Nat
deriving DecidableEq, Repr

/-- R8, R9: the value in seconds of every duration, any non-negative reals. It is an argument of each view that speaks
of time, as R8 makes every delay an argument of the model. -/
abbrev Seconds := Duration → NNReal

end Sys2Proof
end

