-- ==== Sys2Proof/Config.lean ====
section
/-! DEFINITION. What is fixed for the machine or for a session: the widths of R7, the parameters of R8, and the values
the spec leaves open (opaque constants, spec/92_eei_decisions.md D28, D31, D34). -/

namespace Sys2Proof

/-- R5: the three pin ports. -/
inductive Pin where
  | rst
  | clk
  | dat
deriving DecidableEq, Repr

/-- R11: what a `HOLD` names, one of the seven delay parameters of R8 or 0. -/
inductive Delay where
  | tHalf
  | tCmd
  | tProg
  | tBulk
  | tRow
  | tReset
  | tEntry
  | zero
deriving DecidableEq, Repr

/-- R8, D18: how `EXIT` releases `RST`. -/
inductive ExitResetMode where
  | driveHigh
  | float
deriving DecidableEq, Repr

/-- R8, R14: the parameters of a session, fixed for its life. -/
structure SessionConfig where
  pinReset : Nat
  pinClock : Nat
  pinData : Nat
  tHalf : Duration
  tCmd : Duration
  tProg : Duration
  tBulk : Duration
  tRow : Duration
  tReset : Duration
  tEntry : Duration
  exitResetMode : ExitResetMode
  verifyBase : Nat
  verifyCount : Nat
deriving DecidableEq, Repr

namespace Config

/-- R7 `OPCODE_BITS`. -/
def opcodeBits : Nat := 6

/-- R7 `PAYLOAD_BITS`. -/
def payloadBits : Nat := 16

/-- R7 `WORD_BITS`. -/
def wordBits : Nat := 14

/-- R7, R34 `KEY`: the characters "MCHP" read as a big-endian 32-bit integer. -/
def key : Nat := 0x4D434850

/-- R7 `KEY_BITS`. -/
def keyBits : Nat := 32

/-- R7 `KEY_TAIL_BITS`. -/
def keyTailBits : Nat := 1

/-- R10, R67, D31: the free value of the k-th draw of `fails?` past the inputs listed in State (log 3). -/
opaque freeFail : Nat → Bool

/-- R10, R68, D28: the free value of the k-th content of a value read past the inputs listed in State (log 3). -/
opaque freeRead : Nat → List Char

/-- R114: the free value of whether a request arrives before the k-th polled boundary past the inputs listed in State
(log 3). -/
opaque freeIrq : Nat → Bool

/-- R30, D34 `TARGET_ADDR_BITS`: open, and read by no rule of the engine (log 21). -/
opaque targetAddrBits : Nat

/-- DESIGN CHOICE (unsafe, log 2): the argument of the `SESSION_NEW` that `State.reset` stands for. The source gives
no value; pins, mode and range are those of spec/95_test_vectors.md section 1 and D21. The delays are seven durations of
no fixed value (log 1). -/
def resetSession : SessionConfig where
  pinReset := 1
  pinClock := 2
  pinData := 3
  tHalf := ⟨0⟩
  tCmd := ⟨1⟩
  tProg := ⟨2⟩
  tBulk := ⟨3⟩
  tRow := ⟨4⟩
  tReset := ⟨5⟩
  tEntry := ⟨6⟩
  exitResetMode := .float
  verifyBase := 0x8000
  verifyCount := 24

end Config

end Sys2Proof
end

