-- ==== Sys2Proof/Syntax.lean ====
section
/-! DEFINITION. The operations of the engine (spec/30_encoding.md R51, R50, R58): one constructor per row of
spec/opcode_table.json, and the forms in which the host hands an operation to the engine. -/

namespace Sys2Proof

/-- R62: the four direction words of the file contract. -/
inductive DirWord where
  | dirIn
  | dirOut
  | dirLow
  | dirHigh
deriving DecidableEq, Repr

/-- R62: the direction operand as the caller gives it; any other word than the four is refused. -/
inductive DirArg where
  | word (d : DirWord)
  | other (text : List Char)
deriving DecidableEq, Repr

/-- One constructor per row of spec/opcode_table.json. Operands whose range the spec checks (R110) are naturals, and
the value of `WRITE` is any integer (R63, log 15). -/
inductive Instr where
  /-- R78 `LOAD_CONFIG d` -/
  | loadConfig (d : Nat)
  /-- R79 `LOAD_DATA d` -/
  | loadData (d : Nat)
  /-- R80 `READ_DATA` -/
  | readData
  /-- R81 `INC_ADDR` -/
  | incAddr
  /-- R82 `RESET_ADDR` -/
  | resetAddr
  /-- R83 `BEGIN_PROG` -/
  | beginProg
  /-- R84 `BULK_ERASE` -/
  | bulkErase
  /-- R85 `ROW_ERASE` -/
  | rowErase
  /-- R50 `LVP_KEY`, the frame of format K -/
  | lvpKey
  /-- R61 `ACQUIRE p` -/
  | acquire (p : Pin)
  /-- R62 `SETDIR p d` -/
  | setDir (p : Pin) (d : DirArg)
  /-- R63 `WRITE p v` -/
  | write (p : Pin) (v : Int)
  /-- R64 `READ p` -/
  | read (p : Pin)
  /-- R65 `RELEASE p` -/
  | release (p : Pin)
  /-- R66 `ENSURE_OUT_WRITE p b` -/
  | ensureOutWrite (p : Pin) (b : Bit)
  /-- R70 `REVERSE v n` -/
  | reverse (v n : Nat)
  /-- R71 `SEND v n` -/
  | send (v n : Nat)
  /-- R72 `RECV n` -/
  | recv (n : Nat)
  /-- R88 `SESSION_NEW cfg` -/
  | sessionNew (cfg : SessionConfig)
  /-- R89 `RESET` -/
  | reset
  /-- R90 `ENTER_LVP` -/
  | enterLvp
  /-- R92 `EXIT` -/
  | exit
  /-- R96 `VERIFY N` -/
  | verify (n : Nat)
  /-- R114 `INTERRUPT` -/
  | interrupt
deriving DecidableEq, Repr

/-- How the host hands the engine its next operation (log 4, log 5): a direct call (D37), a program line (R59), or the
operation's wire frame, its bits in wire order (R46). -/
inductive HostRequest where
  | call (i : Instr)
  | line (text : List Char)
  | frame (bits : List Bit)
deriving DecidableEq, Repr

end Sys2Proof
end

