-- ==== Sys2Proof/WellFormed.lean ====
section
/-! DEFINITION. The operand ranges of spec/60_exceptions.md R110: an operation outside them is refused. -/

namespace Sys2Proof

/-- R8, D4: the three pin identifiers are pairwise distinct. -/
def SessionConfig.pinsDistinct (c : SessionConfig) : Bool :=
  c.pinReset != c.pinClock && c.pinReset != c.pinData && c.pinClock != c.pinData

/-- R52, D11: a data operand is a 14-bit word. -/
def dataInRange (d : Nat) : Bool := d < 2 ^ Config.wordBits

/-- R70, D10: the operand of `REVERSE v n` fits in `n` bits. -/
def reverseInRange (v n : Nat) : Bool := v < 2 ^ n

/-- R62: the direction is one of the four words. -/
def DirArg.inRange : DirArg → Bool
  | .word _ => true
  | .other _ => false

/-- R110: the operands are in the range their rule admits. `WRITE` of a value outside 0 and 1 is in range: it raises
`InvalidPinValue` (R63). -/
def Instr.wf : Instr → Bool
  | .loadConfig d => dataInRange d
  | .loadData d => dataInRange d
  | .readData => true
  | .incAddr => true
  | .resetAddr => true
  | .beginProg => true
  | .bulkErase => true
  | .rowErase => true
  | .lvpKey => true
  | .acquire _ => true
  | .setDir _ d => d.inRange
  | .write _ _ => true
  | .read _ => true
  | .release _ => true
  | .ensureOutWrite _ _ => true
  | .reverse v n => reverseInRange v n
  | .send _ _ => true
  | .recv _ => true
  | .sessionNew c => c.pinsDistinct
  | .reset => true
  | .enterLvp => true
  | .exit => true
  | .verify _ => true
  | .interrupt => true

end Sys2Proof
end

