-- ==== Sys2Proof/Decode.lean ====
section
/-! DEFINITION. Decoding and encoding: wire frames (spec/30_encoding.md R46 to R57) and program lines (R59), each with
its encoder after its decoder. Decoding is total and rejects by name. -/

namespace Sys2Proof

/-! ## Fields of bits (R33, R46) -/

/-- R33: the bits of the `n`-bit field `v`, least significant first. -/
def bitsOf : Nat → Nat → List Bit
  | 0, _ => []
  | n + 1, v => (v % 2 == 1) :: bitsOf n (v / 2)

/-- R33: the value of a field whose bits are given least significant first. -/
def valueOf : List Bit → Nat
  | [] => 0
  | b :: bs => b.toNat + 2 * valueOf bs

/-! ## The opcode map (R51) -/

/-- R47 to R49: the formats of a command. -/
inductive Format where
  | control
  | write
  | read
deriving DecidableEq, Repr

/-- The eight commands of R51. -/
inductive Command where
  | loadConfig
  | loadData
  | readData
  | incAddr
  | resetAddr
  | beginProg
  | bulkErase
  | rowErase
deriving DecidableEq, Repr

/-- A row of the table of R51. -/
structure CommandRow where
  command : Command
  opcode : Nat
  format : Format
  delayAfter : Delay
deriving DecidableEq, Repr

/-- The table of R51. "This table is the complete map". -/
def commandTable : List CommandRow :=
  [ ⟨.loadConfig, 0x00, .write, .tCmd⟩,
    ⟨.loadData, 0x02, .write, .tCmd⟩,
    ⟨.readData, 0x04, .read, .tCmd⟩,
    ⟨.incAddr, 0x06, .control, .tCmd⟩,
    ⟨.resetAddr, 0x16, .control, .tCmd⟩,
    ⟨.beginProg, 0x08, .control, .tProg⟩,
    ⟨.bulkErase, 0x09, .control, .tBulk⟩,
    ⟨.rowErase, 0x11, .control, .tRow⟩ ]

/-- The row of R51 that holds the opcode, if any. -/
def rowOfOpcode (op : Nat) : Option CommandRow := commandTable.find? (fun r => r.opcode == op)

/-- The operation a command and its data word make (the word is used by format W only). -/
def Command.instr : Command → Nat → Instr
  | .loadConfig, d => .loadConfig d
  | .loadData, d => .loadData d
  | .readData, _ => .readData
  | .incAddr, _ => .incAddr
  | .resetAddr, _ => .resetAddr
  | .beginProg, _ => .beginProg
  | .bulkErase, _ => .bulkErase
  | .rowErase, _ => .rowErase

/-! ## Frames -/

/-- Why a host request is no operation. -/
inductive DecodeError where
  /-- R55: one of the 56 undefined six-bit codes. -/
  | undefinedOpcode (op : Nat)
  /-- R54: the frame is not 6, 22 or 33 bits long as its opcode asks. -/
  | frameLength (n : Nat)
  /-- R56: a framing bit of a write payload is not 0. -/
  | framingBit
  /-- R59: the first word of the line is no mnemonic of the line syntax. -/
  | unknownMnemonic
  /-- R58: the operands do not match the mnemonic. -/
  | badOperands
deriving DecidableEq, Repr

/-- R50: the 33 bits of format K in wire order, the field 0x0A12C2B2 and one 0. -/
def keyFrame : List Bit := bitsOf Config.keyBits 0x0A12C2B2 ++ bitsOf Config.keyTailBits 0

/-- R48, R52, R56: the data word of a write payload; both framing bits are 0. -/
def writePayload (payload : List Bit) : Except DecodeError Nat :=
  if payload.length ≠ Config.payloadBits then .error (.frameLength (Config.opcodeBits + payload.length))
  else if valueOf payload % 2 ≠ 0 ∨ 2 ^ 15 ≤ valueOf payload then .error .framingBit
  else .ok (valueOf payload / 2)

/-- R47 to R49, R54: the operation of a frame that begins with the opcode of the row. The payload of format R is driven
by the target, so its bits select nothing. -/
def decodePayload (r : CommandRow) (payload : List Bit) : Except DecodeError Instr :=
  match r.format with
  | .control =>
    if payload.length = 0 then .ok (r.command.instr 0)
    else .error (.frameLength (Config.opcodeBits + payload.length))
  | .write => (writePayload payload).map r.command.instr
  | .read =>
    if payload.length = Config.payloadBits then .ok (r.command.instr 0)
    else .error (.frameLength (Config.opcodeBits + payload.length))

/-- R46, R54: the operation of a frame, its bits in wire order. -/
def decodeFrame (bits : List Bit) : Except DecodeError Instr :=
  if bits = keyFrame then .ok .lvpKey
  else if bits.length < Config.opcodeBits then .error (.frameLength bits.length)
  else match rowOfOpcode (valueOf (bits.take Config.opcodeBits)) with
    | some r => decodePayload r (bits.drop Config.opcodeBits)
    | none => .error (.undefinedOpcode (valueOf (bits.take Config.opcodeBits)))

/-! ### Encoder of frames -/

/-- What stands on `DAT` at one falling edge: a bit the engine drives, or `none` where the target drives it (the `x`
of R49). -/
abbrev WireBit := Option Bit

/-- R33: an engine-driven field on the wire. -/
def drivenField (n v : Nat) : List WireBit := (bitsOf n v).map some

/-- R47 to R50, R52: the frame of an operation in wire order; empty for the host operations, which have no bit encoding
(R58). -/
def wireFrame : Instr → List WireBit
  | .loadConfig d => drivenField 6 0x00 ++ drivenField 16 (2 * d)
  | .loadData d => drivenField 6 0x02 ++ drivenField 16 (2 * d)
  | .readData => drivenField 6 0x04 ++ List.replicate 16 none
  | .incAddr => drivenField 6 0x06
  | .resetAddr => drivenField 6 0x16
  | .beginProg => drivenField 6 0x08
  | .bulkErase => drivenField 6 0x09
  | .rowErase => drivenField 6 0x11
  | .lvpKey => drivenField 32 0x0A12C2B2 ++ drivenField 1 0
  | .acquire _ => []
  | .setDir _ _ => []
  | .write _ _ => []
  | .read _ => []
  | .release _ => []
  | .ensureOutWrite _ _ => []
  | .reverse _ _ => []
  | .send _ _ => []
  | .recv _ => []
  | .sessionNew _ => []
  | .reset => []
  | .enterLvp => []
  | .exit => []
  | .verify _ => []
  | .interrupt => []

/-- The frame as bits: a bit the target drives stands as 0 (log 5). -/
def encodeFrame (i : Instr) : List Bit := (wireFrame i).map (fun b => b.getD false)

/-! ### Words of the opcode table -/

/-- R54: how many bits the frame that begins with these bits has; the key's length where the opcode is undefined. -/
def frameLength (bits : List Bit) : Nat :=
  match rowOfOpcode (valueOf (bits.take Config.opcodeBits)) with
  | some r =>
    match r.format with
    | .control => 6
    | .write => 22
    | .read => 22
  | none => 33

/-- The frame that a word of spec/opcode_table.json stands for: bit 0 is the first bit of the frame (log 5), every bit
at or above `nbits` is 0. -/
def tableFrame (nbits w : Nat) : List Bit :=
  let bits := bitsOf 33 (w % 2 ^ nbits)
  bits.take (frameLength bits)

/-- The operation the decoder reads from a word numbered as spec/opcode_table.json numbers it. -/
def decodeTableWord (nbits w : Nat) : Option Instr := (decodeFrame (tableFrame nbits w)).toOption

/-! ## Program lines (R59) -/

/-- R59: a comment starts at `"; "`. -/
def cutComment : List Char → List Char
  | ';' :: ' ' :: _ => []
  | [] => []
  | c :: cs => c :: cutComment cs

/-- The words of a line, separated by spaces; `cur` holds the letters of the word being read, last first. -/
def wordsOf : List Char → List Char → List (List Char)
  | [], [] => []
  | [], c :: cur => [(c :: cur).reverse]
  | ' ' :: cs, [] => wordsOf cs []
  | ' ' :: cs, c :: cur => (c :: cur).reverse :: wordsOf cs []
  | c :: cs, cur => wordsOf cs (c :: cur)

/-- The value of a digit of a base up to 16, if it is one. -/
def digitValue (base : Nat) (c : Char) : Option Nat :=
  let v :=
    if '0'.toNat ≤ c.toNat ∧ c.toNat ≤ '9'.toNat then c.toNat - '0'.toNat
    else if 'a'.toNat ≤ c.toNat ∧ c.toNat ≤ 'f'.toNat then c.toNat - 'a'.toNat + 10
    else if 'A'.toNat ≤ c.toNat ∧ c.toNat ≤ 'F'.toNat then c.toNat - 'A'.toNat + 10
    else base
  if v < base then some v else none

/-- The value of a string of digits after the digits whose value is `acc`. -/
def digitsValue (base : Nat) : Nat → List Char → Option Nat
  | acc, [] => some acc
  | acc, c :: cs =>
    match digitValue base c with
    | some d => digitsValue base (base * acc + d) cs
    | none => none

/-- R59: `number := decimal | "0x" hex | "0b" binary`. -/
def parseNumber : List Char → Option Nat
  | [] => none
  | '0' :: 'x' :: c :: cs => digitsValue 16 0 (c :: cs)
  | '0' :: 'b' :: c :: cs => digitsValue 2 0 (c :: cs)
  | c :: cs => digitsValue 10 0 (c :: cs)

/-- R59: `pin := "RST" | "CLK" | "DAT"`. -/
def parsePin (t : List Char) : Option Pin :=
  if t = "RST".toList then some .rst
  else if t = "CLK".toList then some .clk
  else if t = "DAT".toList then some .dat
  else none

/-- R59 `direction`, and any other word as the unadmitted operand that R62 refuses (log 16). -/
def parseDir (t : List Char) : DirArg :=
  if t = "in".toList then .word .dirIn
  else if t = "out".toList then .word .dirOut
  else if t = "low".toList then .word .dirLow
  else if t = "high".toList then .word .dirHigh
  else .other t

/-- R58, R66: an operand that is a Bit. DESIGN CHOICE (safe, log 10): another number is an operand out of the range of
R66, so no operation is read and the request is refused with the mark of R110, whose list does not name this case. -/
def parseBit (t : List Char) : Option Bit :=
  match parseNumber t with
  | some 0 => some false
  | some 1 => some true
  | _ => none

/-- The mnemonics of the line syntax (R51, R58) with the operands R58 gives them. `SESSION_NEW` has no line: R59 has no
syntax for a `Config` (log 16). -/
inductive Mnemonic where
  | data (c : Nat → Instr)
  | plain (i : Instr)
  | pin (c : Pin → Instr)
  | pinDir (c : Pin → DirArg → Instr)
  | pinInt (c : Pin → Int → Instr)
  | pinBit (c : Pin → Bit → Instr)
  | twoNats (c : Nat → Nat → Instr)

/-- R51, R58: the mnemonics. -/
def mnemonicTable : List (List Char × Mnemonic) :=
  [ ("LOAD_CONFIG".toList, .data .loadConfig),
    ("LOAD_DATA".toList, .data .loadData),
    ("READ_DATA".toList, .plain .readData),
    ("INC_ADDR".toList, .plain .incAddr),
    ("RESET_ADDR".toList, .plain .resetAddr),
    ("BEGIN_PROG".toList, .plain .beginProg),
    ("BULK_ERASE".toList, .plain .bulkErase),
    ("ROW_ERASE".toList, .plain .rowErase),
    ("ACQUIRE".toList, .pin .acquire),
    ("SETDIR".toList, .pinDir .setDir),
    ("WRITE".toList, .pinInt .write),
    ("READ".toList, .pin .read),
    ("RELEASE".toList, .pin .release),
    ("ENSURE_OUT_WRITE".toList, .pinBit .ensureOutWrite) ] ++
  [ ("REVERSE".toList, .twoNats .reverse),
    ("SEND".toList, .twoNats .send),
    ("RECV".toList, .data .recv),
    ("RESET".toList, .plain .reset),
    ("ENTER_LVP".toList, .plain .enterLvp),
    ("EXIT".toList, .plain .exit),
    ("VERIFY".toList, .data .verify),
    ("INTERRUPT".toList, .plain .interrupt) ]

/-- The entry of the table for a word. -/
def mnemonicOf (t : List Char) : Option Mnemonic := (mnemonicTable.find? (fun e => e.1 == t)).map (·.2)

/-- R58: the operation a mnemonic makes of its operand words. -/
def decodeOperands : Mnemonic → List (List Char) → Option Instr
  | .plain i, [] => some i
  | .data c, [a] => (parseNumber a).map c
  | .pin c, [a] => (parsePin a).map c
  | .pinDir c, [a, b] => (parsePin a).map (fun p => c p (parseDir b))
  | .pinInt c, [a, b] =>
    match parsePin a, parseNumber b with
    | some p, some v => some (c p (Int.ofNat v))
    | _, _ => none
  | .pinBit c, [a, b] =>
    match parsePin a, parseBit b with
    | some p, some v => some (c p v)
    | _, _ => none
  | .twoNats c, [a, b] =>
    match parseNumber a, parseNumber b with
    | some v, some n => some (c v n)
    | _, _ => none
  | _, _ => none

/-- R59: the operation of a program line. -/
def decodeLine (text : List Char) : Except DecodeError Instr :=
  match wordsOf (cutComment text) [] with
  | [] => .error .unknownMnemonic
  | m :: operands =>
    match mnemonicOf m with
    | none => .error .unknownMnemonic
    | some k =>
      match decodeOperands k operands with
      | some i => .ok i
      | none => .error .badOperands

/-! ### Encoder of lines -/

/-- The decimal digits of `n` before the text `tail`; `fuel` bounds the number of digits. -/
def decimalBefore : Nat → Nat → List Char → List Char
  | 0, _, tail => tail
  | fuel + 1, n, tail =>
    let tail := Char.ofNat (48 + n % 10) :: tail
    if n / 10 = 0 then tail else decimalBefore fuel (n / 10) tail

/-- A natural in decimal. -/
def decimal (n : Nat) : List Char := decimalBefore (n + 1) n []

/-- R59: a pin. -/
def pinText : Pin → List Char
  | .rst => "RST".toList
  | .clk => "CLK".toList
  | .dat => "DAT".toList

/-- R62, R68: the literal direction strings. -/
def dirText : DirWord → List Char
  | .dirIn => "in".toList
  | .dirOut => "out".toList
  | .dirLow => "low".toList
  | .dirHigh => "high".toList

/-- A mnemonic and its operand words, one space before each operand. -/
def lineText (m : String) (operands : List (List Char)) : List Char :=
  m.toList ++ operands.flatMap (fun t => ' ' :: t)

/-- R59: the program line of an operation; none where R59 has no syntax for it (`SESSION_NEW`, `LVP_KEY`, a negative
value, a direction that is none of the four). -/
def encodeLine : Instr → Option (List Char)
  | .loadConfig d => some (lineText "LOAD_CONFIG" [decimal d])
  | .loadData d => some (lineText "LOAD_DATA" [decimal d])
  | .readData => some (lineText "READ_DATA" [])
  | .incAddr => some (lineText "INC_ADDR" [])
  | .resetAddr => some (lineText "RESET_ADDR" [])
  | .beginProg => some (lineText "BEGIN_PROG" [])
  | .bulkErase => some (lineText "BULK_ERASE" [])
  | .rowErase => some (lineText "ROW_ERASE" [])
  | .lvpKey => none
  | .acquire p => some (lineText "ACQUIRE" [pinText p])
  | .setDir p (.word d) => some (lineText "SETDIR" [pinText p, dirText d])
  | .setDir _ (.other _) => none
  | .write p (.ofNat v) => some (lineText "WRITE" [pinText p, decimal v])
  | .write _ (.negSucc _) => none
  | .read p => some (lineText "READ" [pinText p])
  | .release p => some (lineText "RELEASE" [pinText p])
  | .ensureOutWrite p b => some (lineText "ENSURE_OUT_WRITE" [pinText p, decimal b.toNat])
  | .reverse v n => some (lineText "REVERSE" [decimal v, decimal n])
  | .send v n => some (lineText "SEND" [decimal v, decimal n])
  | .recv n => some (lineText "RECV" [decimal n])
  | .sessionNew _ => none
  | .reset => some (lineText "RESET" [])
  | .enterLvp => some (lineText "ENTER_LVP" [])
  | .exit => some (lineText "EXIT" [])
  | .verify n => some (lineText "VERIFY" [decimal n])
  | .interrupt => some (lineText "INTERRUPT" [])

/-! ## Host requests -/

/-- The operation of a host request (log 4, log 5). -/
def HostRequest.decode : HostRequest → Except DecodeError Instr
  | .call i => .ok i
  | .line text => decodeLine text
  | .frame bits => decodeFrame bits

end Sys2Proof
end

