-- ==== Sys2Proof/Machine/State.lean ====
section
/-! DEFINITION. The state of the engine (spec/10_state.md R12 to R25), its line events (spec/00_scope.md R11), its error
kinds (spec/60_exceptions.md R103), and the state after reset (spec/70_reset_and_hazards.md R123). -/

namespace Sys2Proof.Machine

/-! ## Session state and pins -/

/-- R13: the five session states. -/
inductive SessionState where
  | unpowered
  | reset
  | lvpEntered
  | programmingMode
  | exited
deriving DecidableEq, Repr

/-- R15: a pin's recorded direction. -/
inductive Dir where
  | input
  | output
deriving DecidableEq, Repr

/-- R15: what the engine knows of one pin; a level of `none` is `⊥`. -/
structure PinRec where
  acquired : Bool
  dir : Dir
  level : Option Bit
deriving DecidableEq, Repr

/-- R12: the records of the three pins. -/
structure PinTable where
  rst : PinRec
  clk : PinRec
  dat : PinRec
deriving DecidableEq, Repr

/-! ## Line events, errors and results -/

/-- R11: a line event. `claim` is `EXPORT`, `unclaim` is `UNEXPORT`. -/
inductive Event where
  | claim (p : Pin)
  | dir (p : Pin) (d : DirWord)
  | wr (p : Pin) (b : Bit)
  | rd (p : Pin) (b : Bit)
  | unclaim (p : Pin)
  | hold (t : Delay)
deriving DecidableEq, Repr

/-- R103: the provider operation an error names (`export`, `direction`, `value`, `unexport`). -/
inductive ProviderOp where
  | claim
  | direction
  | value
  | unclaim
deriving DecidableEq, Repr

/-- R63, R64, R71, R72: the names of the preconditions. -/
inductive Precondition where
  | writeToInput
  | readOfOutput
  | sendClockNotLowOutput
  | sendDataNotOutput
  | recvClockNotLowOutput
  | recvDataNotInput
deriving DecidableEq, Repr

/-- R103: the error kinds. -/
inductive ErrorKind where
  | hardwareUnavailable
  | invalidPinValue
  | verificationMismatch
  | teardownFailure
  | preconditionViolation
  | interrupted
deriving DecidableEq, Repr

/-- An error that an operation other than `EXIT` can raise, with its info (R103). -/
inductive OpError where
  /-- R104: kind 1, raised by a failing provider operation. -/
  | hardwareUnavailable (p : Pin) (op : ProviderOp)
  /-- R105: kind 2, raised by `WRITE p v` with `v` not 0 or 1. -/
  | invalidPinValue (v : Int)
  /-- R108: kind 5, raised by `WRITE`, `READ`, `SEND`, `RECV`. -/
  | preconditionViolation (p : Pin) (c : Precondition)
  /-- R9, U17: kind 5, a `⊥` snapshot entry used as a number; no rule of the engine does it (log 18). -/
  | unrecordedRead (a : Nat)
  /-- R109: kind 6, raised where an interrupt is taken. -/
  | interrupted
deriving DecidableEq, Repr

/-- R24: what `s.err` holds, a kind with its info. -/
inductive SessionError where
  | op (e : OpError)
  /-- R107: kind 4, raised by `EXIT` with every failure in order. -/
  | teardownFailure (fs : List (Pin × OpError))
deriving DecidableEq, Repr

/-- R22: a mismatch report. -/
structure Mismatch where
  pass : Nat
  addr : Nat
  expected : Word
  observed : Word
deriving DecidableEq, Repr

/-- R58: the value an operation returns. -/
inductive Value where
  | unit
  | bit (b : Bit)
  | nat (n : Nat)
  | word (w : Word)
  | reports (ms : List Mismatch)
deriving DecidableEq, Repr

/-- R110: why an invocation is refused. -/
inductive RefuseReason where
  /-- R70 -/
  | reverseOperandTooWide
  /-- R52 -/
  | dataTooWide
  /-- R62 -/
  | directionNotAdmitted
  /-- R88 -/
  | pinsNotDistinct
  /-- R87 -/
  | stateNotAdmitted
  /-- R10, R55, R66, U6: the host's request is no operation (log 10) -/
  | noOperation (e : DecodeError)
deriving DecidableEq, Repr

/-- R10, R11, R111: the outcome of one host operation: `Ok(v)`, the propagated error with the failures of the
teardown, or a refusal. -/
inductive OpResult where
  | ok (v : Value)
  | err (e : SessionError) (teardown : List (Pin × OpError))
  | refused (why : RefuseReason)
deriving DecidableEq, Repr

/-! ## The snapshot, and the inputs of the outside world -/

/-- R21: the snapshot, as (address, word) pairs with strictly rising addresses; an unlisted address is `⊥`. -/
abbrev Memory := List (Nat × Word)

/-- R10: the coming draws, each list first one first; past its end a draw is an opaque constant of Config at `drawn`
(log 3). -/
structure Env where
  /-- R67: whether the coming provider operations fail. -/
  fails : List Bool
  /-- R68: the contents the coming value reads return. -/
  reads : List (List Char)
  /-- R114: whether an interrupt request arrives before the coming boundaries inside `VERIFY`. -/
  irqs : List Bool
  /-- how many draws were made past the lists' ends -/
  drawn : Nat
deriving DecidableEq, Repr

/-! ## Outcomes of a step that are no next state -/

/-- No step ends in a fault: every error of R103 takes the abort path of R111, which is a next state (log 8), and "No
state of the engine is `stuck`" (spec/93). -/
inductive Fault where
deriving DecidableEq, Repr

/-- Why a step has no next state; no arm of exec and no step answers one. -/
inductive Refusal where
  /-- Raised by a refused arm of exec: the instruction has no meaning in the model yet. Safe. -/
  | notModelled (mnemonic : String)
deriving DecidableEq, Repr

/-! ## The state -/

/-- R12: the engine state, then the pending interrupt request (R114), the results the host has been given (R11), the
operations the host has still to invoke (R59) and the inputs of the outside world (R10). -/
structure State where
  state : SessionState
  cfg : SessionConfig
  pins : PinTable
  tracked : List Pin
  snap : Memory
  mismatches : List Mismatch
  err : Option SessionError
  refused : Bool
  trace : List Event
  irqPending : Bool
  results : List OpResult
  host : List HostRequest
  env : Env
deriving DecidableEq, Repr

/-- R16: the reset value of a pin record. -/
def PinRec.reset : PinRec := { acquired := false, dir := .input, level := none }

/-- R123: the machine right after `SESSION_NEW`; its argument is log 2, the host's side is log 3 and log 4. -/
def State.reset : State where
  state := .unpowered
  cfg := Config.resetSession
  pins := { rst := PinRec.reset, clk := PinRec.reset, dat := PinRec.reset }
  tracked := []
  snap := []
  mismatches := []
  err := none
  refused := false
  trace := []
  irqPending := false
  results := []
  host := []
  env := { fails := [], reads := [], irqs := [], drawn := 0 }

end Sys2Proof.Machine
end

