-- ==== Sys2Proof/Machine/Operands.lean ====
section
/-! DEFINITION. Operands: their ranges (spec/60_exceptions.md R110), the assembly and decode of payloads
(spec/30_encoding.md R52, R53), bit reversal (spec/41_bit_transport.md R70), and the content of a value file
(spec/40_gpio_pins.md R68). -/

namespace Sys2Proof.Machine

/-! ## Ranges (R110) -/

/-- R52, D11: a write command refuses an operand of 14 bits or more. -/
def dataRefusal (d : Nat) : Option RefuseReason := if dataInRange d then none else some .dataTooWide

/-- R70, D10: `REVERSE` refuses an operand of more than `n` bits. -/
def reverseRefusal (v n : Nat) : Option RefuseReason :=
  if reverseInRange v n then none else some .reverseOperandTooWide

/-- R62: `SETDIR` refuses any direction but the four. -/
def dirRefusal : DirArg → Option RefuseReason
  | .word _ => none
  | .other _ => some .directionNotAdmitted

/-- R88, D4: `SESSION_NEW` refuses pin identifiers that are not pairwise distinct. -/
def configRefusal (c : SessionConfig) : Option RefuseReason :=
  if c.pinsDistinct then none else some .pinsNotDistinct

/-! ## Values -/

/-- R70: bit `i` of the input becomes bit `n-1-i` of the output; `i` counts the bits done, `r` is what they gave. -/
def reverseLoop (v n : Nat) : Nat → Nat → Nat → Nat
  | 0, _, r => r
  | k + 1, i, r => reverseLoop v n k (i + 1) (r ||| (((v >>> i) &&& 1) <<< (n - 1 - i)))

/-- R70: `REVERSE v n`. -/
def reverseBits (v n : Nat) : Nat := reverseLoop v n n 0 0

/-- R52: the payload of a write command, `P = d << 1`. -/
def writePayloadOf (d : Nat) : Nat := d <<< 1

/-- R53: the word of a received payload, `(raw >> 1) & 0x3FFF`. -/
def readWordOf (raw : Nat) : Word := BitVec.ofNat 14 ((raw >>> 1) &&& 0x3FFF)

/-- R68, D35: the bit a value file's content stands for; anything but `0` or `1` and a newline is unexpected. -/
def contentBit : List Char → Option Bit
  | ['0', '\n'] => some false
  | ['1', '\n'] => some true
  | _ => none

/-- R68: the content of a value file that presents the bit. -/
def bitContent (b : Bit) : List Char := [if b then '1' else '0', '\n']

/-! ## Pin records (R15, R18) -/

/-- R61: the record of a freshly acquired pin. -/
def PinRec.claimed : PinRec := { acquired := true, dir := .input, level := none }

/-- R62: the record after a direction write. -/
def PinRec.withDir (r : PinRec) : DirWord → PinRec
  | .dirIn => { r with dir := .input, level := none }
  | .dirOut => { r with dir := .output, level := none }
  | .dirLow => { r with dir := .output, level := some false }
  | .dirHigh => { r with dir := .output, level := some true }

/-- R63: the record after a value write. -/
def PinRec.withLevel (r : PinRec) (b : Bit) : PinRec := { r with level := some b }

/-- R71, R72: the pin is acquired, an output, and low. -/
def PinRec.lowOutput (r : PinRec) : Bool := r.acquired && r.dir == .output && r.level == some false

/-- R71: the pin is acquired and an output. -/
def PinRec.isOutput (r : PinRec) : Bool := r.acquired && r.dir == .output

/-- R72: the pin is acquired and an input. -/
def PinRec.isInput (r : PinRec) : Bool := r.acquired && r.dir == .input

/-- R5, R18: the electrical condition of a pin. -/
inductive Condition where
  | highImpedance
  | driven (b : Bit)
  /-- R18, U4: an output whose level is a draw -/
  | drivenUnknown
  /-- R18, R123, U2, U3: any of the conditions -/
  | unknown
deriving DecidableEq, Repr

/-- R18: the condition that agrees with the record after a successful provider operation. -/
def PinRec.condition (r : PinRec) : Condition :=
  match r.dir, r.level with
  | .input, _ => .highImpedance
  | .output, some b => .driven b
  | .output, none => .drivenUnknown

/-- The record of a pin. -/
def State.pin (s : State) : Pin → PinRec
  | .rst => s.pins.rst
  | .clk => s.pins.clk
  | .dat => s.pins.dat

/-- R18, R67: the last provider operation on the pin failed: the claim whose error ended the session, or the release
that the teardown attempted last. DEDUCED (safe, log 19): a failure ends in `Exited`, where every acquired pin has had
its release attempted. -/
def State.lastFailed (s : State) (p : Pin) : Bool :=
  s.state == .exited && ((s.pin p).acquired || s.err == some (.op (.hardwareUnavailable p .claim)))

/-- R18, R123: the electrical condition of a pin between operations: unknown before its first `ACQUIRE` (U2) and after a
failed provider operation (U3), else the one that agrees with its record (log 19). -/
def State.condition (s : State) (p : Pin) : Condition :=
  if p ∈ s.tracked then if s.lastFailed p then .unknown else (s.pin p).condition else .unknown

/-- The state with another record of a pin. -/
def State.setPin (s : State) (p : Pin) (r : PinRec) : State :=
  match p with
  | .rst => { s with pins := { s.pins with rst := r } }
  | .clk => { s with pins := { s.pins with clk := r } }
  | .dat => { s with pins := { s.pins with dat := r } }

end Sys2Proof.Machine
end

