-- ==== Sys2Proof/Machine/Flags.lean ====
section
/-! DEFINITION. What stands for flags in this engine, which has no condition flags (spec/10_state.md R20): admission by
session state (spec/43_session.md R87), the error record, the refusal mark and the results (R24, R11), and the codes of
R13 and R103. -/

namespace Sys2Proof.Machine

/-- R13, D30: the index of a session state. -/
def SessionState.index : SessionState → Nat
  | .unpowered => 0
  | .reset => 1
  | .lvpEntered => 2
  | .programmingMode => 3
  | .exited => 4

/-- R103, D25: the code of an error kind. -/
def ErrorKind.code : ErrorKind → Nat
  | .hardwareUnavailable => 1
  | .invalidPinValue => 2
  | .verificationMismatch => 3
  | .teardownFailure => 4
  | .preconditionViolation => 5
  | .interrupted => 6

/-- R103: the kind of an error. -/
def OpError.kind : OpError → ErrorKind
  | .hardwareUnavailable _ _ => .hardwareUnavailable
  | .invalidPinValue _ => .invalidPinValue
  | .preconditionViolation _ _ => .preconditionViolation
  | .unrecordedRead _ => .preconditionViolation
  | .interrupted => .interrupted

/-- R103: the kind of what `s.err` holds. -/
def SessionError.kind : SessionError → ErrorKind
  | .op e => e.kind
  | .teardownFailure _ => .teardownFailure

/-! ## Admission (R87) -/

/-- The rows of the table of R87. -/
inductive OpClass where
  | reset
  | enterLvp
  | command
  | verify
  | exit
  | line
  | reverse
  | interrupt
deriving DecidableEq, Repr

/-- The table of R87: whether a class of operations is admitted in a session state. -/
def admits : OpClass → SessionState → Bool
  | .reset, .unpowered => true
  | .reset, .reset => true
  | .reset, _ => false
  | .enterLvp, .reset => true
  | .enterLvp, _ => false
  | .command, .lvpEntered => true
  | .command, .programmingMode => true
  | .command, _ => false
  | .verify, .lvpEntered => true
  | .verify, .programmingMode => true
  | .verify, _ => false
  | .exit, .exited => false
  | .exit, _ => true
  | .line, .exited => false
  | .line, _ => true
  | .reverse, _ => true
  | .interrupt, .exited => false
  | .interrupt, _ => true

/-! ## The error record, the refusal mark and the results -/

/-- R112: `s.err` is written once. -/
def State.recordErr (s : State) (e : SessionError) : State :=
  match s.err with
  | none => { s with err := some e }
  | some _ => s

/-- R11: the host is given a result. -/
def State.addResult (s : State) (r : OpResult) : State := { s with results := s.results ++ [r] }

/-- R110: a refused invocation changes nothing but `s.refused`; the host is told why. -/
def State.refuse (s : State) (why : RefuseReason) : State :=
  { s with refused := true, results := s.results ++ [.refused why] }

end Sys2Proof.Machine
end

