-- ==== Sys2Proof/Machine/Ops.lean ====
section
/-! DEFINITION. The named operations the meanings share: the snapshot, the draws, the pin primitives
(spec/40_gpio_pins.md), the bit transport (spec/41_bit_transport.md), the shape of a command (spec/42_commands.md R76),
teardown (spec/43_session.md R92), the abort path that every error takes (spec/60_exceptions.md R111), and the
invocation of an operation by the host (R110, R113). -/

namespace Sys2Proof.Machine

/-! ## The snapshot (R10, R21) -/

/-- The addresses are strictly rising. -/
def Memory.wf : Memory → Bool
  | [] => true
  | [_] => true
  | (a, _) :: (b, w) :: m => a < b && Memory.wf ((b, w) :: m)

/-- R10 `MemRead`: `none` is `⊥`. -/
def Memory.read : Memory → Nat → Option Word
  | [], _ => none
  | (b, w) :: m, a => if a = b then some w else Memory.read m a

/-- R10 `MemWrite`. -/
def Memory.write : Memory → Nat → Word → Memory
  | [], a, v => [(a, v)]
  | (b, w) :: m, a, v =>
    if a < b then (a, v) :: (b, w) :: m
    else if a = b then (a, v) :: m
    else (b, w) :: Memory.write m a v

/-! ## Pins and events -/

/-- R11: append a line event to the trace. -/
def State.emit (s : State) (e : Event) : State := { s with trace := s.trace ++ [e] }

/-- R17: a pin is tracked once. -/
def State.track (s : State) (p : Pin) : State :=
  { s with tracked := if p ∈ s.tracked then s.tracked else s.tracked ++ [p] }

/-- An operation of the engine: it returns a value or raises an error, and leaves a state either way (R10). -/
abbrev Op (α : Type) := EStateM OpError State α

/-- R10 `emit E`. -/
def emit (e : Event) : Op Unit := modify (fun s => s.emit e)

/-! ## Named updates -/

/-- The state with the coming `fails?` draws replaced. -/
def State.withFails (s : State) (l : List Bool) : State := { s with env := { s.env with fails := l } }

/-- The state with the coming read contents replaced. -/
def State.withReads (s : State) (l : List (List Char)) : State := { s with env := { s.env with reads := l } }

/-- The state with the coming arrivals of interrupt requests replaced. -/
def State.withIrqs (s : State) (l : List Bool) : State := { s with env := { s.env with irqs := l } }

/-- One more free value has been drawn (log 3). -/
def State.drawnOnce (s : State) : State := { s with env := { s.env with drawn := s.env.drawn + 1 } }

/-- R13: the session state is written. -/
def State.withState (s : State) (st : SessionState) : State := { s with state := st }

/-- R98: the snapshot is written. -/
def State.withSnap (s : State) (m : Memory) : State := { s with snap := m }

/-- R99: the mismatch log is written. -/
def State.withMismatches (s : State) (ms : List Mismatch) : State := { s with mismatches := ms }

/-- R114: the pending interrupt request is set or taken. -/
def State.withIrqPending (s : State) (b : Bool) : State := { s with irqPending := b }

/-- R59: the operations the host has still to invoke are replaced. -/
def State.withHost (s : State) (h : List HostRequest) : State := { s with host := h }

/-! ## Draws (R10, log 3) -/

/-- R10 `fails?`. -/
def drawFail : Op Bool := fun s =>
  match s.env.fails with
  | b :: rest => .ok b (s.withFails rest)
  | [] => .ok (Config.freeFail s.env.drawn) s.drawnOnce

/-- R68: the content a value read returns. -/
def drawContent : Op (List Char) := fun s =>
  match s.env.reads with
  | t :: rest => .ok t (s.withReads rest)
  | [] => .ok (Config.freeRead s.env.drawn) s.drawnOnce

/-- R114: whether an interrupt request has arrived since the last boundary. -/
def drawIrq : Op Bool := fun s =>
  match s.env.irqs with
  | b :: rest => .ok b (s.withIrqs rest)
  | [] => .ok (Config.freeIrq s.env.drawn) s.drawnOnce

/-- R67: one provider operation, which may fail. -/
def provider (p : Pin) (op : ProviderOp) : Op Unit := do
  if ← drawFail then throw (.hardwareUnavailable p op) else pure ()

/-! ## Pin primitives (R61 to R66) -/

/-- R61 `ACQUIRE p`. -/
def pinAcquire (p : Pin) : Op Unit := do
  if ((← get).pin p).acquired then pure ()
  else do
    provider p .claim
    emit (.claim p)
    modify (fun s => (s.setPin p PinRec.claimed).track p)

/-- R62 `SETDIR p d`. -/
def pinSetDir (p : Pin) (d : DirWord) : Op Unit := do
  pinAcquire p
  provider p .direction
  emit (.dir p d)
  modify (fun s => s.setPin p ((s.pin p).withDir d))

/-- R63: the bit of a value that is 0 or 1. -/
def pinValueBit (v : Int) : Option Bit := if v = 0 then some false else if v = 1 then some true else none

/-- R63 `WRITE p v`; the checks are in the order of R113. -/
def pinWrite (p : Pin) (v : Int) : Op Unit := do
  pinAcquire p
  match pinValueBit v with
  | none => throw (.invalidPinValue v)
  | some b => do
    if ((← get).pin p).dir = .input then throw (.preconditionViolation p .writeToInput)
    else do
      provider p .value
      emit (.wr p b)
      modify (fun s => s.setPin p ((s.pin p).withLevel b))

/-- R64 `READ p`; a content that is no bit is a failure of the read (R68, log 14). -/
def pinRead (p : Pin) : Op Bit := do
  pinAcquire p
  if ((← get).pin p).dir = .output then throw (.preconditionViolation p .readOfOutput)
  else do
    provider p .value
    match contentBit (← drawContent) with
    | none => throw (.hardwareUnavailable p .value)
    | some b => do
      emit (.rd p b)
      pure b

/-- R65 `RELEASE p`. -/
def pinRelease (p : Pin) : Op Unit := do
  if ((← get).pin p).acquired then do
    provider p .unclaim
    emit (.unclaim p)
    modify (fun s => s.setPin p PinRec.reset)
  else pure ()

/-- R66 `ENSURE_OUT_WRITE p b`. -/
def pinEnsureOutWrite (p : Pin) (b : Bit) : Op Unit := do
  pinAcquire p
  if ((← get).pin p).dir = .input then pinSetDir p (if b then .dirHigh else .dirLow)
  else pinWrite p (if b then 1 else 0)

/-! ## Bit transport (R71, R72) -/

/-- R71: the bits of `SR`, one per clock. -/
def sendBits : Nat → Nat → Op Unit
  | 0, _ => pure ()
  | k + 1, sr => do
    pinWrite .dat (Int.ofNat (sr &&& 1))
    pinWrite .clk 1
    emit (.hold .tHalf)
    pinWrite .clk 0
    emit (.hold .tHalf)
    sendBits k (sr >>> 1)

/-- R71 `SEND v n`. -/
def busSend (v n : Nat) : Op Unit := do
  let s ← get
  if (s.pin .clk).lowOutput then
    if (s.pin .dat).isOutput then sendBits n v
    else throw (.preconditionViolation .dat .sendDataNotOutput)
  else throw (.preconditionViolation .clk .sendClockNotLowOutput)

/-- R72: sample the bits still to come of an `n`-bit word into `ACC`. -/
def recvBits (n : Nat) : Nat → Nat → Op Nat
  | 0, acc => pure acc
  | k + 1, acc => do
    pinWrite .clk 1
    emit (.hold .tHalf)
    let b ← pinRead .dat
    pinWrite .clk 0
    emit (.hold .tHalf)
    recvBits n k ((acc >>> 1) ||| (b.toNat <<< (n - 1)))

/-- R72 `RECV n`. -/
def busRecv (n : Nat) : Op Nat := do
  let s ← get
  if (s.pin .clk).lowOutput then
    if (s.pin .dat).isInput then recvBits n n 0
    else throw (.preconditionViolation .dat .recvDataNotInput)
  else throw (.preconditionViolation .clk .recvClockNotLowOutput)

/-- R50, R90: the frame of format K. -/
def sendKey : Op Unit := do
  busSend (reverseBits Config.key Config.keyBits) Config.keyBits
  busSend 0 Config.keyTailBits

/-! ## Commands (R76, R77, R91) -/

/-- R91: the first command reaches `ProgrammingMode`; the step emits no event. -/
def commandAdmit : Op Unit :=
  modify (fun s => if s.state = .lvpEntered then s.withState .programmingMode else s)

/-- R76: a command of format C. -/
def controlCommand (opcode : Nat) (settle : Delay) : Op Unit := do
  commandAdmit
  busSend opcode Config.opcodeBits
  emit (.hold settle)

/-- R76: a command of format W. -/
def writeCommand (opcode d : Nat) : Op Unit := do
  commandAdmit
  busSend opcode Config.opcodeBits
  emit (.hold .tCmd)
  busSend (writePayloadOf d) Config.payloadBits
  emit (.hold .tCmd)

/-- R76, R80: a command of format R. -/
def readCommand (opcode : Nat) : Op Word := do
  commandAdmit
  busSend opcode Config.opcodeBits
  emit (.hold .tCmd)
  pinSetDir .dat .dirIn
  let raw ← busRecv Config.payloadBits
  pinSetDir .dat .dirOut
  emit (.hold .tCmd)
  pure (readWordOf raw)

/-! ## Teardown and abort (R92, R93, R111) -/

/-- R92 `try … on error e`: run an operation and collect its failure instead of raising it. -/
def collect (p : Pin) (x : Op Unit) (r : List (Pin × OpError) × State) : List (Pin × OpError) × State :=
  match x.run r.2 with
  | .ok _ t => (r.1, t)
  | .error e t => (r.1 ++ [(p, e)], t)

/-- R92: the loop over the tracked pins; a pin that is no longer acquired is skipped. -/
def teardownPins : List Pin → List (Pin × OpError) × State → List (Pin × OpError) × State
  | [], r => r
  | p :: ps, r =>
    if (r.2.pin p).acquired then
      teardownPins ps (collect p (pinRelease p) (collect p (pinSetDir p .dirIn) r))
    else teardownPins ps r

/-- R92: how `RST` is released before the loop. -/
def releaseReset (s : State) : List (Pin × OpError) × State :=
  if (s.pin .rst).acquired ∧ s.cfg.exitResetMode = .driveHigh then
    collect .rst (pinEnsureOutWrite .rst true) ([], s)
  else ([], s)

/-- R92: the steps of `EXIT`: the failures in the order they happened, and the state, which is `Exited`. -/
def teardown (s : State) : List (Pin × OpError) × State :=
  let r := teardownPins s.tracked (releaseReset s)
  (r.1, r.2.withState .exited)

/-- R111: taking an error that leaves a host operation other than `EXIT`. -/
def abort (e : OpError) (s : State) : State :=
  let s := s.recordErr (.op e)
  if s.state = .exited then s.addResult (.err (.op e) [])
  else
    let r := teardown s
    r.2.addResult (.err (.op e) r.1)

/-! ## Invocation by the host (R58, R110, R113) -/

/-- What a meaning answers. -/
abbrev Answer := Host.Outcome State Fault Refusal

/-- R110, R113: the refusals come first, operand range before session state. -/
def guarded (c : OpClass) (bad : Option RefuseReason) (run : State → State) (s : State) : Answer :=
  match bad with
  | some why => .next (s.refuse why)
  | none => if admits c s.state then .next (run s) else .next (s.refuse .stateNotAdmitted)

/-- R10, R111: run an operation to its result, or take its error. -/
def complete (body : Op Value) (s : State) : State :=
  match body.run s with
  | .ok v t => t.addResult (.ok v)
  | .error e t => abort e t

/-- R110, R111: an operation invoked by the host. -/
def invoke (c : OpClass) (bad : Option RefuseReason) (body : Op Value) (s : State) : Answer :=
  guarded c bad (complete body) s

/-- R92, R111: `EXIT` invoked by the host. -/
def completeExit (s : State) : State :=
  let r := teardown s
  if r.1 = [] then r.2.addResult (.ok .unit)
  else (r.2.recordErr (.teardownFailure r.1)).addResult (.err (.teardownFailure r.1) [])

/-- An operation that returns no value. -/
def noValue (x : Op Unit) : Op Value := do
  x
  pure .unit

/-- R114: a boundary between two commands inside `VERIFY`; a pending request is taken here. -/
def boundary : Op Unit := do
  let arrived ← drawIrq
  if (← get).irqPending || arrived then do
    modify (fun s => s.withIrqPending false)
    throw .interrupted
  else pure ()

end Sys2Proof.Machine
end

