-- ==== Sys2Proof/Machine/Pins.lean ====
section
/-! DEFINITION. The meanings of the pin primitives (spec/40_gpio_pins.md). -/

namespace Sys2Proof.Machine

/-- R61 -/
def execAcquire (p : Pin) (s : State) : Answer := invoke .line none (noValue (pinAcquire p)) s

/-- R62: the direction words; another word is refused before the body runs. -/
def setDirBody (p : Pin) : DirArg → Op Unit
  | .word d => pinSetDir p d
  | .other _ => pure ()

/-- R62 -/
def execSetDir (p : Pin) (d : DirArg) (s : State) : Answer :=
  invoke .line (dirRefusal d) (noValue (setDirBody p d)) s

/-- R63 -/
def execWrite (p : Pin) (v : Int) (s : State) : Answer := invoke .line none (noValue (pinWrite p v)) s

/-- R64 -/
def execRead (p : Pin) (s : State) : Answer :=
  invoke .line none (do
    let b ← pinRead p
    pure (.bit b)) s

/-- R65 -/
def execRelease (p : Pin) (s : State) : Answer := invoke .line none (noValue (pinRelease p)) s

/-- R66 -/
def execEnsureOutWrite (p : Pin) (b : Bit) (s : State) : Answer :=
  invoke .line none (noValue (pinEnsureOutWrite p b)) s

end Sys2Proof.Machine
end

