-- ==== Sys2Proof/Machine/Session.lean ====
section
/-! DEFINITION. The session operations (spec/43_session.md) and the host's interrupt (spec/60_exceptions.md R114). -/

namespace Sys2Proof.Machine

/-- R88: every field of R12 at its reset value; no interrupt request is pending (R123). The host's side is kept
(log 17). -/
def newSession (c : SessionConfig) (s : State) : State :=
  { s with
    state := .unpowered
    cfg := c
    pins := { rst := PinRec.reset, clk := PinRec.reset, dat := PinRec.reset }
    tracked := []
    snap := []
    mismatches := []
    err := none
    refused := false
    trace := []
    irqPending := false }

/-- R88; no session state is asked for (log 17). -/
def execSessionNew (c : SessionConfig) (s : State) : Answer :=
  match configRefusal c with
  | some why => .next (s.refuse why)
  | none => .next ((newSession c s).addResult (.ok .unit))

/-- R89 -/
def sessionReset : Op Unit := do
  pinEnsureOutWrite .rst false
  emit (.hold .tReset)
  modify (fun s => s.withState .reset)

/-- R89 -/
def execReset (s : State) : Answer := invoke .reset none (noValue sessionReset) s

/-- R90 -/
def enterLvp : Op Unit := do
  pinEnsureOutWrite .clk false
  pinSetDir .dat .dirOut
  sendKey
  emit (.hold .tEntry)
  modify (fun s => s.withState .lvpEntered)

/-- R90 -/
def execEnterLvp (s : State) : Answer := invoke .enterLvp none (noValue enterLvp) s

/-- R92 -/
def execExit (s : State) : Answer := guarded .exit none completeExit s

/-- R114, R109: the request is taken at the boundary between two host operations. -/
def execInterrupt (s : State) : Answer := invoke .interrupt none (throw .interrupted) s

end Sys2Proof.Machine
end

