-- ==== Sys2Proof/Machine/Transport.lean ====
section
/-! DEFINITION. The meanings of the transport operations (spec/41_bit_transport.md) and of the frame of format K
(spec/30_encoding.md R50). -/

namespace Sys2Proof.Machine

/-- R70 -/
def execReverse (v n : Nat) (s : State) : Answer :=
  invoke .reverse (reverseRefusal v n) (pure (.nat (reverseBits v n))) s

/-- R71 -/
def execSend (v n : Nat) (s : State) : Answer := invoke .line none (noValue (busSend v n)) s

/-- R72 -/
def execRecv (n : Nat) (s : State) : Answer :=
  invoke .line none (do
    let v ← busRecv n
    pure (.nat v)) s

/-- R50: the two sends of format K. DESIGN CHOICE (unsafe, log 6): R58 lists no host operation that sends the frame
alone; invoked alone it does what R50 and R46 give the frame, under the admission of `SEND`. -/
def execLvpKey (s : State) : Answer := invoke .line none (noValue sendKey) s

end Sys2Proof.Machine
end

