-- ==== Sys2Proof/Machine/Commands.lean ====
section
/-! DEFINITION. The eight ICSP commands (spec/42_commands.md): each as an operation, which `VERIFY` issues too, and as
the meaning of the host's invocation. -/

namespace Sys2Proof.Machine

/-- R78 -/
def loadConfig (d : Nat) : Op Unit := writeCommand 0x00 d

/-- R79 -/
def loadData (d : Nat) : Op Unit := writeCommand 0x02 d

/-- R80 -/
def readData : Op Word := readCommand 0x04

/-- R81 -/
def incAddr : Op Unit := controlCommand 0x06 .tCmd

/-- R82 -/
def resetAddr : Op Unit := controlCommand 0x16 .tCmd

/-- R83 -/
def beginProg : Op Unit := controlCommand 0x08 .tProg

/-- R84 -/
def bulkErase : Op Unit := controlCommand 0x09 .tBulk

/-- R85 -/
def rowErase : Op Unit := controlCommand 0x11 .tRow

/-- R78 -/
def execLoadConfig (d : Nat) (s : State) : Answer :=
  invoke .command (dataRefusal d) (noValue (loadConfig d)) s

/-- R79 -/
def execLoadData (d : Nat) (s : State) : Answer :=
  invoke .command (dataRefusal d) (noValue (loadData d)) s

/-- R80 -/
def execReadData (s : State) : Answer :=
  invoke .command none (do
    let w ← readData
    pure (.word w)) s

/-- R81 -/
def execIncAddr (s : State) : Answer := invoke .command none (noValue incAddr) s

/-- R82 -/
def execResetAddr (s : State) : Answer := invoke .command none (noValue resetAddr) s

/-- R83 -/
def execBeginProg (s : State) : Answer := invoke .command none (noValue beginProg) s

/-- R84 -/
def execBulkErase (s : State) : Answer := invoke .command none (noValue bulkErase) s

/-- R85 -/
def execRowErase (s : State) : Answer := invoke .command none (noValue rowErase) s

end Sys2Proof.Machine
end

