-- ==== Sys2Proof/Machine/Verification.lean ====
section
/-! DEFINITION. The verification comparator (spec/44_verification.md). -/

namespace Sys2Proof.Machine

/-- R98 `Record(a, v)`. -/
def record (a : Nat) (v : Word) : Op Unit := modify (fun s => s.withSnap (Memory.write s.snap a v))

/-- R99 `Compare(i, a, v)`. The entry is never `⊥` (log 18). -/
def compare (i a : Nat) (v : Word) : Op Unit := do
  match Memory.read (← get).snap a with
  | some e =>
    if e = v then pure ()
    else modify (fun s => s.withMismatches (s.mismatches ++ [⟨i, a, e, v⟩]))
  | none => throw (.unrecordedRead a)

/-- R97: pass 0 records, every later pass compares. -/
def checkWord (i a : Nat) (v : Word) : Op Unit := if i = 0 then record a v else compare i a v

/-- R114: the boundary before the first command of every pass but the first. -/
def passBoundary (i : Nat) : Op Unit := if i = 0 then pure () else boundary

/-- R97: word `k` of pass `i`, the boundary of R114 between its two commands. -/
def verifyWord (i k : Nat) : Op Unit := do
  let a := (← get).cfg.verifyBase + k
  let v ← readData
  checkWord i a v
  boundary
  incAddr

/-- R97: `n` words from word `k` on, a boundary before each. -/
def verifyWords (i : Nat) : Nat → Nat → Op Unit
  | _, 0 => pure ()
  | k, n + 1 => do
    boundary
    verifyWord i k
    verifyWords i (k + 1) n

/-- R97: pass `i`. -/
def verifyPass (i : Nat) : Op Unit := do
  loadConfig 0
  verifyWords i 0 (← get).cfg.verifyCount
  boundary
  resetAddr

/-- R97: `n` passes from pass `i` on, a boundary between two passes. -/
def verifyPasses : Nat → Nat → Op Unit
  | _, 0 => pure ()
  | i, n + 1 => do
    passBoundary i
    verifyPass i
    verifyPasses (i + 1) n

/-- R97: `VERIFY N`. -/
def verifyAll (n : Nat) : Op Value := do
  modify (fun s => (s.withSnap []).withMismatches [])
  verifyPasses 0 n
  pure (.reports (← get).mismatches)

/-- R96 -/
def execVerify (n : Nat) (s : State) : Answer := invoke .verify none (verifyAll n) s

end Sys2Proof.Machine
end

