-- ==== Sys2Proof/Machine/Dispatch.lean ====
section
/-! DEFINITION. One arm per row of spec/opcode_table.json. -/

namespace Sys2Proof.Machine

def exec (i : Instr) (s : State) : Host.Outcome State Fault Refusal :=
  match i with
  | .loadConfig d => Sys2Proof.Machine.execLoadConfig d s
  | .loadData d => Sys2Proof.Machine.execLoadData d s
  | .readData => Sys2Proof.Machine.execReadData s
  | .incAddr => Sys2Proof.Machine.execIncAddr s
  | .resetAddr => Sys2Proof.Machine.execResetAddr s
  | .beginProg => Sys2Proof.Machine.execBeginProg s
  | .bulkErase => Sys2Proof.Machine.execBulkErase s
  | .rowErase => Sys2Proof.Machine.execRowErase s
  | .lvpKey => Sys2Proof.Machine.execLvpKey s
  | .acquire p => Sys2Proof.Machine.execAcquire p s
  | .setDir p d => Sys2Proof.Machine.execSetDir p d s
  | .write p v => Sys2Proof.Machine.execWrite p v s
  | .read p => Sys2Proof.Machine.execRead p s
  | .release p => Sys2Proof.Machine.execRelease p s
  | .ensureOutWrite p b => Sys2Proof.Machine.execEnsureOutWrite p b s
  | .reverse v n => Sys2Proof.Machine.execReverse v n s
  | .send v n => Sys2Proof.Machine.execSend v n s
  | .recv n => Sys2Proof.Machine.execRecv n s
  | .sessionNew c => Sys2Proof.Machine.execSessionNew c s
  | .reset => Sys2Proof.Machine.execReset s
  | .enterLvp => Sys2Proof.Machine.execEnterLvp s
  | .exit => Sys2Proof.Machine.execExit s
  | .verify n => Sys2Proof.Machine.execVerify n s
  | .interrupt => Sys2Proof.Machine.execInterrupt s

end Sys2Proof.Machine
end

