-- ==== Sys2Proof/Machine/Step.lean ====
section
/-! DEFINITION. One step of the machine: a pending interrupt request is taken at the boundary before the host's next
operation (spec/60_exceptions.md R114), else the host's next operation runs (spec/30_encoding.md R59). -/

namespace Sys2Proof.Machine

/-- R114: between two host operations; an idle engine stays as it is (log 4). A request that is no operation is refused
as R10 and R110 say, with the mark `s.refused` (log 10). -/
def step (s : State) : Host.Outcome State Fault Refusal :=
  if s.irqPending then exec .interrupt (s.withIrqPending false)
  else
    match s.host with
    | [] => .next s
    | r :: rest =>
      match r.decode with
      | .ok i => exec i (s.withHost rest)
      | .error e => .next ((s.withHost rest).refuse (.noOperation e))

/-- R114: the host requests an interrupt. -/
def State.requestInterrupt (s : State) : State := s.withIrqPending true

/-- The host's next request is the frame of a word of spec/opcode_table.json, and no interrupt request comes before it
(log 5). -/
def State.withFetchWord (s : State) (nbits w : Nat) : State :=
  (s.withIrqPending false).withHost (.frame (tableFrame nbits w) :: s.host)

end Sys2Proof.Machine
end

