-- ==== Sys2Proof/Machine/Wire.lean ====
section
/-! DEFINITION. What an observer of the lines sees of a trace: the data bits at the falling edges of the clock
(spec/41_bit_transport.md R73, spec/95_test_vectors.md section 1), the lower bound of the elapsed time
(spec/70_reset_and_hazards.md R134), the file access of an event (spec/40_gpio_pins.md R68), and the events the rules
give a transfer, a command and a session operation. -/

namespace Sys2Proof.Machine

/-! ## Levels and wire bits -/

/-- The level the engine drives on a pin after an event; `none` where it drives none or an unknown one. -/
def levelAfter (p : Pin) (level : Option Bit) : Event → Option Bit
  | .claim q => if q = p then none else level
  | .dir q d => if q = p then (PinRec.reset.withDir d).level else level
  | .wr q b => if q = p then some b else level
  | .rd _ _ => level
  | .unclaim q => if q = p then none else level
  | .hold _ => level

/-- R73: the `DAT` levels at the falling edges of `CLK`, in time order, from the levels before the first event. -/
def wireBits : Option Bit → Option Bit → List Event → List WireBit
  | _, _, [] => []
  | clk, dat, e :: es =>
    (if clk = some true ∧ levelAfter .clk clk e = some false then [levelAfter .dat dat e] else []) ++
      wireBits (levelAfter .clk clk e) (levelAfter .dat dat e) es

/-! ## Time -/

/-- R8, R11, R118: the seconds of what a `HOLD` names. -/
def delayTime (sec : Seconds) (c : SessionConfig) : Delay → NNReal
  | .tHalf => sec c.tHalf
  | .tCmd => sec c.tCmd
  | .tProg => sec c.tProg
  | .tBulk => sec c.tBulk
  | .tRow => sec c.tRow
  | .tReset => sec c.tReset
  | .tEntry => sec c.tEntry
  | .zero => 0

/-- R9, R41: the least time an event takes, in seconds. -/
def eventTime (sec : Seconds) (c : SessionConfig) : Event → NNReal
  | .hold t => delayTime sec c t
  | .claim _ => 0
  | .dir _ _ => 0
  | .wr _ _ => 0
  | .rd _ _ => 0
  | .unclaim _ => 0

/-- R41, R74: the least time a list of events takes, in seconds. -/
def holdTotal (sec : Seconds) (c : SessionConfig) : List Event → NNReal
  | [] => 0
  | e :: es => eventTime sec c e + holdTotal sec c es

/-! ## The file contract (R68) -/

/-- R68, R119: the control files, the per-pin ones by pin number. -/
inductive ControlFile where
  | exportControl
  | unexportControl
  | direction (pin : Nat)
  | value (pin : Nat)
deriving DecidableEq, Repr

/-- R68: one access to a control file, with the text written or returned. -/
inductive FileAccess where
  | put (f : ControlFile) (text : List Char)
  | take (f : ControlFile) (text : List Char)
deriving DecidableEq, Repr

/-- R8: the number of a pin. -/
def pinNumber (c : SessionConfig) : Pin → Nat
  | .rst => c.pinReset
  | .clk => c.pinClock
  | .dat => c.pinData

/-- R11, R68: the file access of an event; a hold has none. -/
def fileAccess (c : SessionConfig) : Event → Option FileAccess
  | .claim p => some (.put .exportControl (decimal (pinNumber c p)))
  | .dir p d => some (.put (.direction (pinNumber c p)) (dirText d))
  | .wr p b => some (.put (.value (pinNumber c p)) [if b then '1' else '0'])
  | .rd p b => some (.take (.value (pinNumber c p)) (bitContent b))
  | .unclaim p => some (.put .unexportControl (decimal (pinNumber c p)))
  | .hold _ => none

/-! ## The events the rules give -/

/-- R71: the five events of a sent bit. -/
def sendSlot (b : Bit) : List Event :=
  [.wr .dat b, .wr .clk true, .hold .tHalf, .wr .clk false, .hold .tHalf]

/-- R71: the events of `SEND v n`: bit `k` of `v` in slot `k`. -/
def sendEvents (v n : Nat) : List Event := (List.range n).flatMap (fun k => sendSlot (v.testBit k))

/-- R72: the five events of a received bit. -/
def recvSlot (b : Bit) : List Event :=
  [.wr .clk true, .hold .tHalf, .rd .dat b, .wr .clk false, .hold .tHalf]

/-- R72: the events of a receive in which the target presents the bits. -/
def recvEvents (bs : List Bit) : List Event := bs.flatMap recvSlot

/-- R81 to R85: the events of a command of format C. -/
def controlEvents (opcode : Nat) (settle : Delay) : List Event := sendEvents opcode 6 ++ [.hold settle]

/-- R78, R79: the events of a command of format W. -/
def writeEvents (opcode d : Nat) : List Event :=
  sendEvents opcode 6 ++ [.hold .tCmd] ++ sendEvents (2 * d) 16 ++ [.hold .tCmd]

/-- R80: the events of `READ_DATA` in which the target presents the bits. -/
def readEvents (bs : List Bit) : List Event :=
  sendEvents 0x04 6 ++ [.hold .tCmd, .dir .dat .dirIn] ++ recvEvents bs ++ [.dir .dat .dirOut, .hold .tCmd]

/-- R50: the events of the frame of format K. -/
def keyEvents : List Event := sendEvents 0x0A12C2B2 32 ++ sendEvents 0 1

/-- R92: the events that release one pin. -/
def releaseEvents (p : Pin) : List Event := [.dir p .dirIn, .unclaim p]

end Sys2Proof.Machine
end

