-- ==== Sys2Proof/Safety.lean ====
section
/-! DEFINITION. What the claims call a good run: the provider serves the engine (spec/40_gpio_pins.md R67), no error and
no refusal is recorded (spec/60_exceptions.md R112), the entry invariant (spec/10_state.md R27) and the invariant of the
records (R15, R17, R21, R22). -/

namespace Sys2Proof.Machine

/-! ## Tables of pins -/

/-- The record of a pin in a table. -/
def PinTable.get (t : PinTable) : Pin → PinRec
  | .rst => t.rst
  | .clk => t.clk
  | .dat => t.dat

/-- The table with another record of a pin. -/
def PinTable.set (t : PinTable) (p : Pin) (r : PinRec) : PinTable :=
  match p with
  | .rst => { t with rst := r }
  | .clk => { t with clk := r }
  | .dat => { t with dat := r }

/-! ## The outside world -/

/-- R67: the provider performs the next `n` operations; `l` are the draws after them. -/
def Serves (s : State) (n : Nat) (l : List Bool) : Prop := s.env.fails = List.replicate n false ++ l

/-- R67: the provider performs the next `n` operations and fails the one after them; `l` are the draws after it. -/
def FailsAt (s : State) (n : Nat) (l : List Bool) : Prop := s.env.fails = List.replicate n false ++ true :: l

/-- R68: the next value reads present the bits; `r` are the contents after them. -/
def Presents (s : State) (bs : List Bit) (r : List (List Char)) : Prop := s.env.reads = bs.map bitContent ++ r

/-- R114: no interrupt request is pending, none arrives before the next `n` boundaries inside `VERIFY`, and one arrives
before the boundary after them; `r` are the arrivals after it. -/
def DisturbedAt (s : State) (n : Nat) (r : List Bool) : Prop :=
  s.irqPending = false ∧ s.env.irqs = List.replicate n false ++ true :: r

/-- R114: no interrupt request is pending, and none arrives before the next `n` boundaries inside `VERIFY`; `r` are the
arrivals after them. -/
def Undisturbed (s : State) (n : Nat) (r : List Bool) : Prop :=
  s.irqPending = false ∧ s.env.irqs = List.replicate n false ++ r

/-- The state in which the lines have seen further events, the pin records are `ps`, and the coming draws and read
contents are `fails` and `reads`; nothing else has changed. -/
def State.afterLines (s : State) (evs : List Event) (ps : PinTable) (fails : List Bool) (reads : List (List Char)) :
    State :=
  { s with trace := s.trace ++ evs, pins := ps, env := { s.env with fails := fails, reads := reads } }

/-- R112: what a claim about a run takes as premises. -/
def Clean (s : State) : Prop := s.err = none ∧ s.refused = false

/-- R27: a pin that is acquired and drives low. -/
def drivenLow : PinRec := { acquired := true, dir := .output, level := some false }

/-- R71: the preconditions of `SEND`. -/
def SendReady (s : State) : Prop :=
  s.pin .clk = drivenLow ∧ (s.pin .dat).acquired = true ∧ (s.pin .dat).dir = .output

/-- R27: the pins between invocations, once the key is sent. -/
def Entered (s : State) : Prop := s.pin .rst = drivenLow ∧ SendReady s

/-- R87: the session admits commands. -/
def Programming (s : State) : Prop := s.state = .lvpEntered ∨ s.state = .programmingMode

/-- R27, with what `ENTER_LVP` starts from: `RST` is held low from `RESET` on, and the pins are ready for commands from
`ENTER_LVP` on, as long as no error is recorded. -/
def EntryInv (s : State) : Prop :=
  s.err = none →
    (s.state = .reset → s.pin .rst = drivenLow) ∧ (Programming s → Entered s)

/-- R15, R65: a pin record that is one of those the rules write. -/
def PinRec.Sound (r : PinRec) : Prop :=
  (r.dir = .input → r.level = none) ∧ (r.acquired = false → r = PinRec.reset)

/-- R15, R17, R21, R22, D4: what the records of a session always satisfy. -/
structure RecordsInv (s : State) : Prop where
  snapWf : Memory.wf s.snap = true
  trackedOnce : s.tracked.Nodup
  acquiredTracked : ∀ p, (s.pin p).acquired = true → p ∈ s.tracked
  pinsSound : ∀ p, (s.pin p).Sound
  mismatchesReal : ∀ m ∈ s.mismatches, 1 ≤ m.pass ∧ m.expected ≠ m.observed
  pinsDistinct : s.cfg.pinsDistinct = true

/-! ## The events an operation is to emit -/

/-- R61: the events of the lazy acquire of a pin. -/
def claimEvents (s : State) (p : Pin) : List Event := if (s.pin p).acquired then [] else [.claim p]

/-- R61: the state after the lazy acquire of a pin has succeeded; an acquired pin stays as it is. -/
def State.claimed (s : State) (p : Pin) : State :=
  if (s.pin p).acquired then s
  else
    { s with
      trace := s.trace ++ [.claim p]
      pins := s.pins.set p { acquired := true, dir := .input, level := none }
      tracked := if p ∈ s.tracked then s.tracked else s.tracked ++ [p] }

/-- R66: the event that drives an acquired pin to a level. -/
def driveEvent (s : State) (p : Pin) (b : Bit) : Event :=
  if (s.pin p).dir = .input then .dir p (if b then .dirHigh else .dirLow) else .wr p b

/-- R89: the events of `RESET`. -/
def resetEvents (s : State) : List Event :=
  claimEvents s .rst ++ [driveEvent (s.claimed .rst) .rst false, .hold .tReset]

/-- R90: the events of `ENTER_LVP`. -/
def enterEvents (s : State) : List Event :=
  claimEvents s .clk ++ [driveEvent (s.claimed .clk) .clk false] ++ claimEvents s .dat ++ [.dir .dat .dirOut] ++
    keyEvents ++ [.hold .tEntry]

/-- R92: what `EXIT` attempts, in order: the drive of `RST`, then for every tracked pin that is acquired a `SETDIR in`
and a `RELEASE`. -/
def exitEvents (s : State) : List Event :=
  (if (s.pin .rst).acquired ∧ s.cfg.exitResetMode = .driveHigh then [driveEvent s .rst true] else []) ++
    s.tracked.flatMap (fun p => if (s.pin p).acquired then releaseEvents p else [])

/-- R71, R72, R76, R89, R90: the events of a transport, command or entry operation that succeeds, when the target
presents the bits; no event for the others. -/
def plannedEvents (s : State) (bs : List Bit) : Instr → List Event
  | .loadConfig d => writeEvents 0x00 d
  | .loadData d => writeEvents 0x02 d
  | .readData => readEvents bs
  | .incAddr => controlEvents 0x06 .tCmd
  | .resetAddr => controlEvents 0x16 .tCmd
  | .beginProg => controlEvents 0x08 .tProg
  | .bulkErase => controlEvents 0x09 .tBulk
  | .rowErase => controlEvents 0x11 .tRow
  | .lvpKey => keyEvents
  | .send v n => sendEvents v n
  | .recv _ => recvEvents bs
  | .reset => resetEvents s
  | .enterLvp => enterEvents s
  | .acquire _ => []
  | .setDir _ _ => []
  | .write _ _ => []
  | .read _ => []
  | .release _ => []
  | .ensureOutWrite _ _ => []
  | .reverse _ _ => []
  | .sessionNew _ => []
  | .exit => []
  | .verify _ => []
  | .interrupt => []

/-! ## Provider operations among the events (R11, R67) -/

/-- R11, R103: the provider operation that emits an event; a hold is none. -/
def Event.providerOp : Event → Option (Pin × ProviderOp)
  | .claim p => some (p, .claim)
  | .dir p _ => some (p, .direction)
  | .wr p _ => some (p, .value)
  | .rd p _ => some (p, .value)
  | .unclaim p => some (p, .unclaim)
  | .hold _ => none

/-- The provider operations of a list of events, in order. -/
def providerOps (es : List Event) : List (Pin × ProviderOp) := es.filterMap Event.providerOp

/-- R104: the error of the `j`-th provider operation, from 0. -/
def errorAt (j : Nat) (es : List Event) : Option OpError :=
  (providerOps es)[j]?.map (fun x => .hardwareUnavailable x.1 x.2)

/-- R111: the events before the `j`-th provider operation, from 0. -/
def eventsBefore : Nat → List Event → List Event
  | _, [] => []
  | j, e :: es =>
    match e.providerOp, j with
    | none, j => e :: eventsBefore j es
    | some _, 0 => []
    | some _, j + 1 => e :: eventsBefore j es

/-- R68: the bits of the value reads among the events, in order. -/
def readBits (es : List Event) : List Bit :=
  es.filterMap (fun e =>
    match e with
    | .rd _ b => some b
    | _ => none)

/-- The `j`-th provider operation, from 0, is a value read. -/
def IsRead (j : Nat) (es : List Event) : Prop :=
  ∃ p b, (es.filter (fun e => e.providerOp.isSome))[j]? = some (.rd p b)

/-- R67, R68: the `j`-th provider operation, from 0, of an invocation that is to emit `es` is the first that fails. The
provider fails it, or it is a value read whose content is no bit. The reads before it present their bits; `l` and `r` are
the draws and the contents after it. -/
def FirstFailure (s : State) (es : List Event) (j : Nat) (l : List Bool) (r : List (List Char)) : Prop :=
  (FailsAt s j l ∧ Presents s (readBits (eventsBefore j es)) r) ∨
    (IsRead j es ∧ Serves s (j + 1) l ∧
      ∃ t, t ≠ ['0', '\n'] ∧ t ≠ ['1', '\n'] ∧ Presents s (readBits (eventsBefore j es)) (t :: r))

/-- R61 to R65: the records of the pins after an event. -/
def PinTable.after (t : PinTable) : Event → PinTable
  | .claim p => t.set p { acquired := true, dir := .input, level := none }
  | .dir p d => t.set p ((t.get p).withDir d)
  | .wr p b => t.set p ((t.get p).withLevel b)
  | .rd _ _ => t
  | .unclaim p => t.set p PinRec.reset
  | .hold _ => t

/-- R17, R61: the tracked pins after an event. -/
def trackedAfter (ps : List Pin) : Event → List Pin
  | .claim p => if p ∈ ps then ps else ps ++ [p]
  | .dir _ _ => ps
  | .wr _ _ => ps
  | .rd _ _ => ps
  | .unclaim _ => ps
  | .hold _ => ps

/-- The state in which the events have happened, and the coming draws and contents are `l` and `r`; nothing else has
changed. -/
def State.afterEvents (s : State) (es : List Event) (l : List Bool) (r : List (List Char)) : State :=
  { s with
    trace := s.trace ++ es
    pins := es.foldl PinTable.after s.pins
    tracked := es.foldl trackedAfter s.tracked
    env := { s.env with fails := l, reads := r } }

/-- R92, R93: the events that happen when the provider's answers to the attempts are `fs`; `true` is a failure. -/
def eventsOf (es : List Event) (fs : List Bool) : List Event :=
  (es.zip fs).filterMap (fun x => if x.2 then none else some x.1)

/-- R93: the failures, in order, when the provider's answers to the attempts are `fs`. -/
def failuresOf (es : List Event) (fs : List Bool) : List (Pin × OpError) :=
  (es.zip fs).filterMap
    (fun x => if x.2 then x.1.providerOp.map (fun y => (y.1, .hardwareUnavailable y.1 y.2)) else none)

/-- R103: the provider operations that an invocation can make, and so the pins and operations its `HardwareUnavailable`
can name; those of a teardown are collected and not raised (R93). -/
def raisableOps : Instr → List (Pin × ProviderOp)
  | .loadConfig _ => [(.dat, .value), (.clk, .value)]
  | .loadData _ => [(.dat, .value), (.clk, .value)]
  | .readData => [(.dat, .value), (.clk, .value), (.dat, .direction)]
  | .incAddr => [(.dat, .value), (.clk, .value)]
  | .resetAddr => [(.dat, .value), (.clk, .value)]
  | .beginProg => [(.dat, .value), (.clk, .value)]
  | .bulkErase => [(.dat, .value), (.clk, .value)]
  | .rowErase => [(.dat, .value), (.clk, .value)]
  | .lvpKey => [(.dat, .value), (.clk, .value)]
  | .acquire p => [(p, .claim)]
  | .setDir p _ => [(p, .claim), (p, .direction)]
  | .write p _ => [(p, .claim), (p, .value)]
  | .read p => [(p, .claim), (p, .value)]
  | .release p => [(p, .unclaim)]
  | .ensureOutWrite p _ => [(p, .claim), (p, .direction), (p, .value)]
  | .reverse _ _ => []
  | .send _ _ => [(.dat, .value), (.clk, .value)]
  | .recv _ => [(.dat, .value), (.clk, .value)]
  | .sessionNew _ => []
  | .reset => [(.rst, .claim), (.rst, .direction), (.rst, .value)]
  | .enterLvp =>
    [(.clk, .claim), (.clk, .direction), (.clk, .value), (.dat, .claim), (.dat, .direction), (.dat, .value)]
  | .exit => []
  | .verify _ => [(.dat, .value), (.clk, .value), (.dat, .direction)]
  | .interrupt => []

/-! ## When an operation runs (R76, R77, R87) -/

/-- The eight commands of R51. -/
def isCommand : Instr → Bool
  | .loadConfig _ => true
  | .loadData _ => true
  | .readData => true
  | .incAddr => true
  | .resetAddr => true
  | .beginProg => true
  | .bulkErase => true
  | .rowErase => true
  | _ => false

/-- The table of R87 by operation. `SESSION_NEW` and `LVP_KEY` have no row there: the first is admitted everywhere
(log 17), the second as `SEND` is (log 6). -/
def admittedStates : Instr → List SessionState
  | .loadConfig _ => [.lvpEntered, .programmingMode]
  | .loadData _ => [.lvpEntered, .programmingMode]
  | .readData => [.lvpEntered, .programmingMode]
  | .incAddr => [.lvpEntered, .programmingMode]
  | .resetAddr => [.lvpEntered, .programmingMode]
  | .beginProg => [.lvpEntered, .programmingMode]
  | .bulkErase => [.lvpEntered, .programmingMode]
  | .rowErase => [.lvpEntered, .programmingMode]
  | .verify _ => [.lvpEntered, .programmingMode]
  | .reset => [.unpowered, .reset]
  | .enterLvp => [.reset]
  | .exit => [.unpowered, .reset, .lvpEntered, .programmingMode]
  | .acquire _ => [.unpowered, .reset, .lvpEntered, .programmingMode]
  | .setDir _ _ => [.unpowered, .reset, .lvpEntered, .programmingMode]
  | .write _ _ => [.unpowered, .reset, .lvpEntered, .programmingMode]
  | .read _ => [.unpowered, .reset, .lvpEntered, .programmingMode]
  | .release _ => [.unpowered, .reset, .lvpEntered, .programmingMode]
  | .ensureOutWrite _ _ => [.unpowered, .reset, .lvpEntered, .programmingMode]
  | .send _ _ => [.unpowered, .reset, .lvpEntered, .programmingMode]
  | .recv _ => [.unpowered, .reset, .lvpEntered, .programmingMode]
  | .interrupt => [.unpowered, .reset, .lvpEntered, .programmingMode]
  | .lvpKey => [.unpowered, .reset, .lvpEntered, .programmingMode]
  | .reverse _ _ => [.unpowered, .reset, .lvpEntered, .programmingMode, .exited]
  | .sessionNew _ => [.unpowered, .reset, .lvpEntered, .programmingMode, .exited]

/-- R71, R72, R76: the pins are as the operation asks, and the target has the bits it is to receive. -/
def PinsReady (s : State) (bs : List Bit) : Instr → Prop
  | .recv n => s.pin .clk = drivenLow ∧ (s.pin .dat).acquired = true ∧ (s.pin .dat).dir = .input ∧ bs.length = n
  | .readData => SendReady s ∧ bs.length = 16
  | .reset => True
  | .enterLvp => True
  | _ => SendReady s

/-- R67, R75, R86, R111: wherever an invocation that is to emit `es` meets its first failure, every event before the
failing operation has happened and none after it, the pins are as those events leave them, and the abort path is taken
with that operation's error, from the session state `st`; nothing else has changed. -/
def FailsPrecisely (i : Instr) (s : State) (es : List Event) (st : SessionState) : Prop :=
  ∀ (j : Nat) (e : OpError) (l : List Bool) (r : List (List Char)), errorAt j es = some e →
    FirstFailure s es j l r →
    exec i s = .next (abort e { s.afterEvents (eventsBefore j es) l r with state := st })

/-- R108: the operations that send on the lines from pins they do not set up themselves. -/
def Sends (i : Instr) : Prop :=
  isCommand i = true ∨ i = .lvpKey ∨ (∃ v n, i = .send v n) ∨ ∃ n, i = .verify n

/-- R77, R71, R86: how a command that is to emit `es` ends where it does not succeed: refused outside the programming
states, a precondition fault of its first `SEND`, or a failure of one of its provider operations. -/
def CommandStops (i : Instr) (s : State) (es : List Event) : Prop :=
  (¬Programming s →
    exec i s = .next { s with refused := true, results := s.results ++ [.refused .stateNotAdmitted] }) ∧
  (Programming s → s.pin .clk ≠ drivenLow →
    exec i s = .next
      (abort (.preconditionViolation .clk .sendClockNotLowOutput) { s with state := .programmingMode })) ∧
  (Programming s → s.pin .clk = drivenLow → ¬((s.pin .dat).acquired = true ∧ (s.pin .dat).dir = .output) →
    exec i s = .next
      (abort (.preconditionViolation .dat .sendDataNotOutput) { s with state := .programmingMode })) ∧
  (Programming s → SendReady s → FailsPrecisely i s es .programmingMode)

/-! ## The run of `VERIFY` (R97, R98, R99) -/

/-- The commands `VERIFY` issues; a read carries its pass and its word index. -/
inductive VerifyStep where
  | load
  | read (i k : Nat)
  | inc
  | reset
deriving DecidableEq, Repr

/-- R97: the commands of `VERIFY n` over `c` words, in order. -/
def verifySteps (n c : Nat) : List VerifyStep :=
  (List.range n).flatMap
    (fun i => [.load] ++ (List.range c).flatMap (fun k => [.read i k, .inc]) ++ [.reset])

/-- R97: the events of one command; `B i k` are the bits the target presents in pass `i` for word `k`. -/
def VerifyStep.events (B : Nat → Nat → List Bit) : VerifyStep → List Event
  | .load => writeEvents 0x00 0
  | .read i k => readEvents (B i k)
  | .inc => controlEvents 0x06 .tCmd
  | .reset => controlEvents 0x16 .tCmd

/-- R53, R102 `W[i][k]`: the word read in pass `i` for word `k`. -/
def wordRead (B : Nat → Nat → List Bit) (i k : Nat) : Word := readWordOf (valueOf (B i k))

/-- R99: the report of one command. -/
def VerifyStep.reports (base : Nat) (B : Nat → Nat → List Bit) : VerifyStep → List Mismatch
  | .read i k =>
    if i = 0 ∨ wordRead B i k = wordRead B 0 k then [] else [⟨i, base + k, wordRead B 0 k, wordRead B i k⟩]
  | .load => []
  | .inc => []
  | .reset => []

/-- R98: the snapshot after some commands: the word of every address that pass 0 has read, and no other. -/
def SnapOf (m : Memory) (base : Nat) (B : Nat → Nat → List Bit) (steps : List VerifyStep) : Prop :=
  ∀ a w, Memory.read m a = some w ↔ ∃ k, VerifyStep.read 0 k ∈ steps ∧ a = base + k ∧ w = wordRead B 0 k

/-- R97: the events of some commands of `VERIFY`. -/
def verifyEvents (B : Nat → Nat → List Bit) (steps : List VerifyStep) : List Event :=
  steps.flatMap (VerifyStep.events B)

/-- R99: the reports of some commands of `VERIFY`. -/
def verifyReports (base : Nat) (B : Nat → Nat → List Bit) (steps : List VerifyStep) : List Mismatch :=
  steps.flatMap (VerifyStep.reports base B)

/-- R96, R97: a `VERIFY` that is admitted, with the pins ready; `B i k` are the 16 bits the target has for word `k` of
pass `i`. -/
structure VerifyRun (s : State) (B : Nat → Nat → List Bit) : Prop where
  programming : Programming s
  ready : SendReady s
  width : ∀ i k, (B i k).length = 16

/-- R67, R68, R114: the provider performs a whole run of `VERIFY n`, the target presents its bits, and no request
interrupts it; `l`, `r` and `q` are the inputs after it. -/
structure VerifyServed (s : State) (n : Nat) (B : Nat → Nat → List Bit) (l : List Bool) (r : List (List Char))
    (q : List Bool) : Prop where
  serves : Serves s (providerOps (verifyEvents B (verifySteps n s.cfg.verifyCount))).length l
  presents : Presents s (readBits (verifyEvents B (verifySteps n s.cfg.verifyCount))) r
  undisturbed : Undisturbed s ((verifySteps n s.cfg.verifyCount).length - 1) q

/-- R101: the state in which some commands of a `VERIFY` have ended whole, the events `es` have happened, and the abort
path is about to be taken. -/
def State.inVerify (s : State) (B : Nat → Nat → List Bit) (steps : List VerifyStep) (m : Memory) (es : List Event)
    (l : List Bool) (r : List (List Char)) (q : List Bool) : State :=
  { s with
    state := .programmingMode
    snap := m
    mismatches := verifyReports s.cfg.verifyBase B steps
    trace := s.trace ++ es
    pins := es.foldl PinTable.after s.pins
    env := { s.env with fails := l, reads := r, irqs := q } }

end Sys2Proof.Machine
end

