-- ==== Sys2Proof/Certificates/Slice0/Obligations.lean ====
section
/-! DEFINITION. The statements for the provers. In each, the provider's answers, the contents of value reads and the
arrivals of interrupt requests are premises on the lists of `s.env` (log 3), and results are the list `s.results`
(log 7). -/

open Sys2Proof Sys2Proof.Machine

/-! ## Encoding -/

/-- R46 to R51: words written out from the tables, one or more of each format. The last two clauses number a word's bits
as spec/opcode_table.json does, and that bit 0 is the first on the wire is the model's choice (log 5). -/
def Obligations.OpcodeWordsDecode : Prop :=
  decodeFrame [false, false, false, false, false, false, false, false, false, false, false, false, false, false, false,
    false, false, false, false, false, false, false] = .ok (.loadConfig 0) ∧
  decodeFrame [false, true, false, false, false, false, false, true, true, true, true, true, true, true, true, true,
    true, true, true, true, true, false] = .ok (.loadData 0x3FFF) ∧
  decodeFrame ([false, false, true, false, false, false] ++ List.replicate 16 true) = .ok .readData ∧
  decodeFrame [false, true, true, false, false, false] = .ok .incAddr ∧
  decodeFrame [false, true, true, false, true, false] = .ok .resetAddr ∧
  decodeFrame [false, false, false, true, false, false] = .ok .beginProg ∧
  decodeFrame [true, false, false, true, false, false] = .ok .bulkErase ∧
  decodeFrame [true, false, false, false, true, false] = .ok .rowErase ∧
  decodeTableWord 32 0x0A12C2B2 = some .lvpKey ∧
  decodeTableWord 24 0x1FFF82 = some (.loadData 0x3FFF)

/-- R46 to R54: the frame of every well-formed operation that has one is decoded to that operation, as bits in wire
order and as a word numbered as spec/opcode_table.json numbers it (the numbering is log 5). -/
def Obligations.FrameRoundTrip : Prop :=
  ∀ i : Instr, i.wf = true → wireFrame i ≠ [] →
    decodeFrame (encodeFrame i) = .ok i ∧
    decodeTableWord (encodeFrame i).length (valueOf (encodeFrame i)) = some i

/-- R58, R59: every operation that the line syntax can write is decoded from its line, at every value of its operands.
The syntax writes no `SESSION_NEW`, no `LVP_KEY`, no negative value and no direction but the four (log 16). -/
def Obligations.LineRoundTrip : Prop :=
  ∀ i : Instr, i ≠ .lvpKey → (∀ c, i ≠ .sessionNew c) → (∀ p v, i = .write p v → 0 ≤ v) →
    (∀ p d, i = .setDir p d → d.inRange = true) →
    ∃ t, encodeLine i = some t ∧ decodeLine t = .ok i

/-- R51, R55: a frame other than the key whose opcode is none of the eight is rejected, whatever follows the opcode, and
56 of the 64 codes are such. -/
def Obligations.UndefinedOpcodesRejected : Prop :=
  (∀ bits : List Bit, bits ≠ keyFrame → 6 ≤ bits.length →
    valueOf (bits.take 6) ∉ [0x00, 0x02, 0x04, 0x06, 0x16, 0x08, 0x09, 0x11] →
    decodeFrame bits = .error (.undefinedOpcode (valueOf (bits.take 6)))) ∧
  ((List.range 64).filter (fun op => (rowOfOpcode op).isNone)).length = 56

/-! ## The step -/

/-- A step runs the operation the host's first request decodes to, with the request taken from the queue; a request
that is no operation is refused with the mark of R110 and a result that names why, and an idle engine stays as it is
(log 4, log 10). -/
def Obligations.StepRunsDecodedInstruction : Prop :=
  ∀ s : State, s.irqPending = false →
    (s.host = [] → step s = .next s) ∧
    (∀ r rest, s.host = r :: rest →
      (∀ i, r.decode = .ok i → step s = exec i { s with host := rest }) ∧
      (∀ e, r.decode = .error e →
        step s = .next
          { s with host := rest, refused := true, results := s.results ++ [.refused (.noOperation e)] }))

/-- spec/93 ("No state of the engine is `stuck`"), R110, R111, R135: no step stops the machine, from any state. -/
def Obligations.EveryStepGoesOn : Prop := ∀ s : State, ∃ t, step s = .next t

/-- R114: a pending request is taken at the boundary before the host's next operation, which stays in the queue
(log 11, log 12). -/
def Obligations.StepTakesPendingInterrupt : Prop :=
  ∀ s : State, s.irqPending = true →
    step s = exec .interrupt { s with irqPending := false } ∧ core.step s = step s

/-- The word placed by `withFetchWord` is what the next step runs (log 4, log 5). -/
def Obligations.PlacedWordRunsNext : Prop :=
  ∀ (s : State) (nbits w : Nat) (i : Instr), decodeTableWord nbits w = some i →
    step (s.withFetchWord nbits w) = exec i { s with irqPending := false }

/-! ## Reset and session creation -/

/-- R123: the state after reset; the argument of `SESSION_NEW` in it is the model's choice (log 2). -/
def Obligations.ResetStateFields : Prop :=
  core.reset = State.reset ∧ State.reset.state = .unpowered ∧
  (∀ p, State.reset.pin p = { acquired := false, dir := .input, level := none }) ∧
  State.reset.tracked = [] ∧ State.reset.snap = [] ∧ State.reset.mismatches = [] ∧ State.reset.trace = [] ∧
  State.reset.err = none ∧ State.reset.refused = false ∧ State.reset.irqPending = false

/-- R88: `SESSION_NEW` from any state. That it is admitted in every state, `Exited` too, and keeps the results already
given is the model's choice (log 17). -/
def Obligations.SessionNewStartsASession : Prop :=
  ∀ (c : SessionConfig) (s : State),
    (c.pinReset ≠ c.pinClock ∧ c.pinReset ≠ c.pinData ∧ c.pinClock ≠ c.pinData →
      ∃ t, exec (.sessionNew c) s = .next t ∧ t.state = .unpowered ∧ t.cfg = c ∧
        (∀ p, t.pin p = { acquired := false, dir := .input, level := none }) ∧ t.tracked = [] ∧ t.snap = [] ∧
        t.mismatches = [] ∧ t.err = none ∧ t.refused = false ∧ t.trace = [] ∧
        t.results = s.results ++ [.ok .unit]) ∧
    (c.pinReset = c.pinClock ∨ c.pinReset = c.pinData ∨ c.pinClock = c.pinData →
      exec (.sessionNew c) s =
        .next { s with refused := true, results := s.results ++ [.refused .pinsNotDistinct] })

/-! ## Pin primitives -/

/-- R61: `ACQUIRE p` in every live state. -/
def Obligations.AcquireClaimsThePin : Prop :=
  ∀ (p : Pin) (s : State) (l : List Bool), s.state ≠ .exited →
    ((s.pin p).acquired = true →
      exec (.acquire p) s = .next { s with results := s.results ++ [.ok .unit] }) ∧
    ((s.pin p).acquired = false → Serves s 1 l →
      exec (.acquire p) s = .next
        { s with
          trace := s.trace ++ [.claim p]
          pins := s.pins.set p { acquired := true, dir := .input, level := none }
          tracked := if p ∈ s.tracked then s.tracked else s.tracked ++ [p]
          env := { s.env with fails := l }
          results := s.results ++ [.ok .unit] }) ∧
    ((s.pin p).acquired = false → FailsAt s 0 l →
      exec (.acquire p) s = .next (abort (.hardwareUnavailable p .claim) { s with env := { s.env with fails := l } }))

/-- R62: `SETDIR p d` in every live state; another word than the four is refused in every state. -/
def Obligations.SetDirSetsTheRecord : Prop :=
  ∀ (p : Pin) (s : State) (l : List Bool),
    (s.state ≠ .exited → ∀ d : DirWord,
      (Serves s ((claimEvents s p).length + 1) l →
        exec (.setDir p (.word d)) s = .next
          { s.claimed p with
            trace := (s.claimed p).trace ++ [.dir p d]
            pins := (s.claimed p).pins.set p
              (match d with
              | .dirIn => { acquired := true, dir := .input, level := none }
              | .dirOut => { acquired := true, dir := .output, level := none }
              | .dirLow => { acquired := true, dir := .output, level := some false }
              | .dirHigh => { acquired := true, dir := .output, level := some true })
            env := { s.env with fails := l }
            results := s.results ++ [.ok .unit] }) ∧
      ((s.pin p).acquired = false → FailsAt s 0 l →
        exec (.setDir p (.word d)) s =
          .next (abort (.hardwareUnavailable p .claim) { s with env := { s.env with fails := l } })) ∧
      (FailsAt s (claimEvents s p).length l →
        exec (.setDir p (.word d)) s =
          .next (abort (.hardwareUnavailable p .direction) { s.claimed p with env := { s.env with fails := l } }))) ∧
    (∀ text : List Char, exec (.setDir p (.other text)) s =
      .next { s with refused := true, results := s.results ++ [.refused .directionNotAdmitted] })

/-- R63: `WRITE p v` in every live state, with its errors in order. -/
def Obligations.WriteDrivesTheLevel : Prop :=
  ∀ (p : Pin) (v : Int) (s : State) (l : List Bool), s.state ≠ .exited →
    ((s.pin p).acquired = false → FailsAt s 0 l →
      exec (.write p v) s =
        .next (abort (.hardwareUnavailable p .claim) { s with env := { s.env with fails := l } })) ∧
    (v ≠ 0 → v ≠ 1 → Serves s (claimEvents s p).length l →
      exec (.write p v) s =
        .next (abort (.invalidPinValue v) { s.claimed p with env := { s.env with fails := l } })) ∧
    (v = 0 ∨ v = 1 → ((s.claimed p).pin p).dir = .input → Serves s (claimEvents s p).length l →
      exec (.write p v) s =
        .next (abort (.preconditionViolation p .writeToInput) { s.claimed p with env := { s.env with fails := l } })) ∧
    (∀ b : Bit, v = (if b then 1 else 0) → ((s.claimed p).pin p).dir = .output →
      (FailsAt s (claimEvents s p).length l →
        exec (.write p v) s =
          .next (abort (.hardwareUnavailable p .value) { s.claimed p with env := { s.env with fails := l } })) ∧
      (Serves s ((claimEvents s p).length + 1) l →
        exec (.write p v) s = .next
          { s.claimed p with
            trace := (s.claimed p).trace ++ [.wr p b]
            pins := (s.claimed p).pins.set p { acquired := true, dir := .output, level := some b }
            env := { s.env with fails := l }
            results := s.results ++ [.ok .unit] }))

/-- R64, R68: `READ p` in every live state; the target presents `b`, or the value file holds something else. -/
def Obligations.ReadSamplesTheLine : Prop :=
  ∀ (p : Pin) (s : State) (l : List Bool), s.state ≠ .exited →
    ((s.pin p).acquired = false → FailsAt s 0 l →
      exec (.read p) s =
        .next (abort (.hardwareUnavailable p .claim) { s with env := { s.env with fails := l } })) ∧
    (((s.claimed p).pin p).dir = .output → Serves s (claimEvents s p).length l →
      exec (.read p) s =
        .next (abort (.preconditionViolation p .readOfOutput) { s.claimed p with env := { s.env with fails := l } })) ∧
    (((s.claimed p).pin p).dir = .input → FailsAt s (claimEvents s p).length l →
      exec (.read p) s =
        .next (abort (.hardwareUnavailable p .value) { s.claimed p with env := { s.env with fails := l } })) ∧
    (((s.claimed p).pin p).dir = .input → Serves s ((claimEvents s p).length + 1) l →
      (∀ (b : Bit) (r : List (List Char)), s.env.reads = (if b then ['1', '\n'] else ['0', '\n']) :: r →
        exec (.read p) s = .next
          { s.claimed p with
            trace := (s.claimed p).trace ++ [.rd p b]
            env := { s.env with fails := l, reads := r }
            results := s.results ++ [.ok (.bit b)] }) ∧
      (∀ (t : List Char) (r : List (List Char)), s.env.reads = t :: r → t ≠ ['0', '\n'] → t ≠ ['1', '\n'] →
        exec (.read p) s =
          .next (abort (.hardwareUnavailable p .value)
            { s.claimed p with env := { s.env with fails := l, reads := r } })))

/-- R65: `RELEASE p` in every live state. -/
def Obligations.ReleaseReturnsThePin : Prop :=
  ∀ (p : Pin) (s : State) (l : List Bool), s.state ≠ .exited →
    ((s.pin p).acquired = false →
      exec (.release p) s = .next { s with results := s.results ++ [.ok .unit] }) ∧
    ((s.pin p).acquired = true → Serves s 1 l →
      exec (.release p) s = .next
        { s with
          trace := s.trace ++ [.unclaim p]
          pins := s.pins.set p { acquired := false, dir := .input, level := none }
          env := { s.env with fails := l }
          results := s.results ++ [.ok .unit] }) ∧
    ((s.pin p).acquired = true → FailsAt s 0 l →
      exec (.release p) s =
        .next (abort (.hardwareUnavailable p .unclaim) { s with env := { s.env with fails := l } }))

/-- R66: `ENSURE_OUT_WRITE p b` in every live state. -/
def Obligations.EnsureOutWriteDrives : Prop :=
  ∀ (p : Pin) (b : Bit) (s : State) (l : List Bool), s.state ≠ .exited →
    (Serves s ((claimEvents s p).length + 1) l →
      exec (.ensureOutWrite p b) s = .next
        { s.claimed p with
          trace := (s.claimed p).trace ++
            [if ((s.claimed p).pin p).dir = .input then .dir p (if b then .dirHigh else .dirLow) else .wr p b]
          pins := (s.claimed p).pins.set p { acquired := true, dir := .output, level := some b }
          env := { s.env with fails := l }
          results := s.results ++ [.ok .unit] }) ∧
    ((s.pin p).acquired = false → FailsAt s 0 l →
      exec (.ensureOutWrite p b) s =
        .next (abort (.hardwareUnavailable p .claim) { s with env := { s.env with fails := l } })) ∧
    (FailsAt s (claimEvents s p).length l →
      exec (.ensureOutWrite p b) s =
        .next (abort
          (.hardwareUnavailable p (if ((s.claimed p).pin p).dir = .input then .direction else .value))
          { s.claimed p with env := { s.env with fails := l } }))

/-! ## Bit transport -/

/-- R70: `REVERSE v n` in every state, and that it is an involution. -/
def Obligations.ReverseIsBitReversal : Prop :=
  ∀ (v n : Nat) (s : State),
    (v < 2 ^ n →
      ∃ x, exec (.reverse v n) s = .next { s with results := s.results ++ [.ok (.nat x)] } ∧ x < 2 ^ n ∧
        (∀ i, i < n → x.testBit (n - 1 - i) = v.testBit i) ∧
        exec (.reverse x n) s = .next { s with results := s.results ++ [.ok (.nat v)] }) ∧
    (2 ^ n ≤ v →
      exec (.reverse v n) s =
        .next { s with refused := true, results := s.results ++ [.refused .reverseOperandTooWide] })

/-- R71: `SEND v n` in every live state: its preconditions, its effect when the provider performs it, and a failure of
any of its provider operations. -/
def Obligations.SendLowestBitFirst : Prop :=
  ∀ (v n : Nat) (s : State) (l : List Bool), s.state ≠ .exited →
    (s.pin .clk ≠ { acquired := true, dir := .output, level := some false } →
      exec (.send v n) s = .next (abort (.preconditionViolation .clk .sendClockNotLowOutput) s)) ∧
    (s.pin .clk = { acquired := true, dir := .output, level := some false } →
      ¬((s.pin .dat).acquired = true ∧ (s.pin .dat).dir = .output) →
      exec (.send v n) s = .next (abort (.preconditionViolation .dat .sendDataNotOutput) s)) ∧
    (s.pin .clk = { acquired := true, dir := .output, level := some false } →
      (s.pin .dat).acquired = true → (s.pin .dat).dir = .output → Serves s (3 * n) l →
      exec (.send v n) s = .next
        { s with
          trace := s.trace ++ (List.range n).flatMap (fun k =>
            [.wr .dat (v.testBit k), .wr .clk true, .hold .tHalf, .wr .clk false, .hold .tHalf])
          pins := { s.pins with
            dat := { s.pins.dat with level := if n = 0 then s.pins.dat.level else some (v.testBit (n - 1)) } }
          env := { s.env with fails := l }
          results := s.results ++ [.ok .unit] }) ∧
    (s.pin .clk = { acquired := true, dir := .output, level := some false } →
      (s.pin .dat).acquired = true → (s.pin .dat).dir = .output →
      FailsPrecisely (.send v n) s (sendEvents v n) s.state)

/-- R72: `RECV n` in every live state: its preconditions, its effect when the provider performs it and the target
presents the bits, and a failure of any of its provider operations. -/
def Obligations.RecvLowestBitFirst : Prop :=
  ∀ (n : Nat) (s : State) (l : List Bool), s.state ≠ .exited →
    (s.pin .clk ≠ { acquired := true, dir := .output, level := some false } →
      exec (.recv n) s = .next (abort (.preconditionViolation .clk .recvClockNotLowOutput) s)) ∧
    (s.pin .clk = { acquired := true, dir := .output, level := some false } →
      ¬((s.pin .dat).acquired = true ∧ (s.pin .dat).dir = .input) →
      exec (.recv n) s = .next (abort (.preconditionViolation .dat .recvDataNotInput) s)) ∧
    (s.pin .clk = { acquired := true, dir := .output, level := some false } →
      (s.pin .dat).acquired = true → (s.pin .dat).dir = .input →
      ∀ (bs : List Bit) (r : List (List Char)), bs.length = n →
      (Serves s (3 * n) l → Presents s bs r →
        ∃ x, x < 2 ^ n ∧ (∀ j, j < n → x.testBit j = bs[j]?.getD false) ∧
          exec (.recv n) s = .next
            { s with
              trace := s.trace ++ bs.flatMap (fun b =>
                [.wr .clk true, .hold .tHalf, .rd .dat b, .wr .clk false, .hold .tHalf])
              env := { s.env with fails := l, reads := r }
              results := s.results ++ [.ok (.nat x)] }) ∧
      FailsPrecisely (.recv n) s (recvEvents bs) s.state)

/-- spec/95_test_vectors.md L1.3, from R71 to R73: against a target that mirrors the data line at each falling edge, what
is received is the low `n` bits of what was sent. -/
def Obligations.LoopbackIdentity : Prop :=
  ∀ (v n : Nat) (s : State) (l : List Bool) (bs : List Bit) (r : List (List Char)),
    s.state ≠ .exited → SendReady s → Serves s (3 * n + 1 + 3 * n) l → Presents s bs r →
    wireBits (some false) (s.pin .dat).level (sendEvents v n) = bs.map some →
    ∃ t u w, exec (.send v n) s = .next t ∧ exec (.setDir .dat (.word .dirIn)) t = .next u ∧
      exec (.recv n) u = .next w ∧ w.results = u.results ++ [.ok (.nat (v % 2 ^ n))] ∧
      ∃ evs, w.trace = s.trace ++ evs ∧ evs.length = 10 * n + 1

/-! ## Commands -/

/-- R81 to R85: the commands of format C, in every state. -/
def Obligations.ControlCommandsSendTheirOpcode : Prop :=
  ∀ (i : Instr) (op : Nat) (settle : Delay) (s : State) (l : List Bool),
    (i, op, settle) ∈ [(Instr.incAddr, 0x06, Delay.tCmd), (.resetAddr, 0x16, .tCmd), (.beginProg, 0x08, .tProg),
      (.bulkErase, 0x09, .tBulk), (.rowErase, 0x11, .tRow)] →
    (Programming s → SendReady s → Serves s 18 l →
      exec i s = .next
        { s with
          state := .programmingMode
          trace := s.trace ++ sendEvents op 6 ++ [.hold settle]
          pins := { s.pins with dat := { s.pins.dat with level := some false } }
          env := { s.env with fails := l }
          results := s.results ++ [.ok .unit] }) ∧
    CommandStops i s (sendEvents op 6 ++ [.hold settle])

/-- R78, R79, R52: the commands of format W, in every state and for every operand. -/
def Obligations.WriteCommandsSendTheWord : Prop :=
  ∀ (i : Instr) (op d : Nat) (s : State) (l : List Bool),
    (i, op) ∈ [(Instr.loadConfig d, 0x00), (.loadData d, 0x02)] →
    (2 ^ 14 ≤ d → exec i s = .next { s with refused := true, results := s.results ++ [.refused .dataTooWide] }) ∧
    (d < 2 ^ 14 →
      (Programming s → SendReady s → Serves s 66 l →
        exec i s = .next
          { s with
            state := .programmingMode
            trace := s.trace ++ sendEvents op 6 ++ [.hold .tCmd] ++ sendEvents (2 * d) 16 ++ [.hold .tCmd]
            pins := { s.pins with dat := { s.pins.dat with level := some false } }
            env := { s.env with fails := l }
            results := s.results ++ [.ok .unit] }) ∧
      CommandStops i s (sendEvents op 6 ++ [.hold .tCmd] ++ sendEvents (2 * d) 16 ++ [.hold .tCmd]))

/-- R80, R53: `READ_DATA` in every state, when the target presents 16 bits; a failure after `SETDIR DAT in` leaves `DAT`
an input. -/
def Obligations.ReadDataReturnsTheWord : Prop :=
  ∀ (s : State) (bs : List Bit) (l : List Bool) (r : List (List Char)),
    bs.length = 16 →
    (Programming s → SendReady s → Serves s 68 l → Presents s bs r →
      ∃ w : Word, (∀ j, j < 14 → w.getLsbD j = bs[j + 1]?.getD false) ∧
        exec .readData s = .next
          { s with
            state := .programmingMode
            trace := s.trace ++ sendEvents 0x04 6 ++ [.hold .tCmd, .dir .dat .dirIn] ++ recvEvents bs ++
              [.dir .dat .dirOut, .hold .tCmd]
            pins := { s.pins with dat := { acquired := true, dir := .output, level := none } }
            env := { s.env with fails := l, reads := r }
            results := s.results ++ [.ok (.word w)] }) ∧
    CommandStops .readData s (readEvents bs) ∧
    (∀ j, Programming s → SendReady s → 19 ≤ j → j < 68 → FirstFailure s (readEvents bs) j l r →
      ∃ e u, exec .readData s = .next (abort e u) ∧
        u.pin .dat = { acquired := true, dir := .input, level := none })

/-- R50, R71, as an invocation of its own by the model's choice, admitted as `SEND` is (log 6): in every state, with the
preconditions of its first `SEND` and a failure of any of its provider operations. -/
def Obligations.KeyFrameSendsThirtyThreeBits : Prop :=
  ∀ (s : State) (l : List Bool),
    (s.state = .exited →
      exec .lvpKey s = .next { s with refused := true, results := s.results ++ [.refused .stateNotAdmitted] }) ∧
    (s.state ≠ .exited → s.pin .clk ≠ drivenLow →
      exec .lvpKey s = .next (abort (.preconditionViolation .clk .sendClockNotLowOutput) s)) ∧
    (s.state ≠ .exited → s.pin .clk = drivenLow → ¬((s.pin .dat).acquired = true ∧ (s.pin .dat).dir = .output) →
      exec .lvpKey s = .next (abort (.preconditionViolation .dat .sendDataNotOutput) s)) ∧
    (s.state ≠ .exited → SendReady s → Serves s 99 l →
      exec .lvpKey s = .next
        { s with
          trace := s.trace ++ sendEvents 0x0A12C2B2 32 ++ sendEvents 0 1
          pins := { s.pins with dat := { s.pins.dat with level := some false } }
          env := { s.env with fails := l }
          results := s.results ++ [.ok .unit] }) ∧
    (s.state ≠ .exited → SendReady s → FailsPrecisely .lvpKey s keyEvents s.state)

/-- R51, R33, R49: on the wire, every command is its frame: the engine's bits lowest first, and the target's where the
target drives. -/
def Obligations.CommandWireBits : Prop :=
  ∀ (i : Instr) (s : State) (bs : List Bit) (l : List Bool) (r : List (List Char)),
    isCommand i = true → i.wf = true → Programming s → SendReady s → bs.length = 16 →
    Serves s (providerOps (plannedEvents s bs i)).length l → Presents s bs r →
    ∃ t evs, exec i s = .next t ∧ t.trace = s.trace ++ evs ∧
      wireBits (some false) (s.pin .dat).level evs = wireFrame i

/-! ## Session operations -/

/-- R89: `RESET` in both states that admit it, with a failure of any of its provider operations, and in the others. -/
def Obligations.ResetDrivesResetLow : Prop :=
  ∀ (s : State) (l : List Bool),
    (s.state = .unpowered ∨ s.state = .reset →
      (Serves s ((claimEvents s .rst).length + 1) l →
        exec .reset s = .next
          { s.claimed .rst with
            state := .reset
            trace := s.trace ++ claimEvents s .rst ++
              [if ((s.claimed .rst).pin .rst).dir = .input then .dir .rst .dirLow else .wr .rst false, .hold .tReset]
            pins := s.pins.set .rst { acquired := true, dir := .output, level := some false }
            env := { s.env with fails := l }
            results := s.results ++ [.ok .unit] }) ∧
      FailsPrecisely .reset s (resetEvents s) s.state) ∧
    (s.state ≠ .unpowered → s.state ≠ .reset →
      exec .reset s = .next { s with refused := true, results := s.results ++ [.refused .stateNotAdmitted] })

/-- R90: `ENTER_LVP` whatever the pins were before, with a failure of any of its provider operations, and in the states
that do not admit it. -/
def Obligations.EnterLvpSendsTheKey : Prop :=
  ∀ (s : State) (l : List Bool),
    (s.state = .reset →
      (Serves s ((claimEvents s .clk).length + (claimEvents s .dat).length + 101) l →
        exec .enterLvp s = .next
          { (s.claimed .clk).claimed .dat with
            state := .lvpEntered
            trace := s.trace ++ claimEvents s .clk ++
              [if ((s.claimed .clk).pin .clk).dir = .input then .dir .clk .dirLow else .wr .clk false] ++
              claimEvents s .dat ++ [.dir .dat .dirOut] ++ sendEvents 0x0A12C2B2 32 ++ sendEvents 0 1 ++
              [.hold .tEntry]
            pins :=
              { rst := s.pins.rst
                clk := { acquired := true, dir := .output, level := some false }
                dat := { acquired := true, dir := .output, level := some false } }
            env := { s.env with fails := l }
            results := s.results ++ [.ok .unit] }) ∧
      FailsPrecisely .enterLvp s (enterEvents s) .reset) ∧
    (s.state ≠ .reset →
      exec .enterLvp s = .next { s with refused := true, results := s.results ++ [.refused .stateNotAdmitted] })

/-- R50, R34, spec/95_test_vectors.md L1.4: `ENTER_LVP` puts exactly 33 bits on the wire, the key most significant bit
first and one 0, when the clock was an input or driven low. A clock that was an output driving `b`, where a level of `⊥`
is any `b` (R18), gives one more falling edge before them if `b` is 1. What a falling edge is, is log 22. -/
def Obligations.EntryWireBits : Prop :=
  ∀ (s : State) (l : List Bool), s.state = .reset → (s.pin .clk).Sound →
    Serves s (providerOps (enterEvents s)).length l →
    ∃ t evs, exec .enterLvp s = .next t ∧ t.trace = s.trace ++ evs ∧
      ((s.pin .clk).dir = .input ∨ (s.pin .clk).level = some false →
        wireBits (s.pin .clk).level (s.pin .dat).level evs =
          (List.range 32).map (fun j => some ((0x4D434850 : Nat).testBit (31 - j))) ++ [some false]) ∧
      (∀ b : Bit, (s.pin .clk).dir = .output → (s.pin .clk).level = none ∨ (s.pin .clk).level = some b →
        wireBits (some b) (s.pin .dat).level evs =
          (if b then [(s.pin .dat).level] else []) ++
            (List.range 32).map (fun j => some ((0x4D434850 : Nat).testBit (31 - j))) ++ [some false])

/-- R124, R18, R123: a whole session, from any state in which the provider performs it: the condition of every line after
each of the steps, and that no error is recorded. The condition is the view of log 19. -/
def Obligations.SessionDrivesTheLines : Prop :=
  ∀ (c : SessionConfig) (s : State) (l : List Bool),
    c.pinReset ≠ c.pinClock ∧ c.pinReset ≠ c.pinData ∧ c.pinClock ≠ c.pinData →
    Serves s (111 + if c.exitResetMode = .driveHigh then 1 else 0) l →
    ∃ s₁ s₂ s₃ s₄, exec (.sessionNew c) s = .next s₁ ∧ exec .reset s₁ = .next s₂ ∧ exec .enterLvp s₂ = .next s₃ ∧
      exec .exit s₃ = .next s₄ ∧ (∀ p, s₁.condition p = .unknown) ∧
      s₂.condition .rst = .driven false ∧ s₂.condition .clk = .unknown ∧ s₂.condition .dat = .unknown ∧
      (∀ p, s₃.condition p = .driven false) ∧ (∀ p, s₄.condition p = .highImpedance) ∧ s₄.state = .exited ∧
      s₄.err = none ∧ s₄.refused = false ∧ s₄.env.fails = l

/-- R92: `EXIT` in every live state, when the provider performs every operation; the premise is the invariant of the
records. -/
def Obligations.ExitReleasesEveryPin : Prop :=
  ∀ (s : State) (l : List Bool), s.state ≠ .exited → RecordsInv s →
    Serves s (exitEvents s).length l →
    exec .exit s = .next
      { s with
        state := .exited
        trace := s.trace ++ exitEvents s
        pins :=
          { rst := { acquired := false, dir := .input, level := none }
            clk := { acquired := false, dir := .input, level := none }
            dat := { acquired := false, dir := .input, level := none } }
        env := { s.env with fails := l }
        results := s.results ++ [.ok .unit] }

/-- R93, R107: whatever the provider's answers, `EXIT` attempts everything once, and reports the failures in order after
the last attempt. -/
def Obligations.ExitAggregatesFailures : Prop :=
  ∀ (s : State) (fs l : List Bool), s.state ≠ .exited → s.tracked.Nodup → s.env.fails = fs ++ l →
    fs.length = (exitEvents s).length →
    ∃ t, exec .exit s = .next t ∧ t.state = .exited ∧ t.env.fails = l ∧
      t.trace = s.trace ++ eventsOf (exitEvents s) fs ∧
      t.results = s.results ++
        [if failuresOf (exitEvents s) fs = [] then .ok .unit
         else .err (.teardownFailure (failuresOf (exitEvents s) fs)) []] ∧
      t.err = (if failuresOf (exitEvents s) fs = [] then s.err
        else some (s.err.getD (.teardownFailure (failuresOf (exitEvents s) fs)))) ∧
      (∀ p, p ∈ s.tracked → (s.pin p).acquired = true →
        ((t.pin p).acquired = true ↔ (p, OpError.hardwareUnavailable p .unclaim) ∈ failuresOf (exitEvents s) fs)) ∧
      t.snap = s.snap ∧ t.mismatches = s.mismatches ∧ t.tracked = s.tracked ∧ t.cfg = s.cfg

/-- R94: no step leaves `Exited` or touches a line there, unless the host's next operation is `SESSION_NEW`. -/
def Obligations.ExitedIsTerminal : Prop :=
  ∀ s t : State, s.state = .exited → step s = .next t →
    (∀ r rest c, s.host = r :: rest → r.decode = .ok (.sessionNew c) → s.irqPending = true) →
    t.state = .exited ∧ t.trace = s.trace ∧ t.pins = s.pins ∧ t.tracked = s.tracked ∧ t.snap = s.snap ∧
      t.mismatches = s.mismatches ∧ t.err = s.err ∧ t.cfg = s.cfg ∧ (s.refused = true → t.refused = true)

/-- R87: the table, for every operation it lists: a cell `–` is a refusal that changes nothing but `s.refused`, a cell
`A` is no refusal. -/
def Obligations.AdmissionTable : Prop :=
  ∀ (i : Instr) (s : State), i.wf = true → i ≠ .lvpKey → (∀ c, i ≠ .sessionNew c) →
    (s.state ∉ admittedStates i →
      exec i s = .next { s with refused := true, results := s.results ++ [.refused .stateNotAdmitted] }) ∧
    (s.state ∈ admittedStates i →
      ∃ t r, exec i s = .next t ∧ t.results = s.results ++ [r] ∧ ∀ why, r ≠ .refused why)

/-- R110, R113: an operand out of range is refused in every state, before the session state is looked at. -/
def Obligations.OperandRefusals : Prop :=
  ∀ s : State,
    (∀ v n, 2 ^ n ≤ v → exec (.reverse v n) s =
      .next { s with refused := true, results := s.results ++ [.refused .reverseOperandTooWide] }) ∧
    (∀ d, 2 ^ 14 ≤ d →
      exec (.loadConfig d) s = .next { s with refused := true, results := s.results ++ [.refused .dataTooWide] } ∧
      exec (.loadData d) s = .next { s with refused := true, results := s.results ++ [.refused .dataTooWide] }) ∧
    (∀ p text, exec (.setDir p (.other text)) s =
      .next { s with refused := true, results := s.results ++ [.refused .directionNotAdmitted] }) ∧
    (∀ c : SessionConfig, c.pinReset = c.pinClock ∨ c.pinReset = c.pinData ∨ c.pinClock = c.pinData →
      exec (.sessionNew c) s =
        .next { s with refused := true, results := s.results ++ [.refused .pinsNotDistinct] })

/-! ## The comparator -/

/-- R96: `VERIFY 0`. -/
def Obligations.VerifyZeroClears : Prop :=
  ∀ s : State, Programming s →
    exec (.verify 0) s =
      .next { s with snap := [], mismatches := [], results := s.results ++ [.ok (.reports [])] }

/-- R97, R98, R99, R100: a run of `VERIFY` that the provider performs and no request interrupts, from any bits the target
presents: the events, the reports, the snapshot, and everything it leaves alone. -/
def Obligations.VerifyComparesWithPassZero : Prop :=
  ∀ (s : State) (n : Nat) (B : Nat → Nat → List Bit) (l q : List Bool) (r : List (List Char)),
    VerifyRun s B → VerifyServed s n B l r q →
    ∃ m, SnapOf m s.cfg.verifyBase B (verifySteps n s.cfg.verifyCount) ∧ Memory.wf m = true ∧
      exec (.verify n) s = .next
        { s with
          state := if n = 0 then s.state else .programmingMode
          snap := m
          mismatches := verifyReports s.cfg.verifyBase B (verifySteps n s.cfg.verifyCount)
          trace := s.trace ++ verifyEvents B (verifySteps n s.cfg.verifyCount)
          pins := if n = 0 then s.pins else { s.pins with dat := { s.pins.dat with level := some false } }
          env := { s.env with fails := l, reads := r, irqs := q }
          results := s.results ++
            [.ok (.reports (verifyReports s.cfg.verifyBase B (verifySteps n s.cfg.verifyCount)))] }

/-- R102: what the reports of such a run are, in the words read. -/
def Obligations.VerifyOutcomes : Prop :=
  ∀ (s : State) (n : Nat) (B : Nat → Nat → List Bit) (l q : List Bool) (r : List (List Char)),
    VerifyRun s B → VerifyServed s n B l r q →
    ∃ t ms, exec (.verify n) s = .next t ∧ t.results = s.results ++ [.ok (.reports ms)] ∧ t.mismatches = ms ∧
      t.err = s.err ∧
      ms = (List.range n).flatMap (fun i => (List.range s.cfg.verifyCount).filterMap (fun k =>
        if 1 ≤ i ∧ wordRead B i k ≠ wordRead B 0 k then
          some ⟨i, s.cfg.verifyBase + k, wordRead B 0 k, wordRead B i k⟩
        else none)) ∧
      ms.length ≤ (n - 1) * s.cfg.verifyCount ∧
      ((∀ i k, i < n → k < s.cfg.verifyCount → wordRead B i k = wordRead B 0 k) → ms = []) ∧
      (∀ j k, 1 ≤ j → j < n → k < s.cfg.verifyCount → wordRead B j k ≠ wordRead B 0 k →
        (∀ i h, i < n → h < s.cfg.verifyCount → (i, h) ≠ (j, k) → wordRead B i h = wordRead B 0 h) →
        ms = [⟨j, s.cfg.verifyBase + k, wordRead B 0 k, wordRead B j k⟩]) ∧
      (∀ k w, k < s.cfg.verifyCount → w ≠ wordRead B 0 k → (∀ i, 1 ≤ i → i < n → wordRead B i k = w) →
        (∀ i h, i < n → h < s.cfg.verifyCount → h ≠ k → wordRead B i h = wordRead B 0 h) →
        ms = (List.range (n - 1)).map (fun i => ⟨i + 1, s.cfg.verifyBase + k, wordRead B 0 k, w⟩))

/-- R101, R114, R109: a request that arrives before boundary `m` stops `VERIFY` there: the commands before it have run
whole, what they recorded is kept, and the abort path is taken from the pins they left (where the boundaries lie is
log 13). -/
def Obligations.VerifyStopsAtInterrupt : Prop :=
  ∀ (s : State) (n m : Nat) (B : Nat → Nat → List Bit) (l q : List Bool) (r : List (List Char)) (done : List VerifyStep),
    VerifyRun s B → done = (verifySteps n s.cfg.verifyCount).take (m + 1) →
    m + 1 < (verifySteps n s.cfg.verifyCount).length →
    Serves s (providerOps (verifyEvents B done)).length l → Presents s (readBits (verifyEvents B done)) r →
    DisturbedAt s m q →
    ∃ snap, SnapOf snap s.cfg.verifyBase B done ∧ Memory.wf snap = true ∧
      exec (.verify n) s = .next (abort .interrupted (s.inVerify B done snap (verifyEvents B done) l r q)) ∧
      (abort .interrupted (s.inVerify B done snap (verifyEvents B done) l r q)).snap = snap ∧
      (abort .interrupted (s.inVerify B done snap (verifyEvents B done) l r q)).mismatches =
        verifyReports s.cfg.verifyBase B done

/-- R101, R111, R68: a provider operation that fails inside `VERIFY`, the `j`-th of the run and one of command `c`, stops
it there, from the pins that the events before it left; what the `c` whole commands recorded is kept. -/
def Obligations.VerifyStopsAtFailure : Prop :=
  ∀ (s : State) (n j c : Nat) (B : Nat → Nat → List Bit) (l q : List Bool) (r : List (List Char)) (e : OpError)
    (es : List Event) (done : List VerifyStep),
    VerifyRun s B → es = verifyEvents B (verifySteps n s.cfg.verifyCount) →
    done = (verifySteps n s.cfg.verifyCount).take c →
    (providerOps (verifyEvents B done)).length ≤ j →
    j < (providerOps (verifyEvents B ((verifySteps n s.cfg.verifyCount).take (c + 1)))).length →
    errorAt j es = some e → FirstFailure s es j l r → Undisturbed s c q →
    ∃ snap, SnapOf snap s.cfg.verifyBase B done ∧ Memory.wf snap = true ∧
      exec (.verify n) s = .next (abort e (s.inVerify B done snap (eventsBefore j es) l r q)) ∧
      (abort e (s.inVerify B done snap (eventsBefore j es) l r q)).snap = snap ∧
      (abort e (s.inVerify B done snap (eventsBefore j es) l r q)).mismatches = verifyReports s.cfg.verifyBase B done

/-! ## Errors, interruption, abort -/

/-- R67, R68, R75, R86, R104, R111: wherever a provider operation fails inside a transport, command or entry operation
that is admitted with its pins ready, be it a value read whose content is no bit, every event before it has happened and
none after it, the records are as those events leave them, so the clock may be left high, and the abort path is taken with
that operation's error. That `LVP_KEY` is such an operation is the model's choice (log 6). -/
def Obligations.FailureStopsPrecisely : Prop :=
  ∀ (i : Instr) (s : State) (bs : List Bit),
    i.wf = true → s.state ∈ admittedStates i → PinsReady s bs i →
    FailsPrecisely i s (plannedEvents s bs i) (if isCommand i = true then .programmingMode else s.state)

/-- R109, R111, R114: `INTERRUPT` takes the abort path in every live state. Whatever the provider's answers, the teardown
makes every attempt, and its failures travel with `Interrupted`; when the provider performs it, every pin is released. In
`Exited` it is refused. -/
def Obligations.InterruptAbortsTheSession : Prop :=
  ∀ (s : State) (l : List Bool),
    (s.state ≠ .exited → exec .interrupt s = .next (abort .interrupted s)) ∧
    (∀ fs : List Bool, s.state ≠ .exited → s.tracked.Nodup → s.env.fails = fs ++ l →
      fs.length = (exitEvents s).length →
      ∃ t, exec .interrupt s = .next t ∧ t.state = .exited ∧ t.env.fails = l ∧
        t.trace = s.trace ++ eventsOf (exitEvents s) fs ∧
        t.results = s.results ++ [.err (.op .interrupted) (failuresOf (exitEvents s) fs)] ∧
        t.err = some (s.err.getD (.op .interrupted)) ∧ t.tracked = s.tracked ∧ t.snap = s.snap ∧
        t.mismatches = s.mismatches ∧ t.cfg = s.cfg ∧
        (∀ p, p ∈ s.tracked → (s.pin p).acquired = true →
          ((t.pin p).acquired = true ↔ (p, OpError.hardwareUnavailable p .unclaim) ∈ failuresOf (exitEvents s) fs))) ∧
    (s.state ≠ .exited → RecordsInv s → Serves s (exitEvents s).length l →
      exec .interrupt s = .next
        { s with
          state := .exited
          trace := s.trace ++ exitEvents s
          pins :=
            { rst := { acquired := false, dir := .input, level := none }
              clk := { acquired := false, dir := .input, level := none }
              dat := { acquired := false, dir := .input, level := none } }
          err := some (s.err.getD (.op .interrupted))
          env := { s.env with fails := l }
          results := s.results ++ [.err (.op .interrupted) []] }) ∧
    (s.state = .exited →
      exec .interrupt s = .next { s with refused := true, results := s.results ++ [.refused .stateNotAdmitted] })

/-- R111: the abort path, against `EXIT` invoked in the same state: the same teardown, the first error kept, and the
teardown failures attached to the propagated error. -/
def Obligations.AbortRunsTeardown : Prop :=
  ∀ (e : OpError) (s : State),
    (s.state = .exited →
      abort e s = { s with err := some (s.err.getD (.op e)), results := s.results ++ [.err (.op e) []] }) ∧
    (s.state ≠ .exited →
      ∃ u fs, exec .exit s = .next u ∧ u.state = .exited ∧
        u.results = s.results ++ [if fs = [] then .ok .unit else .err (.teardownFailure fs) []] ∧
        u.err = (if fs = [] then s.err else some (s.err.getD (.teardownFailure fs))) ∧
        abort e s = { u with err := some (s.err.getD (.op e)), results := s.results ++ [.err (.op e) fs] })

/-- R103, R104, R105, R107, R108, R109: where an error of each kind can come from, and that a teardown collects only
provider failures. -/
def Obligations.ErrorOrigins : Prop :=
  ∀ (i : Instr) (s t : State) (e : SessionError) (f : List (Pin × OpError)), exec i s = .next t →
    t.results = s.results ++ [.err e f] →
    (∀ v, e = .op (.invalidPinValue v) → v ≠ 0 ∧ v ≠ 1 ∧ ∃ p, i = .write p v) ∧
    (e = .op .interrupted → i = .interrupt ∨ ∃ n, i = .verify n) ∧
    (∀ p op, e = .op (.hardwareUnavailable p op) → (p, op) ∈ raisableOps i) ∧
    (∀ p c, e = .op (.preconditionViolation p c) →
      match c with
      | .writeToInput => ∃ v, i = .write p v
      | .readOfOutput => i = .read p
      | .sendClockNotLowOutput => p = .clk ∧ Sends i
      | .sendDataNotOutput => p = .dat ∧ Sends i
      | .recvClockNotLowOutput => p = .clk ∧ ∃ n, i = .recv n
      | .recvDataNotInput => p = .dat ∧ ∃ n, i = .recv n) ∧
    (∀ a, e ≠ .op (.unrecordedRead a)) ∧
    (∀ fs, e = .teardownFailure fs →
      i = .exit ∧ fs ≠ [] ∧ ∀ x ∈ fs, ∃ op, x.2 = .hardwareUnavailable x.1 op) ∧
    (∀ x ∈ f, ∃ op, x.2 = .hardwareUnavailable x.1 op)

/-- R108: the session operations, the commands and `VERIFY` never reach a precondition fault while the entry invariant
holds and no error is recorded; nor does `VERIFY` compare with an address it has not recorded (R99). -/
def Obligations.NoPreconditionFault : Prop :=
  ∀ (i : Instr) (s t : State), EntryInv s → s.err = none →
    (i = .reset ∨ i = .enterLvp ∨ i = .exit ∨ isCommand i = true ∨ ∃ n, i = .verify n) → exec i s = .next t →
    (∀ p c f, t.results ≠ s.results ++ [.err (.op (.preconditionViolation p c)) f]) ∧
    (∀ a f, t.results ≠ s.results ++ [.err (.op (.unrecordedRead a)) f])

/-- R24, R112: the error record is written once, with the error that the operation propagates, and the refusal mark is
set by a refusal and never cleared; `SESSION_NEW` begins another session. -/
def Obligations.ErrorWrittenOnce : Prop :=
  ∀ (i : Instr) (s t : State), (∀ c, i = .sessionNew c → c.pinsDistinct = false) → exec i s = .next t →
    (∀ e, s.err = some e → t.err = some e) ∧
    (∀ e, s.err = none → (t.err = some e ↔ ∃ f, t.results = s.results ++ [.err e f])) ∧
    (t.refused = true ↔ s.refused = true ∨ ∃ why, t.results = s.results ++ [.refused why])

/-- R10, R110, R111, R135: every operation ends in a next state with one result. A refusal changes nothing but
`s.refused`, a success leaves the error record alone, an error ends in `Exited` with an error recorded. -/
def Obligations.EveryOperationEnds : Prop :=
  ∀ (i : Instr) (s : State), ∃ t r, exec i s = .next t ∧ t.results = s.results ++ [r] ∧
    (∀ why, r = .refused why → t = { s with refused := true, results := s.results ++ [r] }) ∧
    (∀ v, r = .ok v → (∀ c, i ≠ .sessionNew c) →
      t.err = s.err ∧ t.refused = s.refused ∧ (t.state = .exited → i = .exit ∨ s.state = .exited)) ∧
    (∀ e f, r = .err e f → t.state = .exited ∧ t.err = some (s.err.getD e) ∧
      (i = .exit ∨ ∃ o u, e = .op o ∧ t = abort o u))

/-! ## Whole-machine rules -/

/-- R25, R88: the trace is only appended to; `SESSION_NEW` empties it. -/
def Obligations.TraceIsAppendOnly : Prop :=
  ∀ (i : Instr) (s t : State), exec i s = .next t →
    (∀ c, i = .sessionNew c → c.pinsDistinct = false) → ∃ evs, t.trace = s.trace ++ evs

/-- R14: only `SESSION_NEW` writes the parameters, on every step of the machine. -/
def Obligations.ConfigWrittenOnce : Prop :=
  ∀ s t : State, step s = .next t →
    t.cfg = s.cfg ∨ ∃ r rest c, s.irqPending = false ∧ s.host = r :: rest ∧ r.decode = .ok (.sessionNew c) ∧ t.cfg = c

/-- R21, R22, R28: only `VERIFY` (and `SESSION_NEW`) writes the snapshot and the reports; the other operations also leave
the host's requests, the pending interrupt and its arrivals alone. -/
def Obligations.ComparatorFrame : Prop :=
  ∀ (i : Instr) (s t : State), (∀ n, i ≠ .verify n) → (∀ c, i ≠ .sessionNew c) → exec i s = .next t →
    t.snap = s.snap ∧ t.mismatches = s.mismatches ∧ t.env.irqs = s.env.irqs ∧ t.irqPending = s.irqPending ∧
      t.host = s.host

/-- R13, R87, R91, R111: within a session the state never goes back, it moves to `Reset`, `LvpEntered` and
`ProgrammingMode` only by `RESET`, `ENTER_LVP` and the commands, and to `Exited` only by `EXIT` or by an error that takes
the abort path; nothing moves to `Unpowered`. -/
def Obligations.SessionStateMovesForward : Prop :=
  ∀ (i : Instr) (s t : State), (∀ c, i ≠ .sessionNew c) → exec i s = .next t →
    s.state.index ≤ t.state.index ∧
    (t.state = .reset → s.state = .reset ∨ i = .reset) ∧
    (t.state = .lvpEntered → s.state = .lvpEntered ∨ i = .enterLvp) ∧
    (t.state = .programmingMode → s.state = .programmingMode ∨ isCommand i = true ∨ ∃ n, i = .verify n) ∧
    (t.state = .exited → s.state = .exited ∨ i = .exit ∨ ∃ e u, exec i s = .next (abort e u)) ∧
    (t.state = .unpowered → s.state = .unpowered)

/-- R132: `ENTER_LVP`, the transport operations, the commands and `VERIFY` leave the reset line as it is, as long as
they do not abort. -/
def Obligations.ResetLineHeld : Prop :=
  ∀ (i : Instr) (s t : State),
    (i = .enterLvp ∨ i = .lvpKey ∨ isCommand i = true ∨ (∃ n, i = .verify n) ∨ (∃ v n, i = .send v n) ∨
      ∃ n, i = .recv n) →
    exec i s = .next t → t.state ≠ .exited →
    t.pin .rst = s.pin .rst ∧
      ∃ evs, t.trace = s.trace ++ evs ∧ ∀ e, e ∈ evs → ∀ x, Event.providerOp e = some x → x.1 ≠ .rst

/-- R134, R74: the events and the lower bound in seconds on the elapsed time of every operation in the table but `VERIFY`,
for all non-negative real delays (log 1). -/
def Obligations.EventCountsAndTimes : Prop :=
  ∀ (sec : Seconds) (s : State) (v n d : Nat) (i : Instr) (count : Nat) (time : NNReal) (bs : List Bit) (l : List Bool)
    (r : List (List Char)),
    (i, count, time) ∈
      [(Instr.send v n, 5 * n, 2 * n * sec s.cfg.tHalf),
        (.recv n, 5 * n, 2 * n * sec s.cfg.tHalf),
        (.loadConfig d, 112, 44 * sec s.cfg.tHalf + 2 * sec s.cfg.tCmd),
        (.loadData d, 112, 44 * sec s.cfg.tHalf + 2 * sec s.cfg.tCmd),
        (.readData, 114, 44 * sec s.cfg.tHalf + 2 * sec s.cfg.tCmd),
        (.incAddr, 31, 12 * sec s.cfg.tHalf + sec s.cfg.tCmd),
        (.resetAddr, 31, 12 * sec s.cfg.tHalf + sec s.cfg.tCmd),
        (.beginProg, 31, 12 * sec s.cfg.tHalf + sec s.cfg.tProg),
        (.bulkErase, 31, 12 * sec s.cfg.tHalf + sec s.cfg.tBulk),
        (.rowErase, 31, 12 * sec s.cfg.tHalf + sec s.cfg.tRow),
        (.reset, 3, sec s.cfg.tReset),
        (.enterLvp, 170, 66 * sec s.cfg.tHalf + sec s.cfg.tEntry)] →
    i.wf = true → s.state ∈ admittedStates i → PinsReady s bs i →
    (i = .reset → (s.pin .rst).acquired = false) →
    (i = .enterLvp → (s.pin .clk).acquired = false ∧ (s.pin .dat).acquired = false) →
    Serves s (providerOps (plannedEvents s bs i)).length l → Presents s bs r →
    ∃ t evs, exec i s = .next t ∧ t.trace = s.trace ++ evs ∧ evs.length = count ∧ holdTotal sec s.cfg evs = time

/-- R134, R97: the events and the lower bound in seconds on the elapsed time of `VERIFY`, for all non-negative real delays
(log 1). -/
def Obligations.VerifyCountsAndTime : Prop :=
  ∀ (sec : Seconds) (s : State) (n : Nat) (B : Nat → Nat → List Bit) (l q : List Bool) (r : List (List Char)),
    VerifyRun s B → VerifyServed s n B l r q →
    ∃ t evs, exec (.verify n) s = .next t ∧ t.trace = s.trace ++ evs ∧
      evs.length = n * (143 + 145 * s.cfg.verifyCount) ∧
      holdTotal sec s.cfg evs =
        n * ((56 + 56 * s.cfg.verifyCount) * sec s.cfg.tHalf + (3 + 3 * s.cfg.verifyCount) * sec s.cfg.tCmd)

/-! ## Invariants -/

/-- R15, R17, R21, R22: the records' invariant at reset. That the pins of its cfg are distinct (R8, R14, D4) rests on the
model's choice of 1, 2 and 3 (log 2). -/
def Obligations.RecordsInvAtReset : Prop := RecordsInv State.reset

/-- R15, R17, R21, R22, R14: every step of the machine keeps the records' invariant. -/
def Obligations.RecordsInvKeptByEveryStep : Prop :=
  ∀ s t : State, RecordsInv s → step s = .next t → RecordsInv t

/-- R27: the entry invariant at reset. -/
def Obligations.EntryInvAtReset : Prop := EntryInv State.reset

/-- R27, R108: every operation but the direct primitives that change a pin keeps the entry invariant. -/
def Obligations.EntryInvKept : Prop :=
  ∀ (i : Instr) (s t : State), (∀ p d, i ≠ .setDir p d) → (∀ p v, i ≠ .write p v) → (∀ p, i ≠ .release p) →
    (∀ p b, i ≠ .ensureOutWrite p b) → EntryInv s → exec i s = .next t → EntryInv t
end

