-- ==== Sys2Proof/Laws/State.lean ====
section
/-! SUPPORT. One lemma per field per named update of the state, and the laws of the pin records. -/

namespace Sys2Proof.Machine

section
variable (s : State) (e : Event)

@[simp] theorem State.emit_state : (s.emit e).state = s.state := rfl
@[simp] theorem State.emit_cfg : (s.emit e).cfg = s.cfg := rfl
@[simp] theorem State.emit_pins : (s.emit e).pins = s.pins := rfl
@[simp] theorem State.emit_tracked : (s.emit e).tracked = s.tracked := rfl
@[simp] theorem State.emit_snap : (s.emit e).snap = s.snap := rfl
@[simp] theorem State.emit_mismatches : (s.emit e).mismatches = s.mismatches := rfl
@[simp] theorem State.emit_err : (s.emit e).err = s.err := rfl
@[simp] theorem State.emit_refused : (s.emit e).refused = s.refused := rfl
@[simp] theorem State.emit_trace : (s.emit e).trace = s.trace ++ [e] := rfl
@[simp] theorem State.emit_irqPending : (s.emit e).irqPending = s.irqPending := rfl
@[simp] theorem State.emit_results : (s.emit e).results = s.results := rfl
@[simp] theorem State.emit_host : (s.emit e).host = s.host := rfl
@[simp] theorem State.emit_env : (s.emit e).env = s.env := rfl

end

section
variable (s : State) (p : Pin)

@[simp] theorem State.track_state : (s.track p).state = s.state := rfl
@[simp] theorem State.track_cfg : (s.track p).cfg = s.cfg := rfl
@[simp] theorem State.track_pins : (s.track p).pins = s.pins := rfl
@[simp] theorem State.track_tracked : (s.track p).tracked = if p ∈ s.tracked then s.tracked else s.tracked ++ [p] := rfl
@[simp] theorem State.track_snap : (s.track p).snap = s.snap := rfl
@[simp] theorem State.track_mismatches : (s.track p).mismatches = s.mismatches := rfl
@[simp] theorem State.track_err : (s.track p).err = s.err := rfl
@[simp] theorem State.track_refused : (s.track p).refused = s.refused := rfl
@[simp] theorem State.track_trace : (s.track p).trace = s.trace := rfl
@[simp] theorem State.track_irqPending : (s.track p).irqPending = s.irqPending := rfl
@[simp] theorem State.track_results : (s.track p).results = s.results := rfl
@[simp] theorem State.track_host : (s.track p).host = s.host := rfl
@[simp] theorem State.track_env : (s.track p).env = s.env := rfl

end

section
variable (s : State) (r : OpResult)

@[simp] theorem State.addResult_state : (s.addResult r).state = s.state := rfl
@[simp] theorem State.addResult_cfg : (s.addResult r).cfg = s.cfg := rfl
@[simp] theorem State.addResult_pins : (s.addResult r).pins = s.pins := rfl
@[simp] theorem State.addResult_tracked : (s.addResult r).tracked = s.tracked := rfl
@[simp] theorem State.addResult_snap : (s.addResult r).snap = s.snap := rfl
@[simp] theorem State.addResult_mismatches : (s.addResult r).mismatches = s.mismatches := rfl
@[simp] theorem State.addResult_err : (s.addResult r).err = s.err := rfl
@[simp] theorem State.addResult_refused : (s.addResult r).refused = s.refused := rfl
@[simp] theorem State.addResult_trace : (s.addResult r).trace = s.trace := rfl
@[simp] theorem State.addResult_irqPending : (s.addResult r).irqPending = s.irqPending := rfl
@[simp] theorem State.addResult_results : (s.addResult r).results = s.results ++ [r] := rfl
@[simp] theorem State.addResult_host : (s.addResult r).host = s.host := rfl
@[simp] theorem State.addResult_env : (s.addResult r).env = s.env := rfl

end

section
variable (s : State) (w : RefuseReason)

@[simp] theorem State.refuse_state : (s.refuse w).state = s.state := rfl
@[simp] theorem State.refuse_cfg : (s.refuse w).cfg = s.cfg := rfl
@[simp] theorem State.refuse_pins : (s.refuse w).pins = s.pins := rfl
@[simp] theorem State.refuse_tracked : (s.refuse w).tracked = s.tracked := rfl
@[simp] theorem State.refuse_snap : (s.refuse w).snap = s.snap := rfl
@[simp] theorem State.refuse_mismatches : (s.refuse w).mismatches = s.mismatches := rfl
@[simp] theorem State.refuse_err : (s.refuse w).err = s.err := rfl
@[simp] theorem State.refuse_refused : (s.refuse w).refused = true := rfl
@[simp] theorem State.refuse_trace : (s.refuse w).trace = s.trace := rfl
@[simp] theorem State.refuse_irqPending : (s.refuse w).irqPending = s.irqPending := rfl
@[simp] theorem State.refuse_results : (s.refuse w).results = s.results ++ [.refused w] := rfl
@[simp] theorem State.refuse_host : (s.refuse w).host = s.host := rfl
@[simp] theorem State.refuse_env : (s.refuse w).env = s.env := rfl

end

section
variable (s : State) (l : List Bool)

@[simp] theorem State.withFails_state : (s.withFails l).state = s.state := rfl
@[simp] theorem State.withFails_cfg : (s.withFails l).cfg = s.cfg := rfl
@[simp] theorem State.withFails_pins : (s.withFails l).pins = s.pins := rfl
@[simp] theorem State.withFails_tracked : (s.withFails l).tracked = s.tracked := rfl
@[simp] theorem State.withFails_snap : (s.withFails l).snap = s.snap := rfl
@[simp] theorem State.withFails_mismatches : (s.withFails l).mismatches = s.mismatches := rfl
@[simp] theorem State.withFails_err : (s.withFails l).err = s.err := rfl
@[simp] theorem State.withFails_refused : (s.withFails l).refused = s.refused := rfl
@[simp] theorem State.withFails_trace : (s.withFails l).trace = s.trace := rfl
@[simp] theorem State.withFails_irqPending : (s.withFails l).irqPending = s.irqPending := rfl
@[simp] theorem State.withFails_results : (s.withFails l).results = s.results := rfl
@[simp] theorem State.withFails_host : (s.withFails l).host = s.host := rfl
@[simp] theorem State.withFails_env : (s.withFails l).env = { s.env with fails := l } := rfl

end

section
variable (s : State) (l : List (List Char))

@[simp] theorem State.withReads_state : (s.withReads l).state = s.state := rfl
@[simp] theorem State.withReads_cfg : (s.withReads l).cfg = s.cfg := rfl
@[simp] theorem State.withReads_pins : (s.withReads l).pins = s.pins := rfl
@[simp] theorem State.withReads_tracked : (s.withReads l).tracked = s.tracked := rfl
@[simp] theorem State.withReads_snap : (s.withReads l).snap = s.snap := rfl
@[simp] theorem State.withReads_mismatches : (s.withReads l).mismatches = s.mismatches := rfl
@[simp] theorem State.withReads_err : (s.withReads l).err = s.err := rfl
@[simp] theorem State.withReads_refused : (s.withReads l).refused = s.refused := rfl
@[simp] theorem State.withReads_trace : (s.withReads l).trace = s.trace := rfl
@[simp] theorem State.withReads_irqPending : (s.withReads l).irqPending = s.irqPending := rfl
@[simp] theorem State.withReads_results : (s.withReads l).results = s.results := rfl
@[simp] theorem State.withReads_host : (s.withReads l).host = s.host := rfl
@[simp] theorem State.withReads_env : (s.withReads l).env = { s.env with reads := l } := rfl

end

section
variable (s : State) (l : List Bool)

@[simp] theorem State.withIrqs_state : (s.withIrqs l).state = s.state := rfl
@[simp] theorem State.withIrqs_cfg : (s.withIrqs l).cfg = s.cfg := rfl
@[simp] theorem State.withIrqs_pins : (s.withIrqs l).pins = s.pins := rfl
@[simp] theorem State.withIrqs_tracked : (s.withIrqs l).tracked = s.tracked := rfl
@[simp] theorem State.withIrqs_snap : (s.withIrqs l).snap = s.snap := rfl
@[simp] theorem State.withIrqs_mismatches : (s.withIrqs l).mismatches = s.mismatches := rfl
@[simp] theorem State.withIrqs_err : (s.withIrqs l).err = s.err := rfl
@[simp] theorem State.withIrqs_refused : (s.withIrqs l).refused = s.refused := rfl
@[simp] theorem State.withIrqs_trace : (s.withIrqs l).trace = s.trace := rfl
@[simp] theorem State.withIrqs_irqPending : (s.withIrqs l).irqPending = s.irqPending := rfl
@[simp] theorem State.withIrqs_results : (s.withIrqs l).results = s.results := rfl
@[simp] theorem State.withIrqs_host : (s.withIrqs l).host = s.host := rfl
@[simp] theorem State.withIrqs_env : (s.withIrqs l).env = { s.env with irqs := l } := rfl

end

section
variable (s : State)

@[simp] theorem State.drawnOnce_state : (s.drawnOnce).state = s.state := rfl
@[simp] theorem State.drawnOnce_cfg : (s.drawnOnce).cfg = s.cfg := rfl
@[simp] theorem State.drawnOnce_pins : (s.drawnOnce).pins = s.pins := rfl
@[simp] theorem State.drawnOnce_tracked : (s.drawnOnce).tracked = s.tracked := rfl
@[simp] theorem State.drawnOnce_snap : (s.drawnOnce).snap = s.snap := rfl
@[simp] theorem State.drawnOnce_mismatches : (s.drawnOnce).mismatches = s.mismatches := rfl
@[simp] theorem State.drawnOnce_err : (s.drawnOnce).err = s.err := rfl
@[simp] theorem State.drawnOnce_refused : (s.drawnOnce).refused = s.refused := rfl
@[simp] theorem State.drawnOnce_trace : (s.drawnOnce).trace = s.trace := rfl
@[simp] theorem State.drawnOnce_irqPending : (s.drawnOnce).irqPending = s.irqPending := rfl
@[simp] theorem State.drawnOnce_results : (s.drawnOnce).results = s.results := rfl
@[simp] theorem State.drawnOnce_host : (s.drawnOnce).host = s.host := rfl
@[simp] theorem State.drawnOnce_env : (s.drawnOnce).env = { s.env with drawn := s.env.drawn + 1 } := rfl

end

section
variable (s : State) (st : SessionState)

@[simp] theorem State.withState_state : (s.withState st).state = st := rfl
@[simp] theorem State.withState_cfg : (s.withState st).cfg = s.cfg := rfl
@[simp] theorem State.withState_pins : (s.withState st).pins = s.pins := rfl
@[simp] theorem State.withState_tracked : (s.withState st).tracked = s.tracked := rfl
@[simp] theorem State.withState_snap : (s.withState st).snap = s.snap := rfl
@[simp] theorem State.withState_mismatches : (s.withState st).mismatches = s.mismatches := rfl
@[simp] theorem State.withState_err : (s.withState st).err = s.err := rfl
@[simp] theorem State.withState_refused : (s.withState st).refused = s.refused := rfl
@[simp] theorem State.withState_trace : (s.withState st).trace = s.trace := rfl
@[simp] theorem State.withState_irqPending : (s.withState st).irqPending = s.irqPending := rfl
@[simp] theorem State.withState_results : (s.withState st).results = s.results := rfl
@[simp] theorem State.withState_host : (s.withState st).host = s.host := rfl
@[simp] theorem State.withState_env : (s.withState st).env = s.env := rfl

end

section
variable (s : State) (m : Memory)

@[simp] theorem State.withSnap_state : (s.withSnap m).state = s.state := rfl
@[simp] theorem State.withSnap_cfg : (s.withSnap m).cfg = s.cfg := rfl
@[simp] theorem State.withSnap_pins : (s.withSnap m).pins = s.pins := rfl
@[simp] theorem State.withSnap_tracked : (s.withSnap m).tracked = s.tracked := rfl
@[simp] theorem State.withSnap_snap : (s.withSnap m).snap = m := rfl
@[simp] theorem State.withSnap_mismatches : (s.withSnap m).mismatches = s.mismatches := rfl
@[simp] theorem State.withSnap_err : (s.withSnap m).err = s.err := rfl
@[simp] theorem State.withSnap_refused : (s.withSnap m).refused = s.refused := rfl
@[simp] theorem State.withSnap_trace : (s.withSnap m).trace = s.trace := rfl
@[simp] theorem State.withSnap_irqPending : (s.withSnap m).irqPending = s.irqPending := rfl
@[simp] theorem State.withSnap_results : (s.withSnap m).results = s.results := rfl
@[simp] theorem State.withSnap_host : (s.withSnap m).host = s.host := rfl
@[simp] theorem State.withSnap_env : (s.withSnap m).env = s.env := rfl

end

section
variable (s : State) (ms : List Mismatch)

@[simp] theorem State.withMismatches_state : (s.withMismatches ms).state = s.state := rfl
@[simp] theorem State.withMismatches_cfg : (s.withMismatches ms).cfg = s.cfg := rfl
@[simp] theorem State.withMismatches_pins : (s.withMismatches ms).pins = s.pins := rfl
@[simp] theorem State.withMismatches_tracked : (s.withMismatches ms).tracked = s.tracked := rfl
@[simp] theorem State.withMismatches_snap : (s.withMismatches ms).snap = s.snap := rfl
@[simp] theorem State.withMismatches_mismatches : (s.withMismatches ms).mismatches = ms := rfl
@[simp] theorem State.withMismatches_err : (s.withMismatches ms).err = s.err := rfl
@[simp] theorem State.withMismatches_refused : (s.withMismatches ms).refused = s.refused := rfl
@[simp] theorem State.withMismatches_trace : (s.withMismatches ms).trace = s.trace := rfl
@[simp] theorem State.withMismatches_irqPending : (s.withMismatches ms).irqPending = s.irqPending := rfl
@[simp] theorem State.withMismatches_results : (s.withMismatches ms).results = s.results := rfl
@[simp] theorem State.withMismatches_host : (s.withMismatches ms).host = s.host := rfl
@[simp] theorem State.withMismatches_env : (s.withMismatches ms).env = s.env := rfl

end

section
variable (s : State) (b : Bool)

@[simp] theorem State.withIrqPending_state : (s.withIrqPending b).state = s.state := rfl
@[simp] theorem State.withIrqPending_cfg : (s.withIrqPending b).cfg = s.cfg := rfl
@[simp] theorem State.withIrqPending_pins : (s.withIrqPending b).pins = s.pins := rfl
@[simp] theorem State.withIrqPending_tracked : (s.withIrqPending b).tracked = s.tracked := rfl
@[simp] theorem State.withIrqPending_snap : (s.withIrqPending b).snap = s.snap := rfl
@[simp] theorem State.withIrqPending_mismatches : (s.withIrqPending b).mismatches = s.mismatches := rfl
@[simp] theorem State.withIrqPending_err : (s.withIrqPending b).err = s.err := rfl
@[simp] theorem State.withIrqPending_refused : (s.withIrqPending b).refused = s.refused := rfl
@[simp] theorem State.withIrqPending_trace : (s.withIrqPending b).trace = s.trace := rfl
@[simp] theorem State.withIrqPending_irqPending : (s.withIrqPending b).irqPending = b := rfl
@[simp] theorem State.withIrqPending_results : (s.withIrqPending b).results = s.results := rfl
@[simp] theorem State.withIrqPending_host : (s.withIrqPending b).host = s.host := rfl
@[simp] theorem State.withIrqPending_env : (s.withIrqPending b).env = s.env := rfl

end

section
variable (s : State) (h : List HostRequest)

@[simp] theorem State.withHost_state : (s.withHost h).state = s.state := rfl
@[simp] theorem State.withHost_cfg : (s.withHost h).cfg = s.cfg := rfl
@[simp] theorem State.withHost_pins : (s.withHost h).pins = s.pins := rfl
@[simp] theorem State.withHost_tracked : (s.withHost h).tracked = s.tracked := rfl
@[simp] theorem State.withHost_snap : (s.withHost h).snap = s.snap := rfl
@[simp] theorem State.withHost_mismatches : (s.withHost h).mismatches = s.mismatches := rfl
@[simp] theorem State.withHost_err : (s.withHost h).err = s.err := rfl
@[simp] theorem State.withHost_refused : (s.withHost h).refused = s.refused := rfl
@[simp] theorem State.withHost_trace : (s.withHost h).trace = s.trace := rfl
@[simp] theorem State.withHost_irqPending : (s.withHost h).irqPending = s.irqPending := rfl
@[simp] theorem State.withHost_results : (s.withHost h).results = s.results := rfl
@[simp] theorem State.withHost_host : (s.withHost h).host = h := rfl
@[simp] theorem State.withHost_env : (s.withHost h).env = s.env := rfl

end

section
variable (s : State) (p : Pin) (r : PinRec)

@[simp] theorem State.setPin_state : (s.setPin p r).state = s.state := by cases p <;> rfl
@[simp] theorem State.setPin_cfg : (s.setPin p r).cfg = s.cfg := by cases p <;> rfl
@[simp] theorem State.setPin_tracked : (s.setPin p r).tracked = s.tracked := by cases p <;> rfl
@[simp] theorem State.setPin_snap : (s.setPin p r).snap = s.snap := by cases p <;> rfl
@[simp] theorem State.setPin_mismatches : (s.setPin p r).mismatches = s.mismatches := by cases p <;> rfl
@[simp] theorem State.setPin_err : (s.setPin p r).err = s.err := by cases p <;> rfl
@[simp] theorem State.setPin_refused : (s.setPin p r).refused = s.refused := by cases p <;> rfl
@[simp] theorem State.setPin_trace : (s.setPin p r).trace = s.trace := by cases p <;> rfl
@[simp] theorem State.setPin_irqPending : (s.setPin p r).irqPending = s.irqPending := by cases p <;> rfl
@[simp] theorem State.setPin_results : (s.setPin p r).results = s.results := by cases p <;> rfl
@[simp] theorem State.setPin_host : (s.setPin p r).host = s.host := by cases p <;> rfl
@[simp] theorem State.setPin_env : (s.setPin p r).env = s.env := by cases p <;> rfl

@[simp] theorem State.setPin_pin (q : Pin) : (s.setPin p r).pin q = if q = p then r else s.pin q := by
  cases p <;> cases q <;> rfl

end

@[simp] theorem State.emit_pin (s : State) (e : Event) (q : Pin) : (s.emit e).pin q = s.pin q := by
  cases q <;> rfl

@[simp] theorem State.track_pin (s : State) (p : Pin) (q : Pin) : (s.track p).pin q = s.pin q := by
  cases q <;> rfl

@[simp] theorem State.addResult_pin (s : State) (r : OpResult) (q : Pin) : (s.addResult r).pin q = s.pin q := by
  cases q <;> rfl

@[simp] theorem State.refuse_pin (s : State) (w : RefuseReason) (q : Pin) : (s.refuse w).pin q = s.pin q := by
  cases q <;> rfl

@[simp] theorem State.withFails_pin (s : State) (l : List Bool) (q : Pin) : (s.withFails l).pin q = s.pin q := by
  cases q <;> rfl

@[simp] theorem State.withReads_pin (s : State) (l : List (List Char)) (q : Pin) : (s.withReads l).pin q = s.pin q := by
  cases q <;> rfl

@[simp] theorem State.withIrqs_pin (s : State) (l : List Bool) (q : Pin) : (s.withIrqs l).pin q = s.pin q := by
  cases q <;> rfl

@[simp] theorem State.drawnOnce_pin (s : State) (q : Pin) : (s.drawnOnce).pin q = s.pin q := by
  cases q <;> rfl

@[simp] theorem State.withState_pin (s : State) (st : SessionState) (q : Pin) : (s.withState st).pin q = s.pin q := by
  cases q <;> rfl

@[simp] theorem State.withSnap_pin (s : State) (m : Memory) (q : Pin) : (s.withSnap m).pin q = s.pin q := by
  cases q <;> rfl

@[simp] theorem State.withMismatches_pin (s : State) (ms : List Mismatch) (q : Pin) : (s.withMismatches ms).pin q = s.pin q := by
  cases q <;> rfl

@[simp] theorem State.withIrqPending_pin (s : State) (b : Bool) (q : Pin) : (s.withIrqPending b).pin q = s.pin q := by
  cases q <;> rfl

@[simp] theorem State.withHost_pin (s : State) (h : List HostRequest) (q : Pin) : (s.withHost h).pin q = s.pin q := by
  cases q <;> rfl

section
variable (s : State) (e : SessionError)

@[simp] theorem State.recordErr_state : (s.recordErr e).state = s.state := by
  unfold State.recordErr; split <;> rfl

@[simp] theorem State.recordErr_cfg : (s.recordErr e).cfg = s.cfg := by
  unfold State.recordErr; split <;> rfl

@[simp] theorem State.recordErr_pins : (s.recordErr e).pins = s.pins := by
  unfold State.recordErr; split <;> rfl

@[simp] theorem State.recordErr_tracked : (s.recordErr e).tracked = s.tracked := by
  unfold State.recordErr; split <;> rfl

@[simp] theorem State.recordErr_snap : (s.recordErr e).snap = s.snap := by
  unfold State.recordErr; split <;> rfl

@[simp] theorem State.recordErr_mismatches : (s.recordErr e).mismatches = s.mismatches := by
  unfold State.recordErr; split <;> rfl

@[simp] theorem State.recordErr_refused : (s.recordErr e).refused = s.refused := by
  unfold State.recordErr; split <;> rfl

@[simp] theorem State.recordErr_trace : (s.recordErr e).trace = s.trace := by
  unfold State.recordErr; split <;> rfl

@[simp] theorem State.recordErr_irqPending : (s.recordErr e).irqPending = s.irqPending := by
  unfold State.recordErr; split <;> rfl

@[simp] theorem State.recordErr_results : (s.recordErr e).results = s.results := by
  unfold State.recordErr; split <;> rfl

@[simp] theorem State.recordErr_host : (s.recordErr e).host = s.host := by
  unfold State.recordErr; split <;> rfl

@[simp] theorem State.recordErr_env : (s.recordErr e).env = s.env := by
  unfold State.recordErr; split <;> rfl

@[simp] theorem State.recordErr_err : (s.recordErr e).err = some (s.err.getD e) := by
  unfold State.recordErr; split <;> simp_all

@[simp] theorem State.recordErr_pin (q : Pin) : (s.recordErr e).pin q = s.pin q := by
  unfold State.recordErr; split <;> cases q <;> rfl

end

end Sys2Proof.Machine
end

