-- ==== Sys2Proof/Laws/Memory.lean ====
section
/-! SUPPORT. The laws of the snapshot (spec/10_state.md R21, spec/00_scope.md R10): read after write, and every write
keeps the canonical form. -/

namespace Sys2Proof.Machine

/-- Every address of the list lies above `a`. -/
def Memory.above (a : Nat) (m : Memory) : Prop := ∀ c ∈ m, a < c.1

theorem Memory.wf_cons (a : Nat) (v : Word) (m : Memory) :
    Memory.wf ((a, v) :: m) = true ↔ Memory.above a m ∧ Memory.wf m = true := by
  induction m generalizing a v with
  | nil => simp [Memory.wf, Memory.above]
  | cons c m ih =>
    obtain ⟨b, w⟩ := c
    simp only [Memory.wf, Bool.and_eq_true, decide_eq_true_eq, Memory.above, List.mem_cons,
      forall_eq_or_imp]
    constructor
    · rintro ⟨hab, hm⟩
      exact ⟨⟨hab, fun c hc => Nat.lt_trans hab (((ih b w).1 hm).1 c hc)⟩, hm⟩
    · rintro ⟨⟨hab, _⟩, hm⟩
      exact ⟨hab, hm⟩

theorem Memory.read_above (a : Nat) (m : Memory) (h : Memory.above a m) : Memory.read m a = none := by
  induction m with
  | nil => rfl
  | cons c m ih =>
    obtain ⟨b, w⟩ := c
    have hb : a < b := h (b, w) (by simp)
    simp only [Memory.read, if_neg (Nat.ne_of_lt hb)]
    exact ih (fun c hc => h c (by simp [hc]))

theorem Memory.above_write (b a : Nat) (v : Word) (m : Memory) (h : Memory.above b m) (hba : b < a) :
    Memory.above b (Memory.write m a v) := by
  induction m with
  | nil => simpa [Memory.write, Memory.above] using hba
  | cons c m ih =>
    obtain ⟨c, w⟩ := c
    have hc : b < c := h (c, w) (by simp)
    have hm : Memory.above b m := fun d hd => h d (by simp [hd])
    simp only [Memory.write]
    split
    · intro d hd
      simp only [List.mem_cons] at hd
      rcases hd with rfl | rfl | hd
      · exact hba
      · exact hc
      · exact hm d hd
    · split
      · intro d hd
        simp only [List.mem_cons] at hd
        rcases hd with rfl | hd
        · exact hba
        · exact hm d hd
      · intro d hd
        simp only [List.mem_cons] at hd
        rcases hd with rfl | hd
        · exact hc
        · exact ih hm d hd

/-- A write keeps the canonical form. -/
theorem Memory.wf_write (a : Nat) (v : Word) (m : Memory) (h : Memory.wf m = true) :
    Memory.wf (Memory.write m a v) = true := by
  induction m with
  | nil => rfl
  | cons c m ih =>
    obtain ⟨b, w⟩ := c
    have hb := (Memory.wf_cons b w m).1 h
    simp only [Memory.write]
    split
    next hab =>
      refine (Memory.wf_cons _ _ _).2 ⟨?_, h⟩
      intro d hd
      simp only [List.mem_cons] at hd
      rcases hd with rfl | hd
      · exact hab
      · exact Nat.lt_trans hab (hb.1 d hd)
    next hab =>
      split
      next heq => subst heq; exact (Memory.wf_cons _ _ _).2 hb
      next hne =>
        exact (Memory.wf_cons _ _ _).2 ⟨Memory.above_write b a v m hb.1 (by omega), ih hb.2⟩

/-- Read after write, at the written address and elsewhere. -/
theorem Memory.read_write (a b : Nat) (v : Word) (m : Memory) (h : Memory.wf m = true) :
    Memory.read (Memory.write m a v) b = if b = a then some v else Memory.read m b := by
  induction m with
  | nil => simp only [Memory.write, Memory.read]
  | cons c m ih =>
    obtain ⟨c, w⟩ := c
    have hc := (Memory.wf_cons c w m).1 h
    simp only [Memory.write]
    split
    next hac => simp only [Memory.read]
    next hac =>
      split
      next heq =>
        subst heq
        simp only [Memory.read]
        split <;> rfl
      next hne =>
        simp only [Memory.read, ih hc.2]
        split
        next hbc => rw [if_neg (by omega)]
        next => rfl

@[simp] theorem Memory.read_nil (a : Nat) : Memory.read [] a = none := rfl

theorem Memory.wf_nil : Memory.wf [] = true := rfl

/-- The snapshot of the reset state has the canonical form. -/
theorem State.reset_snap_wf : Memory.wf State.reset.snap = true := rfl

end Sys2Proof.Machine
end

