-- ==== Sys2Proof/Laws/Keeps.lean ====
section
/-! SUPPORT. What an operation of the engine keeps, whether it returns or raises: a relation between the state before
and the state after that is reflexive and transitive is kept by an operation as soon as its parts keep it. -/

namespace Sys2Proof.Machine

variable {α β : Type}

/-- The state an operation leaves, by return or by error. -/
def finalState : EStateM.Result OpError State α → State
  | .ok _ t => t
  | .error _ t => t

/-- The operation's final state stands in the relation to the state it started from. -/
def Keeps (R : State → State → Prop) (x : Op α) : Prop := ∀ s, R s (finalState (x.run s))

/-- A relation that composes along an operation's parts. -/
structure Composes (R : State → State → Prop) : Prop where
  refl : ∀ s, R s s
  trans : ∀ s t u, R s t → R t u → R s u

variable {R : State → State → Prop}

theorem op_bind (x : Op α) (f : α → Op β) (s : State) :
    (x >>= f).run s = match x.run s with | .ok a t => (f a).run t | .error e t => .error e t := by
  change EStateM.bind x f s = _
  unfold EStateM.bind EStateM.run
  cases x s <;> rfl

theorem op_bind_ok {x : Op α} {f : α → Op β} {s t : State} {a : α} (h : x.run s = .ok a t) : (x >>= f).run s = (f a).run t := by
  rw [op_bind, h]

theorem op_bind_error {x : Op α} {f : α → Op β} {s t : State} {e : OpError} (h : x.run s = .error e t) :
    (x >>= f).run s = .error e t := by
  rw [op_bind, h]

@[simp] theorem op_pure (a : α) (s : State) : (pure a : Op α).run s = .ok a s := rfl

@[simp] theorem op_throw (e : OpError) (s : State) : (throw e : Op α).run s = .error e s := rfl

@[simp] theorem op_get (s : State) : (get : Op State).run s = .ok s s := rfl

@[simp] theorem op_modify (f : State → State) (s : State) : (modify f : Op Unit).run s = .ok ⟨⟩ (f s) := rfl

@[simp] theorem op_emit (e : Event) (s : State) : (emit e).run s = .ok ⟨⟩ (s.emit e) := rfl

theorem keeps_bind (hR : Composes R) {x : Op α} {f : α → Op β} (hx : Keeps R x) (hf : ∀ a, Keeps R (f a)) :
    Keeps R (x >>= f) := by
  intro s
  rw [op_bind]
  have h := hx s
  cases hxs : x.run s with
  | ok a t => rw [hxs] at h; exact hR.trans s t _ h (hf a t)
  | error e t => rw [hxs] at h; exact h

theorem keeps_pure (hR : Composes R) (a : α) : Keeps R (pure a : Op α) := hR.refl

theorem keeps_throw (hR : Composes R) (e : OpError) : Keeps R (throw e : Op α) := hR.refl

theorem keeps_get (hR : Composes R) : Keeps R (get : Op State) := hR.refl

theorem keeps_modify (f : State → State) (h : ∀ s, R s (f s)) : Keeps R (modify f : Op Unit) := h

/-- Reading the state and going on: the rest need keep the relation only from the state that was read. -/
theorem keeps_get_bind {f : State → Op α} (h : ∀ s, R s (finalState ((f s).run s))) : Keeps R ((get : Op State) >>= f) := by
  intro s
  rw [op_bind, op_get]
  exact h s

theorem keeps_ite {c : Prop} [Decidable c] {x y : Op α} (hx : c → Keeps R x) (hy : ¬c → Keeps R y) :
    Keeps R (if c then x else y) := by
  split
  · exact hx ‹_›
  · exact hy ‹_›

/-! ## What an operation can raise -/

/-- Every error the operation raises, from whatever state, satisfies the predicate. -/
def Raises (E : OpError → Prop) (x : Op α) : Prop := ∀ s e t, x.run s = .error e t → E e

variable {E : OpError → Prop}

theorem raises_bind {x : Op α} {f : α → Op β} (hx : Raises E x) (hf : ∀ a, Raises E (f a)) : Raises E (x >>= f) := by
  intro s e t h
  rw [op_bind] at h
  cases hxs : x.run s with
  | ok a u => rw [hxs] at h; exact hf a u e t h
  | error e' u => rw [hxs] at h; cases h; exact hx s _ _ hxs

theorem raises_pure (a : α) : Raises E (pure a : Op α) := by intro s e t h; cases h

theorem raises_throw {e : OpError} (h : E e) : Raises E (throw e : Op α) := by intro s e' t h'; cases h'; exact h

theorem raises_get : Raises E (get : Op State) := by intro s e t h; cases h

theorem raises_modify (f : State → State) : Raises E (modify f : Op Unit) := by intro s e t h; cases h

theorem raises_ite {c : Prop} [Decidable c] {x y : Op α} (hx : Raises E x) (hy : Raises E y) :
    Raises E (if c then x else y) := by
  split
  · exact hx
  · exact hy

end Sys2Proof.Machine
end

