-- ==== Sys2Proof/Laws/Exec.lean ====
section
/-! SUPPORT. The dispatch, unfolded once: what each arm of exec invokes. -/

namespace Sys2Proof.Machine

variable (s : State)

theorem exec_loadConfig (d : Nat) : exec (.loadConfig d) s =
    invoke .command (dataRefusal d) (noValue (writeCommand 0x00 d)) s := rfl

theorem exec_loadData (d : Nat) : exec (.loadData d) s =
    invoke .command (dataRefusal d) (noValue (writeCommand 0x02 d)) s := rfl

theorem exec_readData : exec .readData s =
    invoke .command none (readCommand 0x04 >>= fun w => pure (.word w)) s := rfl

theorem exec_incAddr : exec .incAddr s =
    invoke .command none (noValue (controlCommand 0x06 .tCmd)) s := rfl

theorem exec_resetAddr : exec .resetAddr s =
    invoke .command none (noValue (controlCommand 0x16 .tCmd)) s := rfl

theorem exec_beginProg : exec .beginProg s =
    invoke .command none (noValue (controlCommand 0x08 .tProg)) s := rfl

theorem exec_bulkErase : exec .bulkErase s =
    invoke .command none (noValue (controlCommand 0x09 .tBulk)) s := rfl

theorem exec_rowErase : exec .rowErase s =
    invoke .command none (noValue (controlCommand 0x11 .tRow)) s := rfl

theorem exec_lvpKey : exec .lvpKey s =
    invoke .line none (noValue sendKey) s := rfl

theorem exec_acquire (p : Pin) : exec (.acquire p) s =
    invoke .line none (noValue (pinAcquire p)) s := rfl

theorem exec_setDir (p : Pin) (d : DirArg) : exec (.setDir p d) s =
    invoke .line (dirRefusal d) (noValue (setDirBody p d)) s := rfl

theorem exec_write (p : Pin) (v : Int) : exec (.write p v) s =
    invoke .line none (noValue (pinWrite p v)) s := rfl

theorem exec_read (p : Pin) : exec (.read p) s =
    invoke .line none (pinRead p >>= fun b => pure (.bit b)) s := rfl

theorem exec_release (p : Pin) : exec (.release p) s =
    invoke .line none (noValue (pinRelease p)) s := rfl

theorem exec_ensureOutWrite (p : Pin) (b : Bit) : exec (.ensureOutWrite p b) s =
    invoke .line none (noValue (pinEnsureOutWrite p b)) s := rfl

theorem exec_reverse (v n : Nat) : exec (.reverse v n) s =
    invoke .reverse (reverseRefusal v n) (pure (.nat (reverseBits v n))) s := rfl

theorem exec_send (v n : Nat) : exec (.send v n) s =
    invoke .line none (noValue (busSend v n)) s := rfl

theorem exec_recv (n : Nat) : exec (.recv n) s =
    invoke .line none (busRecv n >>= fun v => pure (.nat v)) s := rfl

theorem exec_reset : exec .reset s =
    invoke .reset none (noValue sessionReset) s := rfl

theorem exec_enterLvp : exec .enterLvp s =
    invoke .enterLvp none (noValue enterLvp) s := rfl

theorem exec_exit : exec .exit s =
    guarded .exit none completeExit s := rfl

theorem exec_verify (n : Nat) : exec (.verify n) s =
    invoke .verify none (verifyAll n) s := rfl

theorem exec_interrupt : exec .interrupt s =
    invoke .interrupt none (throw .interrupted) s := rfl

end Sys2Proof.Machine
end

