-- ==== Sys2Proof/Laws/Actions.lean ====
section
/-! SUPPORT. Everything an operation can do, said once: a relation between states that composes and holds across each
elementary action of the machine (a draw, a line event, a change of one pin record, an advance of the session state, a
record of an error, a result, a snapshot entry, a mismatch report) holds across every operation. -/

namespace Sys2Proof.Machine

variable {α β : Type}

/-- The relation holds across the actions of the pin primitives and the transport. -/
structure PrimActions (R : State → State → Prop) : Prop extends Composes R where
  fails : ∀ s l, R s (s.withFails l)
  reads : ∀ s l, R s (s.withReads l)
  drawn : ∀ s, R s s.drawnOnce
  emit : ∀ s e, R s (s.emit e)
  claim : ∀ s p, (s.pin p).acquired = false → R s ((s.setPin p PinRec.claimed).track p)
  dir : ∀ s p d, (s.pin p).acquired = true → R s (s.setPin p ((s.pin p).withDir d))
  level : ∀ s p b, (s.pin p).acquired = true → (s.pin p).dir = .output → R s (s.setPin p ((s.pin p).withLevel b))
  unclaim : ∀ s p, (s.pin p).acquired = true → R s (s.setPin p PinRec.reset)

/-- The relation holds across the actions of every operation but `VERIFY` and `SESSION_NEW`. -/
structure LineActions (R : State → State → Prop) : Prop extends PrimActions R where
  advance : ∀ s st, s.state.index ≤ st.index → R s (s.withState st)
  recordErr : ∀ s e, R s (s.recordErr e)
  addResult : ∀ s r, R s (s.addResult r)
  refuse : ∀ s w, R s (s.refuse w)

/-- The relation holds across the actions of `VERIFY` too. -/
structure VerifyActions (R : State → State → Prop) : Prop extends LineActions R where
  irqs : ∀ s l, R s (s.withIrqs l)
  irqTaken : ∀ s, R s (s.withIrqPending false)
  clear : ∀ s, R s ((s.withSnap []).withMismatches [])
  record : ∀ s a v, R s (s.withSnap (Memory.write s.snap a v))
  mismatch : ∀ s i a e v, 1 ≤ i → e ≠ v → R s (s.withMismatches (s.mismatches ++ [⟨i, a, e, v⟩]))

variable {R : State → State → Prop}

/-! ## Draws and provider operations -/

/-- One inversion lemma for a `fails?` draw: it returns, and only the inputs have advanced. -/
theorem drawFail_cases (s : State) :
    (∃ b l, s.env.fails = b :: l ∧ drawFail.run s = .ok b (s.withFails l)) ∨
      (s.env.fails = [] ∧ drawFail.run s = .ok (Config.freeFail s.env.drawn) s.drawnOnce) := by
  simp only [drawFail, EStateM.run]
  split
  next b l h => exact .inl ⟨b, l, h, rfl⟩
  next h => exact .inr ⟨h, rfl⟩

theorem drawContent_cases (s : State) :
    (∃ t l, s.env.reads = t :: l ∧ drawContent.run s = .ok t (s.withReads l)) ∨
      (s.env.reads = [] ∧ drawContent.run s = .ok (Config.freeRead s.env.drawn) s.drawnOnce) := by
  simp only [drawContent, EStateM.run]
  split
  next b l h => exact .inl ⟨b, l, h, rfl⟩
  next h => exact .inr ⟨h, rfl⟩

theorem drawIrq_cases (s : State) :
    (∃ b l, s.env.irqs = b :: l ∧ drawIrq.run s = .ok b (s.withIrqs l)) ∨
      (s.env.irqs = [] ∧ drawIrq.run s = .ok (Config.freeIrq s.env.drawn) s.drawnOnce) := by
  simp only [drawIrq, EStateM.run]
  split
  next b l h => exact .inl ⟨b, l, h, rfl⟩
  next h => exact .inr ⟨h, rfl⟩

/-- R67: a provider operation draws once, then returns or raises `HardwareUnavailable`; nothing else has changed. -/
theorem provider_cases (p : Pin) (op : ProviderOp) (s : State) :
    ∃ u, (u = s.drawnOnce ∨ ∃ l, u = s.withFails l) ∧
      ((provider p op).run s = .ok ⟨⟩ u ∨ (provider p op).run s = .error (.hardwareUnavailable p op) u) := by
  unfold provider
  rcases drawFail_cases s with ⟨b, l, _, hd⟩ | ⟨_, hd⟩
  · refine ⟨s.withFails l, .inr ⟨l, rfl⟩, ?_⟩
    rw [op_bind_ok hd]
    cases b
    · exact .inl rfl
    · exact .inr rfl
  · refine ⟨s.drawnOnce, .inl rfl, ?_⟩
    rw [op_bind_ok hd]
    cases Config.freeFail s.env.drawn
    · exact .inl rfl
    · exact .inr rfl

theorem drawn_pin {s u : State} (h : u = s.drawnOnce ∨ ∃ l, u = s.withFails l) (q : Pin) : u.pin q = s.pin q := by
  rcases h with rfl | ⟨l, rfl⟩ <;> simp

theorem PrimActions.drew (hR : PrimActions R) {s u : State} (h : u = s.drawnOnce ∨ ∃ l, u = s.withFails l) :
    R s u := by
  rcases h with rfl | ⟨l, rfl⟩
  · exact hR.drawn s
  · exact hR.fails s l

/-! ## Pin primitives -/

/-- R61: what `ACQUIRE p` can do. -/
theorem pinAcquire_cases (p : Pin) (s : State) :
    ((s.pin p).acquired = true ∧ (pinAcquire p).run s = .ok ⟨⟩ s) ∨
      ((s.pin p).acquired = false ∧ ∃ u, (u = s.drawnOnce ∨ ∃ l, u = s.withFails l) ∧
        ((pinAcquire p).run s = .ok ⟨⟩ (((u.emit (.claim p)).setPin p PinRec.claimed).track p) ∨
          (pinAcquire p).run s = .error (.hardwareUnavailable p .claim) u)) := by
  unfold pinAcquire
  rw [op_bind_ok (op_get s)]
  by_cases h : (s.pin p).acquired = true
  · rw [if_pos h]
    exact .inl ⟨h, rfl⟩
  · rw [if_neg h]
    obtain ⟨u, hu, hp | hp⟩ := provider_cases p .claim s
    · exact .inr ⟨by simpa using h, u, hu, .inl (by rw [op_bind_ok hp]; rfl)⟩
    · exact .inr ⟨by simpa using h, u, hu, .inr (op_bind_error hp)⟩

theorem pinAcquire_acquires {p : Pin} {s t : State} {a : Unit} (h : (pinAcquire p).run s = .ok a t) :
    (t.pin p).acquired = true := by
  rcases pinAcquire_cases p s with ⟨ha, he⟩ | ⟨_, u, _, he | he⟩ <;> rw [he] at h <;> cases h
  · exact ha
  · simp [PinRec.claimed]

theorem keeps_pinAcquire (hR : PrimActions R) (p : Pin) : Keeps R (pinAcquire p) := by
  intro s
  rcases pinAcquire_cases p s with ⟨_, he⟩ | ⟨ha, u, hu, he | he⟩ <;> rw [he]
  · exact hR.refl s
  · refine hR.trans _ _ _ (hR.drew hu) (hR.trans _ _ _ (hR.emit u (.claim p)) (hR.claim _ p ?_))
    simpa [drawn_pin hu] using ha
  · exact hR.drew hu

/-- R62: what `SETDIR p d` can do after its acquire. -/
theorem keeps_pinSetDir (hR : PrimActions R) (p : Pin) (d : DirWord) : Keeps R (pinSetDir p d) := by
  intro s
  unfold pinSetDir
  have hk := keeps_pinAcquire hR p s
  cases ha : (pinAcquire p).run s with
  | error e u => rw [op_bind_error ha]; rw [ha] at hk; exact hk
  | ok a t =>
    rw [op_bind_ok ha]
    rw [ha] at hk
    have hacq := pinAcquire_acquires ha
    obtain ⟨u, hu, hp | hp⟩ := provider_cases p .direction t
    · rw [op_bind_ok hp]
      refine hR.trans _ _ _ hk (hR.trans _ _ _ (hR.drew hu) (hR.trans _ _ _ (hR.emit u (.dir p d)) (hR.dir _ p d ?_)))
      simpa [drawn_pin hu] using hacq
    · rw [op_bind_error hp]
      exact hR.trans _ _ _ hk (hR.drew hu)

theorem keeps_pinWrite (hR : PrimActions R) (p : Pin) (v : Int) : Keeps R (pinWrite p v) := by
  intro s
  unfold pinWrite
  have hk := keeps_pinAcquire hR p s
  cases ha : (pinAcquire p).run s with
  | error e u => rw [op_bind_error ha]; rw [ha] at hk; exact hk
  | ok a t =>
    rw [op_bind_ok ha]
    rw [ha] at hk
    have hacq := pinAcquire_acquires ha
    cases pinValueBit v with
    | none => exact hk
    | some b =>
      simp only
      rw [op_bind_ok (op_get t)]
      by_cases hd : (t.pin p).dir = .input
      · rw [if_pos hd]; exact hk
      · rw [if_neg hd]
        have hd' : (t.pin p).dir = .output := by
          cases h : (t.pin p).dir
          · exact absurd h hd
          · rfl
        obtain ⟨u, hu, hp | hp⟩ := provider_cases p .value t
        · rw [op_bind_ok hp]
          refine hR.trans _ _ _ hk (hR.trans _ _ _ (hR.drew hu)
            (hR.trans _ _ _ (hR.emit u (.wr p b)) (hR.level _ p b ?_ ?_)))
          · simpa [drawn_pin hu] using hacq
          · simpa [drawn_pin hu] using hd'
        · rw [op_bind_error hp]
          exact hR.trans _ _ _ hk (hR.drew hu)

theorem keeps_drawContent (hR : PrimActions R) : Keeps R drawContent := by
  intro s
  rcases drawContent_cases s with ⟨t, l, _, he⟩ | ⟨_, he⟩ <;> rw [he]
  · exact hR.reads s l
  · exact hR.drawn s

theorem keeps_provider (hR : PrimActions R) (p : Pin) (op : ProviderOp) : Keeps R (provider p op) := by
  intro s
  obtain ⟨u, hu, hp | hp⟩ := provider_cases p op s <;> rw [hp] <;> exact hR.drew hu

theorem keeps_emit (hR : PrimActions R) (e : Event) : Keeps R (emit e) := fun s => hR.emit s e

theorem keeps_pinRead (hR : PrimActions R) (p : Pin) : Keeps R (pinRead p) := by
  unfold pinRead
  refine keeps_bind hR.toComposes (keeps_pinAcquire hR p) fun _ => ?_
  refine keeps_bind hR.toComposes (keeps_get hR.toComposes) fun _ => ?_
  refine keeps_ite (fun _ => keeps_throw hR.toComposes _) fun _ => ?_
  refine keeps_bind hR.toComposes (keeps_provider hR p _) fun _ => ?_
  refine keeps_bind hR.toComposes (keeps_drawContent hR) fun c => ?_
  cases contentBit c with
  | none => exact keeps_throw hR.toComposes _
  | some b => exact keeps_bind hR.toComposes (keeps_emit hR _) fun _ => keeps_pure hR.toComposes _

theorem keeps_pinRelease (hR : PrimActions R) (p : Pin) : Keeps R (pinRelease p) := by
  intro s
  unfold pinRelease
  rw [op_bind_ok (op_get s)]
  by_cases h : (s.pin p).acquired = true
  · rw [if_pos h]
    obtain ⟨u, hu, hp | hp⟩ := provider_cases p .unclaim s
    · rw [op_bind_ok hp]
      refine hR.trans _ _ _ (hR.drew hu) (hR.trans _ _ _ (hR.emit u (.unclaim p)) (hR.unclaim _ p ?_))
      simpa [drawn_pin hu] using h
    · rw [op_bind_error hp]
      exact hR.drew hu
  · rw [if_neg h]
    exact hR.refl s

theorem keeps_pinEnsureOutWrite (hR : PrimActions R) (p : Pin) (b : Bit) : Keeps R (pinEnsureOutWrite p b) := by
  unfold pinEnsureOutWrite
  refine keeps_bind hR.toComposes (keeps_pinAcquire hR p) fun _ => ?_
  refine keeps_bind hR.toComposes (keeps_get hR.toComposes) fun _ => ?_
  exact keeps_ite (fun _ => keeps_pinSetDir hR p _) fun _ => keeps_pinWrite hR p _

/-! ## Transport and commands -/

theorem keeps_sendBits (hR : PrimActions R) (k sr : Nat) : Keeps R (sendBits k sr) := by
  induction k generalizing sr with
  | zero => exact keeps_pure hR.toComposes _
  | succ k ih =>
    unfold sendBits
    refine keeps_bind hR.toComposes (keeps_pinWrite hR _ _) fun _ => ?_
    refine keeps_bind hR.toComposes (keeps_pinWrite hR _ _) fun _ => ?_
    refine keeps_bind hR.toComposes (keeps_emit hR _) fun _ => ?_
    refine keeps_bind hR.toComposes (keeps_pinWrite hR _ _) fun _ => ?_
    exact keeps_bind hR.toComposes (keeps_emit hR _) fun _ => ih _

theorem keeps_busSend (hR : PrimActions R) (v n : Nat) : Keeps R (busSend v n) := by
  unfold busSend
  refine keeps_bind hR.toComposes (keeps_get hR.toComposes) fun _ => ?_
  refine keeps_ite (fun _ => ?_) fun _ => keeps_throw hR.toComposes _
  exact keeps_ite (fun _ => keeps_sendBits hR n v) fun _ => keeps_throw hR.toComposes _

theorem keeps_recvBits (hR : PrimActions R) (n k acc : Nat) : Keeps R (recvBits n k acc) := by
  induction k generalizing acc with
  | zero => exact keeps_pure hR.toComposes _
  | succ k ih =>
    unfold recvBits
    refine keeps_bind hR.toComposes (keeps_pinWrite hR _ _) fun _ => ?_
    refine keeps_bind hR.toComposes (keeps_emit hR _) fun _ => ?_
    refine keeps_bind hR.toComposes (keeps_pinRead hR _) fun _ => ?_
    refine keeps_bind hR.toComposes (keeps_pinWrite hR _ _) fun _ => ?_
    exact keeps_bind hR.toComposes (keeps_emit hR _) fun _ => ih _

theorem keeps_busRecv (hR : PrimActions R) (n : Nat) : Keeps R (busRecv n) := by
  unfold busRecv
  refine keeps_bind hR.toComposes (keeps_get hR.toComposes) fun _ => ?_
  refine keeps_ite (fun _ => ?_) fun _ => keeps_throw hR.toComposes _
  exact keeps_ite (fun _ => keeps_recvBits hR n n 0) fun _ => keeps_throw hR.toComposes _

theorem keeps_sendKey (hR : PrimActions R) : Keeps R sendKey := by
  unfold sendKey
  exact keeps_bind hR.toComposes (keeps_busSend hR _ _) fun _ => keeps_busSend hR _ _

theorem keeps_commandAdmit (hR : LineActions R) : Keeps R commandAdmit := by
  refine keeps_modify _ fun s => ?_
  split
  next h => exact hR.advance s _ (by rw [h]; decide)
  next => exact hR.refl s

theorem keeps_controlCommand (hR : LineActions R) (op : Nat) (t : Delay) : Keeps R (controlCommand op t) := by
  unfold controlCommand
  refine keeps_bind hR.toComposes (keeps_commandAdmit hR) fun _ => ?_
  exact keeps_bind hR.toComposes (keeps_busSend hR.toPrimActions _ _) fun _ => keeps_emit hR.toPrimActions _

theorem keeps_writeCommand (hR : LineActions R) (op d : Nat) : Keeps R (writeCommand op d) := by
  unfold writeCommand
  refine keeps_bind hR.toComposes (keeps_commandAdmit hR) fun _ => ?_
  refine keeps_bind hR.toComposes (keeps_busSend hR.toPrimActions _ _) fun _ => ?_
  refine keeps_bind hR.toComposes (keeps_emit hR.toPrimActions _) fun _ => ?_
  exact keeps_bind hR.toComposes (keeps_busSend hR.toPrimActions _ _) fun _ => keeps_emit hR.toPrimActions _

theorem keeps_readCommand (hR : LineActions R) (op : Nat) : Keeps R (readCommand op) := by
  unfold readCommand
  refine keeps_bind hR.toComposes (keeps_commandAdmit hR) fun _ => ?_
  refine keeps_bind hR.toComposes (keeps_busSend hR.toPrimActions _ _) fun _ => ?_
  refine keeps_bind hR.toComposes (keeps_emit hR.toPrimActions _) fun _ => ?_
  refine keeps_bind hR.toComposes (keeps_pinSetDir hR.toPrimActions _ _) fun _ => ?_
  refine keeps_bind hR.toComposes (keeps_busRecv hR.toPrimActions _) fun _ => ?_
  refine keeps_bind hR.toComposes (keeps_pinSetDir hR.toPrimActions _ _) fun _ => ?_
  exact keeps_bind hR.toComposes (keeps_emit hR.toPrimActions _) fun _ => keeps_pure hR.toComposes _

/-! ## Teardown and abort -/

theorem collect_keeps {x : Op Unit} (hx : Keeps R x) (p : Pin) (r : List (Pin × OpError) × State) :
    R r.2 (collect p x r).2 := by
  have h := hx r.2
  unfold collect
  cases hxs : x.run r.2 with
  | ok a t => rw [hxs] at h; exact h
  | error e t => rw [hxs] at h; exact h

theorem teardownPins_keeps (hR : LineActions R) (ps : List Pin) (r : List (Pin × OpError) × State) :
    R r.2 (teardownPins ps r).2 := by
  induction ps generalizing r with
  | nil => exact hR.refl _
  | cons p ps ih =>
    unfold teardownPins
    split
    · exact hR.trans _ _ _ (collect_keeps (keeps_pinSetDir hR.toPrimActions p _) p r)
        (hR.trans _ _ _ (collect_keeps (keeps_pinRelease hR.toPrimActions p) p _) (ih _))
    · exact ih r

theorem releaseReset_keeps (hR : LineActions R) (s : State) : R s (releaseReset s).2 := by
  unfold releaseReset
  split
  · exact collect_keeps (keeps_pinEnsureOutWrite hR.toPrimActions .rst true) .rst ([], s)
  · exact hR.refl s

theorem exited_index (st : SessionState) : st.index ≤ SessionState.index .exited := by cases st <;> decide

theorem teardown_keeps (hR : LineActions R) (s : State) : R s (teardown s).2 :=
  hR.trans _ _ _ (releaseReset_keeps hR s)
    (hR.trans _ _ _ (teardownPins_keeps hR _ _) (hR.advance _ _ (exited_index _)))

theorem abort_keeps (hR : LineActions R) (e : OpError) (s : State) : R s (abort e s) := by
  unfold abort
  refine hR.trans _ _ _ (hR.recordErr s (.op e)) ?_
  simp only
  split
  · exact hR.addResult _ _
  · exact hR.trans _ _ _ (teardown_keeps hR _) (hR.addResult _ _)

theorem complete_keeps (hR : LineActions R) {body : Op Value} (hb : Keeps R body) (s : State) :
    R s (complete body s) := by
  have h := hb s
  unfold complete
  cases hs : body.run s with
  | ok v t => rw [hs] at h; exact hR.trans _ _ _ h (hR.addResult _ _)
  | error e t => rw [hs] at h; exact hR.trans _ _ _ h (abort_keeps hR e t)

theorem completeExit_keeps (hR : LineActions R) (s : State) : R s (completeExit s) := by
  unfold completeExit
  simp only
  split
  · exact hR.trans _ _ _ (teardown_keeps hR s) (hR.addResult _ _)
  · exact hR.trans _ _ _ (teardown_keeps hR s) (hR.trans _ _ _ (hR.recordErr _ _) (hR.addResult _ _))

/-- R110, R113: what a guarded invocation can answer. -/
theorem guarded_cases (c : OpClass) (bad : Option RefuseReason) (run : State → State) (s : State) :
    (∃ w, bad = some w ∧ guarded c bad run s = .next (s.refuse w)) ∨
      (bad = none ∧ admits c s.state = false ∧ guarded c bad run s = .next (s.refuse .stateNotAdmitted)) ∨
      (bad = none ∧ admits c s.state = true ∧ guarded c bad run s = .next (run s)) := by
  unfold guarded
  cases bad with
  | some w => exact .inl ⟨w, rfl, rfl⟩
  | none =>
    cases h : admits c s.state
    · exact .inr (.inl ⟨rfl, rfl, by simp⟩)
    · exact .inr (.inr ⟨rfl, rfl, by simp⟩)

theorem guarded_keeps (hR : LineActions R) {c : OpClass} {bad : Option RefuseReason} {run : State → State} {s t : State}
    (hr : admits c s.state = true → R s (run s)) (h : guarded c bad run s = .next t) : R s t := by
  rcases guarded_cases c bad run s with ⟨w, _, he⟩ | ⟨_, _, he⟩ | ⟨_, ha, he⟩ <;> rw [he] at h <;> cases h
  · exact hR.refuse s w
  · exact hR.refuse s _
  · exact hr ha

theorem keeps_noValue (hR : Composes R) {x : Op Unit} (hx : Keeps R x) : Keeps R (noValue x) :=
  keeps_bind hR hx fun _ => keeps_pure hR _

theorem invoke_keeps (hR : LineActions R) {c : OpClass} {bad : Option RefuseReason} {body : Op Value} {s t : State}
    (hb : Keeps R body) (h : invoke c bad body s = .next t) : R s t :=
  guarded_keeps hR (fun _ => complete_keeps hR hb s) h

/-! ## Session operations -/

/-- A pin or transport operation leaves everything but the pins, the tracked list, the trace and the inputs. -/
structure PrimFrame (s t : State) : Prop where
  state : t.state = s.state
  cfg : t.cfg = s.cfg
  snap : t.snap = s.snap
  mismatches : t.mismatches = s.mismatches
  err : t.err = s.err
  refused : t.refused = s.refused
  irqPending : t.irqPending = s.irqPending
  results : t.results = s.results
  host : t.host = s.host
  irqs : t.env.irqs = s.env.irqs

theorem primFrame_actions : PrimActions PrimFrame where
  refl _ := ⟨rfl, rfl, rfl, rfl, rfl, rfl, rfl, rfl, rfl, rfl⟩
  trans _ _ _ h h' :=
    ⟨h'.1.trans h.1, h'.2.trans h.2, h'.3.trans h.3, h'.4.trans h.4, h'.5.trans h.5, h'.6.trans h.6, h'.7.trans h.7,
      h'.8.trans h.8, h'.9.trans h.9, h'.10.trans h.10⟩
  fails _ _ := ⟨rfl, rfl, rfl, rfl, rfl, rfl, rfl, rfl, rfl, rfl⟩
  reads _ _ := ⟨rfl, rfl, rfl, rfl, rfl, rfl, rfl, rfl, rfl, rfl⟩
  drawn _ := ⟨rfl, rfl, rfl, rfl, rfl, rfl, rfl, rfl, rfl, rfl⟩
  emit _ _ := ⟨rfl, rfl, rfl, rfl, rfl, rfl, rfl, rfl, rfl, rfl⟩
  claim _ _ _ := ⟨by simp, by simp, by simp, by simp, by simp, by simp, by simp, by simp, by simp, by simp⟩
  dir _ _ _ _ := ⟨by simp, by simp, by simp, by simp, by simp, by simp, by simp, by simp, by simp, by simp⟩
  level _ _ _ _ _ := ⟨by simp, by simp, by simp, by simp, by simp, by simp, by simp, by simp, by simp, by simp⟩
  unclaim _ _ _ := ⟨by simp, by simp, by simp, by simp, by simp, by simp, by simp, by simp, by simp, by simp⟩

theorem sessionReset_keeps (hR : LineActions R) (s : State) (h : s.state.index ≤ 1) :
    R s (finalState (sessionReset.run s)) := by
  unfold sessionReset
  have hf := keeps_pinEnsureOutWrite primFrame_actions .rst false s
  have hk := keeps_pinEnsureOutWrite hR.toPrimActions .rst false s
  cases hx : (pinEnsureOutWrite .rst false).run s with
  | error e t => rw [op_bind_error hx]; rw [hx] at hk; exact hk
  | ok a t =>
    rw [op_bind_ok hx]
    rw [hx] at hk hf
    refine hR.trans _ _ _ hk (hR.trans _ _ _ (hR.emit t (.hold .tReset)) (hR.advance _ .reset ?_))
    have hst : t.state = s.state := hf.state
    rw [State.emit_state, hst]
    exact h

/-- R90: everything `ENTER_LVP` does before it writes the session state. -/
def enterLvpLines : Op Unit := do
  pinEnsureOutWrite .clk false
  pinSetDir .dat .dirOut
  sendKey
  emit (.hold .tEntry)

theorem enterLvp_eq : enterLvp = enterLvpLines >>= fun _ => modify fun s => s.withState .lvpEntered := by
  simp only [enterLvp, enterLvpLines, bind_assoc]

theorem keeps_enterLvpLines (hR : PrimActions R) : Keeps R enterLvpLines := by
  unfold enterLvpLines
  refine keeps_bind hR.toComposes (keeps_pinEnsureOutWrite hR _ _) fun _ => ?_
  refine keeps_bind hR.toComposes (keeps_pinSetDir hR _ _) fun _ => ?_
  exact keeps_bind hR.toComposes (keeps_sendKey hR) fun _ => keeps_emit hR _

theorem enterLvp_keeps (hR : LineActions R) (s : State) (h : s.state = .reset) :
    R s (finalState (enterLvp.run s)) := by
  rw [enterLvp_eq]
  have hf := keeps_enterLvpLines primFrame_actions s
  have hk := keeps_enterLvpLines hR.toPrimActions s
  cases hx : enterLvpLines.run s with
  | error e t => rw [op_bind_error hx]; rw [hx] at hk; exact hk
  | ok a t =>
    rw [op_bind_ok hx]
    rw [hx] at hk hf
    refine hR.trans _ _ _ hk (hR.advance t .lvpEntered ?_)
    have hst : t.state = s.state := hf.state
    rw [hst, h]
    decide

theorem finalState_noValue (x : Op Unit) (s : State) : finalState ((noValue x).run s) = finalState (x.run s) := by
  unfold noValue
  rw [op_bind]
  cases x.run s <;> rfl

theorem complete_keeps_from (hR : LineActions R) {body : Op Value} {s : State} (h : R s (finalState (body.run s))) :
    R s (complete body s) := by
  unfold complete
  cases hs : body.run s with
  | ok v t => rw [hs] at h; exact hR.trans _ _ _ h (hR.addResult _ _)
  | error e t => rw [hs] at h; exact hR.trans _ _ _ h (abort_keeps hR e t)

/-! ## Every operation but `VERIFY` and `SESSION_NEW` -/

/-- The operations that touch the comparator or begin a session. -/
def Instr.isLine : Instr → Bool
  | .verify _ => false
  | .sessionNew _ => false
  | _ => true

/-- A relation that holds across the elementary actions holds across every operation but `VERIFY` and `SESSION_NEW`. -/
theorem exec_line_actions (hR : LineActions R) (i : Instr) (hi : Instr.isLine i = true) {s t : State}
    (h : exec i s = .next t) : R s t := by
  have hP := hR.toPrimActions
  have hC := hR.toComposes
  cases i with
  | loadConfig d =>
    rw [exec_loadConfig] at h
    exact invoke_keeps hR (keeps_noValue hC (keeps_writeCommand hR _ _)) h
  | loadData d =>
    rw [exec_loadData] at h
    exact invoke_keeps hR (keeps_noValue hC (keeps_writeCommand hR _ _)) h
  | readData =>
    rw [exec_readData] at h
    exact invoke_keeps hR (keeps_bind hC (keeps_readCommand hR _) fun _ => keeps_pure hC _) h
  | incAddr =>
    rw [exec_incAddr] at h
    exact invoke_keeps hR (keeps_noValue hC (keeps_controlCommand hR _ _)) h
  | resetAddr =>
    rw [exec_resetAddr] at h
    exact invoke_keeps hR (keeps_noValue hC (keeps_controlCommand hR _ _)) h
  | beginProg =>
    rw [exec_beginProg] at h
    exact invoke_keeps hR (keeps_noValue hC (keeps_controlCommand hR _ _)) h
  | bulkErase =>
    rw [exec_bulkErase] at h
    exact invoke_keeps hR (keeps_noValue hC (keeps_controlCommand hR _ _)) h
  | rowErase =>
    rw [exec_rowErase] at h
    exact invoke_keeps hR (keeps_noValue hC (keeps_controlCommand hR _ _)) h
  | lvpKey =>
    rw [exec_lvpKey] at h
    exact invoke_keeps hR (keeps_noValue hC (keeps_sendKey hP)) h
  | acquire p =>
    rw [exec_acquire] at h
    exact invoke_keeps hR (keeps_noValue hC (keeps_pinAcquire hP _)) h
  | setDir p d =>
    rw [exec_setDir] at h
    refine invoke_keeps hR (keeps_noValue hC ?_) h
    cases d with
    | word d => exact keeps_pinSetDir hP _ _
    | other t => exact keeps_pure hC _
  | write p v =>
    rw [exec_write] at h
    exact invoke_keeps hR (keeps_noValue hC (keeps_pinWrite hP _ _)) h
  | read p =>
    rw [exec_read] at h
    exact invoke_keeps hR (keeps_bind hC (keeps_pinRead hP _) fun _ => keeps_pure hC _) h
  | release p =>
    rw [exec_release] at h
    exact invoke_keeps hR (keeps_noValue hC (keeps_pinRelease hP _)) h
  | ensureOutWrite p b =>
    rw [exec_ensureOutWrite] at h
    exact invoke_keeps hR (keeps_noValue hC (keeps_pinEnsureOutWrite hP _ _)) h
  | reverse v n =>
    rw [exec_reverse] at h
    exact invoke_keeps hR (keeps_pure hC _) h
  | send v n =>
    rw [exec_send] at h
    exact invoke_keeps hR (keeps_noValue hC (keeps_busSend hP _ _)) h
  | recv n =>
    rw [exec_recv] at h
    exact invoke_keeps hR (keeps_bind hC (keeps_busRecv hP _) fun _ => keeps_pure hC _) h
  | sessionNew c => cases hi
  | reset =>
    rw [exec_reset] at h
    refine guarded_keeps hR (fun ha => complete_keeps_from hR ?_) h
    rw [finalState_noValue]
    refine sessionReset_keeps hR s ?_
    revert ha
    cases s.state <;> decide
  | enterLvp =>
    rw [exec_enterLvp] at h
    refine guarded_keeps hR (fun ha => complete_keeps_from hR ?_) h
    rw [finalState_noValue]
    refine enterLvp_keeps hR s ?_
    revert ha
    cases s.state <;> decide
  | exit =>
    rw [exec_exit] at h
    exact guarded_keeps hR (fun _ => completeExit_keeps hR s) h
  | verify n => cases hi
  | interrupt =>
    rw [exec_interrupt] at h
    exact invoke_keeps hR (keeps_throw hC _) h

/-! ## `VERIFY` -/

theorem keeps_boundary (hR : VerifyActions R) : Keeps R boundary := by
  intro s
  unfold boundary
  have key : ∀ b u, R s u → R s (finalState ((do
      if (← get).irqPending || b then do
        modify (fun s => s.withIrqPending false)
        throw .interrupted
      else pure () : Op Unit).run u)) := by
    intro b u hu
    rw [op_bind_ok (op_get u)]
    split
    · exact hR.trans _ _ _ hu (hR.irqTaken u)
    · exact hu
  rcases drawIrq_cases s with ⟨b, l, _, hd⟩ | ⟨_, hd⟩
  · rw [op_bind_ok hd]; exact key b _ (hR.irqs s l)
  · rw [op_bind_ok hd]; exact key _ _ (hR.drawn s)

theorem keeps_record (hR : VerifyActions R) (a : Nat) (v : Word) : Keeps R (record a v) := fun s => hR.record s a v

theorem keeps_compare (hR : VerifyActions R) (i a : Nat) (v : Word) (hi : 1 ≤ i) : Keeps R (compare i a v) := by
  intro s
  unfold compare
  rw [op_bind_ok (op_get s)]
  cases Memory.read s.snap a with
  | none => exact hR.refl s
  | some e =>
    simp only
    split
    · exact hR.refl s
    next hne => exact hR.mismatch s i a e v hi hne

theorem keeps_verifyWord (hR : VerifyActions R) (i k : Nat) : Keeps R (verifyWord i k) := by
  have hL := hR.toLineActions
  unfold verifyWord
  refine keeps_bind hL.toComposes (keeps_get hL.toComposes) fun s => ?_
  refine keeps_bind hL.toComposes (keeps_readCommand hL _) fun v => ?_
  have hw : Keeps R (checkWord i (s.cfg.verifyBase + k) v) :=
    keeps_ite (fun _ => keeps_record hR _ _) fun hi => keeps_compare hR i _ v (Nat.one_le_iff_ne_zero.2 hi)
  refine keeps_bind hL.toComposes hw fun _ => ?_
  exact keeps_bind hL.toComposes (keeps_boundary hR) fun _ => keeps_controlCommand hL _ _

theorem keeps_verifyWords (hR : VerifyActions R) (i k n : Nat) : Keeps R (verifyWords i k n) := by
  have hC := hR.toComposes
  induction n generalizing k with
  | zero => unfold verifyWords; exact keeps_pure hC _
  | succ n ih =>
    unfold verifyWords
    refine keeps_bind hC (keeps_boundary hR) fun _ => ?_
    exact keeps_bind hC (keeps_verifyWord hR i k) fun _ => ih (k + 1)

theorem keeps_verifyPass (hR : VerifyActions R) (i : Nat) : Keeps R (verifyPass i) := by
  have hL := hR.toLineActions
  have hC := hR.toComposes
  unfold verifyPass
  refine keeps_bind hC (keeps_writeCommand hL _ _) fun _ => ?_
  refine keeps_bind hC (keeps_get hC) fun s => ?_
  refine keeps_bind hC (keeps_verifyWords hR i 0 _) fun _ => ?_
  exact keeps_bind hC (keeps_boundary hR) fun _ => keeps_controlCommand hL _ _

theorem keeps_verifyPasses (hR : VerifyActions R) (i n : Nat) : Keeps R (verifyPasses i n) := by
  have hC := hR.toComposes
  induction n generalizing i with
  | zero => unfold verifyPasses; exact keeps_pure hC _
  | succ n ih =>
    unfold verifyPasses
    have hb : Keeps R (passBoundary i) :=
      keeps_ite (fun _ => keeps_pure hC _) fun _ => keeps_boundary hR
    refine keeps_bind hC hb fun _ => ?_
    exact keeps_bind hC (keeps_verifyPass hR i) fun _ => ih (i + 1)

theorem keeps_verifyAll (hR : VerifyActions R) (n : Nat) : Keeps R (verifyAll n) := by
  have hC := hR.toComposes
  unfold verifyAll
  refine keeps_bind hC (keeps_modify _ fun s => hR.clear s) fun _ => ?_
  refine keeps_bind hC (keeps_verifyPasses hR 0 n) fun _ => ?_
  exact keeps_bind hC (keeps_get hC) fun _ => keeps_pure hC _

/-- A relation that holds across all the elementary actions holds across every operation but `SESSION_NEW`. -/
theorem exec_actions (hR : VerifyActions R) (i : Instr) (hi : ∀ c, i ≠ .sessionNew c) {s t : State}
    (h : exec i s = .next t) : R s t := by
  by_cases hl : Instr.isLine i = true
  · exact exec_line_actions hR.toLineActions i hl h
  · cases i with
    | sessionNew c => exact absurd rfl (hi c)
    | verify n =>
      rw [exec_verify] at h
      exact invoke_keeps hR.toLineActions (keeps_verifyAll hR n) h
    | _ => exact absurd rfl hl

/-- R88: what `SESSION_NEW` can answer. -/
theorem execSessionNew_cases (c : SessionConfig) (s : State) :
    (c.pinsDistinct = false ∧ exec (.sessionNew c) s = .next (s.refuse .pinsNotDistinct)) ∨
      (c.pinsDistinct = true ∧ exec (.sessionNew c) s = .next ((newSession c s).addResult (.ok .unit))) := by
  simp only [exec, execSessionNew, configRefusal]
  cases c.pinsDistinct
  · exact .inl ⟨rfl, rfl⟩
  · exact .inr ⟨rfl, rfl⟩

end Sys2Proof.Machine
end

