-- ==== Sys2Proof/Laws/Values.lean ====
section
/-! SUPPORT. The laws of bit fields: the bits of a value, the value of bits (spec/20_memory.md R33), bit reversal
(spec/41_bit_transport.md R70) and the accumulator of a receive (R72). -/

namespace Sys2Proof

theorem bitsOf_length (n v : Nat) : (bitsOf n v).length = n := by
  induction n generalizing v with
  | zero => rfl
  | succ n ih => simp [bitsOf, ih]

theorem valueOf_lt (bs : List Bit) : valueOf bs < 2 ^ bs.length := by
  induction bs with
  | nil => simp [valueOf]
  | cons b bs ih =>
    have : b.toNat ≤ 1 := by cases b <;> decide
    simp only [valueOf, List.length_cons, Nat.pow_succ]
    omega

theorem valueOf_bitsOf (n v : Nat) : valueOf (bitsOf n v) = v % 2 ^ n := by
  induction n generalizing v with
  | zero => simp [bitsOf, valueOf, Nat.mod_one]
  | succ n ih =>
    have h : (v % 2 == 1).toNat = v % 2 := by rcases Nat.mod_two_eq_zero_or_one v with h | h <;> simp [h]
    simp only [bitsOf, valueOf, ih, h, Nat.pow_succ]
    rw [Nat.mul_comm (2 ^ n) 2, Nat.mod_mul]

theorem bitsOf_valueOf (bs : List Bit) : bitsOf bs.length (valueOf bs) = bs := by
  induction bs with
  | nil => rfl
  | cons b bs ih =>
    simp only [List.length_cons, bitsOf, valueOf]
    have hb : b.toNat ≤ 1 := by cases b <;> decide
    have h1 : (b.toNat + 2 * valueOf bs) % 2 = b.toNat := by omega
    have h2 : (b.toNat + 2 * valueOf bs) / 2 = valueOf bs := by omega
    rw [h1, h2, ih]
    cases b <;> rfl

theorem valueOf_append (bs : List Bit) (b : Bit) :
    valueOf (bs ++ [b]) = valueOf bs + 2 ^ bs.length * b.toNat := by
  induction bs with
  | nil => simp [valueOf]
  | cons c bs ih =>
    simp only [List.cons_append, valueOf, ih, List.length_cons, Nat.pow_succ]
    ring

theorem bitsOf_getElem? (n v j : Nat) : (bitsOf n v)[j]? = if j < n then some (v.testBit j) else none := by
  induction n generalizing v j with
  | zero => simp [bitsOf]
  | succ n ih =>
    cases j with
    | zero =>
      rw [Nat.testBit_zero]
      rcases Nat.mod_two_eq_zero_or_one v with h | h <;> simp [bitsOf, h]
    | succ j => simp [bitsOf, ih, Nat.testBit_succ]

theorem valueOf_testBit (bs : List Bit) (j : Nat) : (valueOf bs).testBit j = bs[j]?.getD false := by
  have h := bitsOf_getElem? bs.length (valueOf bs) j
  rw [bitsOf_valueOf] at h
  rw [h]
  split
  · rfl
  next hj =>
    rw [Nat.testBit_lt_two_pow]
    · rfl
    · exact Nat.lt_of_lt_of_le (valueOf_lt bs) (Nat.pow_le_pow_right (by decide) (by omega))

namespace Machine

/-- R72: one step of the accumulator. -/
def shiftIn (n acc : Nat) (b : Bit) : Nat := (acc >>> 1) ||| (b.toNat <<< (n - 1))

theorem shiftIn_prefix (m p : Nat) (v : Nat) (b : Bit) (hv : v < 2 ^ p) :
    shiftIn (p + m + 1) (v * 2 ^ (m + 1)) b = (v + 2 ^ p * b.toNat) * 2 ^ m := by
  have h1 : (v * 2 ^ (m + 1)) >>> 1 = v * 2 ^ m := by
    rw [Nat.shiftRight_eq_div_pow, Nat.pow_succ, ← Nat.mul_assoc]
    simp
  have hlt : v * 2 ^ m < 2 ^ (p + m) := by
    rw [Nat.pow_add]
    exact Nat.mul_lt_mul_of_pos_right hv (Nat.two_pow_pos m)
  unfold shiftIn
  rw [h1, Nat.or_comm, Nat.add_sub_cancel, ← Nat.shiftLeft_add_eq_or_of_lt hlt, Nat.shiftLeft_eq, Nat.pow_add]
  ring

/-- R72: the bit received first becomes bit 0. -/
theorem foldl_shiftIn (n : Nat) (pre bs : List Bit) (h : pre.length + bs.length = n) :
    bs.foldl (shiftIn n) (valueOf pre * 2 ^ bs.length) = valueOf (pre ++ bs) := by
  induction bs generalizing pre with
  | nil => simp
  | cons b bs ih =>
    have hn : n = pre.length + bs.length + 1 := by rw [← h]; simp; omega
    rw [List.foldl_cons, List.length_cons, hn, shiftIn_prefix _ _ _ _ (valueOf_lt pre), ← valueOf_append]
    have := ih (pre ++ [b]) (by rw [hn]; simp; omega)
    rw [hn] at this
    rw [this]
    simp

theorem foldl_shiftIn_zero (bs : List Bit) : bs.foldl (shiftIn bs.length) 0 = valueOf bs := by
  have := foldl_shiftIn bs.length [] bs (by simp)
  simpa [valueOf] using this

/-! ## Bit reversal -/

theorem one_and_testBit (v i : Nat) : (v >>> i) &&& 1 = (v.testBit i).toNat := by
  rw [Nat.testBit, Nat.and_comm]
  have h : 1 &&& v >>> i ≤ 1 := Nat.and_le_left
  interval_cases h' : (1 &&& v >>> i)
  · simp
  · simp

theorem reverseLoop_testBit (v n k i r j : Nat) :
    (reverseLoop v n k i r).testBit j = true ↔
      r.testBit j = true ∨ ∃ m, i ≤ m ∧ m < i + k ∧ j = n - 1 - m ∧ v.testBit m = true := by
  induction k generalizing i r with
  | zero =>
    simp only [reverseLoop, Nat.add_zero]
    constructor
    · exact .inl
    · rintro (h | ⟨m, h1, h2, _⟩)
      · exact h
      · omega
  | succ k ih =>
    rw [reverseLoop, ih, one_and_testBit, Nat.testBit_or, Nat.testBit_shiftLeft]
    have hb : ((v.testBit i).toNat.testBit (j - (n - 1 - i))) = true ↔ v.testBit i = true ∧ j - (n - 1 - i) = 0 := by
      cases v.testBit i
      · simp
      · simp [Nat.testBit, Nat.shiftRight_eq_div_pow]
        cases h : j - (n - 1 - i)
        · simp
        next m =>
          have h2 : 1 / 2 ^ (m + 1) = 0 := Nat.div_eq_of_lt (Nat.one_lt_two_pow (by omega))
          simp [h2]
    rw [Bool.or_eq_true, Bool.and_eq_true, hb, decide_eq_true_eq, or_assoc]
    refine or_congr Iff.rfl ⟨?_, ?_⟩
    · rintro (⟨h1, h2, h3⟩ | ⟨m, h1, h2, h3, h4⟩)
      · exact ⟨i, by omega, by omega, by omega, h2⟩
      · exact ⟨m, by omega, by omega, h3, h4⟩
    · rintro ⟨m, h1, h2, h3, h4⟩
      by_cases hm : m = i
      · subst hm
        exact .inl ⟨by omega, h4, by omega⟩
      · exact .inr ⟨m, by omega, by omega, h3, h4⟩

/-- R70: bit `i` of the input is bit `n-1-i` of the output, and the output has no other bit. -/
theorem reverseBits_testBit (v n j : Nat) : (reverseBits v n).testBit j = true ↔ j < n ∧ v.testBit (n - 1 - j) = true := by
  unfold reverseBits
  rw [reverseLoop_testBit, Nat.zero_testBit]
  constructor
  · rintro (h | ⟨m, _, h2, h3, h4⟩)
    · cases h
    · refine ⟨by omega, ?_⟩
      rw [show n - 1 - j = m by omega]
      exact h4
  · rintro ⟨h1, h2⟩
    exact .inr ⟨n - 1 - j, by omega, by omega, by omega, h2⟩

theorem reverseBits_lt (v n : Nat) : reverseBits v n < 2 ^ n := by
  refine Nat.lt_pow_two_of_testBit _ fun j hj => ?_
  rw [Bool.eq_false_iff, ne_eq, reverseBits_testBit]
  omega

end Machine

end Sys2Proof
end

