-- ==== Sys2Proof/Laws/PerInstr.lean ====
section
/-! SUPPORT. Statements made for every constructor of Instr, one lemma each. -/

namespace Sys2Proof.Laws

/-- R47 to R50, R54, R58: how many clocks the frame of an operation has; a host operation has no frame. -/
def clocks : Instr → Nat
  | .loadConfig _ => 22
  | .loadData _ => 22
  | .readData => 22
  | .incAddr => 6
  | .resetAddr => 6
  | .beginProg => 6
  | .bulkErase => 6
  | .rowErase => 6
  | .lvpKey => 33
  | .acquire _ => 0
  | .setDir _ _ => 0
  | .write _ _ => 0
  | .read _ => 0
  | .release _ => 0
  | .ensureOutWrite _ _ => 0
  | .reverse _ _ => 0
  | .send _ _ => 0
  | .recv _ => 0
  | .sessionNew _ => 0
  | .reset => 0
  | .enterLvp => 0
  | .exit => 0
  | .verify _ => 0
  | .interrupt => 0

/-- R54: the frame of the operation is as long as its format says. -/
def FrameLength.Statement (i : Instr) : Prop := (encodeFrame i).length = clocks i

theorem FrameLength.loadConfig (d : Nat) : FrameLength.Statement (.loadConfig d) := by
  simp [FrameLength.Statement, encodeFrame, wireFrame, drivenField, bitsOf_length, clocks]

theorem FrameLength.loadData (d : Nat) : FrameLength.Statement (.loadData d) := by
  simp [FrameLength.Statement, encodeFrame, wireFrame, drivenField, bitsOf_length, clocks]

theorem FrameLength.readData : FrameLength.Statement .readData := rfl

theorem FrameLength.incAddr : FrameLength.Statement .incAddr := rfl

theorem FrameLength.resetAddr : FrameLength.Statement .resetAddr := rfl

theorem FrameLength.beginProg : FrameLength.Statement .beginProg := rfl

theorem FrameLength.bulkErase : FrameLength.Statement .bulkErase := rfl

theorem FrameLength.rowErase : FrameLength.Statement .rowErase := rfl

theorem FrameLength.lvpKey : FrameLength.Statement .lvpKey := rfl

theorem FrameLength.acquire (p : Pin) : FrameLength.Statement (.acquire p) := rfl

theorem FrameLength.setDir (p : Pin) (d : DirArg) : FrameLength.Statement (.setDir p d) := rfl

theorem FrameLength.write (p : Pin) (v : Int) : FrameLength.Statement (.write p v) := rfl

theorem FrameLength.read (p : Pin) : FrameLength.Statement (.read p) := rfl

theorem FrameLength.release (p : Pin) : FrameLength.Statement (.release p) := rfl

theorem FrameLength.ensureOutWrite (p : Pin) (b : Bit) : FrameLength.Statement (.ensureOutWrite p b) := rfl

theorem FrameLength.reverse (v n : Nat) : FrameLength.Statement (.reverse v n) := rfl

theorem FrameLength.send (v n : Nat) : FrameLength.Statement (.send v n) := rfl

theorem FrameLength.recv (n : Nat) : FrameLength.Statement (.recv n) := rfl

theorem FrameLength.sessionNew (c : SessionConfig) : FrameLength.Statement (.sessionNew c) := rfl

theorem FrameLength.reset : FrameLength.Statement .reset := rfl

theorem FrameLength.enterLvp : FrameLength.Statement .enterLvp := rfl

theorem FrameLength.exit : FrameLength.Statement .exit := rfl

theorem FrameLength.verify (n : Nat) : FrameLength.Statement (.verify n) := rfl

theorem FrameLength.interrupt : FrameLength.Statement .interrupt := rfl

end Sys2Proof.Laws
end

