-- ==== Sys2Proof/Laws/Serves.lean ====
section
/-! SUPPORT. What the shared operations give when the provider serves the engine: the exact next state, one lemma per
operation (spec/40_gpio_pins.md to spec/44_verification.md). -/

namespace Sys2Proof.Machine

/-! ## The state after line events -/

section
variable (s : State) (evs : List Event) (ps : PinTable) (f : List Bool) (r : List (List Char))

@[simp] theorem State.afterLines_state : (s.afterLines evs ps f r).state = s.state := rfl
@[simp] theorem State.afterLines_cfg : (s.afterLines evs ps f r).cfg = s.cfg := rfl
@[simp] theorem State.afterLines_pins : (s.afterLines evs ps f r).pins = ps := rfl
@[simp] theorem State.afterLines_tracked : (s.afterLines evs ps f r).tracked = s.tracked := rfl
@[simp] theorem State.afterLines_snap : (s.afterLines evs ps f r).snap = s.snap := rfl
@[simp] theorem State.afterLines_mismatches : (s.afterLines evs ps f r).mismatches = s.mismatches := rfl
@[simp] theorem State.afterLines_err : (s.afterLines evs ps f r).err = s.err := rfl
@[simp] theorem State.afterLines_refused : (s.afterLines evs ps f r).refused = s.refused := rfl
@[simp] theorem State.afterLines_trace : (s.afterLines evs ps f r).trace = s.trace ++ evs := rfl
@[simp] theorem State.afterLines_irqPending : (s.afterLines evs ps f r).irqPending = s.irqPending := rfl
@[simp] theorem State.afterLines_results : (s.afterLines evs ps f r).results = s.results := rfl
@[simp] theorem State.afterLines_host : (s.afterLines evs ps f r).host = s.host := rfl
@[simp] theorem State.afterLines_fails : (s.afterLines evs ps f r).env.fails = f := rfl
@[simp] theorem State.afterLines_reads : (s.afterLines evs ps f r).env.reads = r := rfl
@[simp] theorem State.afterLines_irqs : (s.afterLines evs ps f r).env.irqs = s.env.irqs := rfl

theorem State.afterLines_afterLines (evs' : List Event) (ps' : PinTable) (f' : List Bool) (r' : List (List Char)) :
    (s.afterLines evs ps f r).afterLines evs' ps' f' r' = s.afterLines (evs ++ evs') ps' f' r' := by
  simp [State.afterLines]

theorem State.afterLines_nil : s.afterLines [] s.pins s.env.fails s.env.reads = s := by
  simp [State.afterLines]

theorem State.emit_afterLines (e : Event) : (s.afterLines evs ps f r).emit e = s.afterLines (evs ++ [e]) ps f r := by
  simp [State.afterLines, State.emit]

theorem State.withState_afterLines (st : SessionState) :
    (s.afterLines evs ps f r).withState st = (s.withState st).afterLines evs ps f r := rfl

end

theorem State.pin_eq (s : State) (p : Pin) : s.pin p = s.pins.get p := by cases p <;> rfl

@[simp] theorem State.afterLines_pin (s : State) (evs : List Event) (ps : PinTable) (f : List Bool)
    (r : List (List Char)) (p : Pin) : (s.afterLines evs ps f r).pin p = ps.get p := by cases p <;> rfl

@[simp] theorem PinTable.get_set (t : PinTable) (p q : Pin) (r : PinRec) :
    (t.set p r).get q = if q = p then r else t.get q := by
  cases p <;> cases q <;> rfl

@[simp] theorem PinTable.get_rst (t : PinTable) : t.get .rst = t.rst := rfl
@[simp] theorem PinTable.get_clk (t : PinTable) : t.get .clk = t.clk := rfl
@[simp] theorem PinTable.get_dat (t : PinTable) : t.get .dat = t.dat := rfl
theorem PinTable.set_rst (t : PinTable) (r : PinRec) : t.set .rst r = { t with rst := r } := rfl
theorem PinTable.set_clk (t : PinTable) (r : PinRec) : t.set .clk r = { t with clk := r } := rfl
theorem PinTable.set_dat (t : PinTable) (r : PinRec) : t.set .dat r = { t with dat := r } := rfl

/-! ## The records after events -/

section
variable (t : PinTable) (p : Pin)

@[simp] theorem PinTable.after_claim : t.after (.claim p) = t.set p PinRec.claimed := rfl
@[simp] theorem PinTable.after_dir (d : DirWord) : t.after (.dir p d) = t.set p ((t.get p).withDir d) := rfl
@[simp] theorem PinTable.after_wr (b : Bit) : t.after (.wr p b) = t.set p ((t.get p).withLevel b) := rfl
@[simp] theorem PinTable.after_rd (b : Bit) : t.after (.rd p b) = t := rfl
@[simp] theorem PinTable.after_unclaim : t.after (.unclaim p) = t.set p PinRec.reset := rfl
@[simp] theorem PinTable.after_hold (d : Delay) : t.after (.hold d) = t := rfl

end

/-- Events that claim no pin leave the tracked pins as they are. -/
theorem trackedAfter_foldl (ps : List Pin) (es : List Event) (h : ∀ p, Event.claim p ∉ es) :
    es.foldl trackedAfter ps = ps := by
  induction es generalizing ps with
  | nil => rfl
  | cons e es ih =>
    have he : trackedAfter ps e = ps := by
      cases e with
      | claim p => exact absurd (List.mem_cons_self ..) (h p)
      | _ => rfl
    rw [List.foldl_cons, he, ih ps fun p hp => h p (List.mem_cons_of_mem _ hp)]

/-- The state after events that claim no pin, in the normal form of `State.afterLines`. -/
theorem State.afterEvents_eq (s : State) (es : List Event) (l : List Bool) (r : List (List Char))
    (h : ∀ p, Event.claim p ∉ es) :
    s.afterEvents es l r = s.afterLines es (es.foldl PinTable.after s.pins) l r := by
  simp [State.afterEvents, State.afterLines, trackedAfter_foldl s.tracked es h]

/-! ## Draws -/

variable {s : State} {l : List Bool}

theorem provider_served (p : Pin) (op : ProviderOp) (h : s.env.fails = false :: l) :
    (provider p op).run s = .ok ⟨⟩ (s.withFails l) := by
  unfold provider
  have hd : drawFail.run s = .ok false (s.withFails l) := by
    simp only [drawFail, EStateM.run, h]
  rw [op_bind_ok hd]
  rfl

theorem provider_failed (p : Pin) (op : ProviderOp) (h : s.env.fails = true :: l) :
    (provider p op).run s = .error (.hardwareUnavailable p op) (s.withFails l) := by
  unfold provider
  have hd : drawFail.run s = .ok true (s.withFails l) := by
    simp only [drawFail, EStateM.run, h]
  rw [op_bind_ok hd]
  rfl

theorem drawContent_given {t : List Char} {r : List (List Char)} (h : s.env.reads = t :: r) :
    drawContent.run s = .ok t (s.withReads r) := by simp only [drawContent, EStateM.run, h]

theorem contentBit_bitContent (b : Bit) : contentBit (bitContent b) = some b := by cases b <;> rfl

/-! ## Pin primitives on an acquired pin -/

theorem pinAcquire_held {p : Pin} (h : (s.pin p).acquired = true) : (pinAcquire p).run s = .ok ⟨⟩ s := by
  unfold pinAcquire
  rw [op_bind_ok (op_get s), if_pos h]
  rfl

theorem pinAcquire_served {p : Pin} (h : (s.pin p).acquired = false) (hf : s.env.fails = false :: l) :
    (pinAcquire p).run s = .ok ⟨⟩ ((((s.withFails l).emit (.claim p)).setPin p PinRec.claimed).track p) := by
  unfold pinAcquire
  rw [op_bind_ok (op_get s), if_neg (by simp [h]), op_bind_ok (provider_served p .claim hf)]
  rfl

theorem pinAcquire_failed {p : Pin} (h : (s.pin p).acquired = false) (hf : s.env.fails = true :: l) :
    (pinAcquire p).run s = .error (.hardwareUnavailable p .claim) (s.withFails l) := by
  unfold pinAcquire
  rw [op_bind_ok (op_get s), if_neg (by simp [h]), op_bind_error (provider_failed p .claim hf)]

theorem pinSetDir_held {p : Pin} {d : DirWord} (h : (s.pin p).acquired = true) (hf : s.env.fails = false :: l) :
    (pinSetDir p d).run s = .ok ⟨⟩ (((s.withFails l).emit (.dir p d)).setPin p ((s.pin p).withDir d)) := by
  unfold pinSetDir
  rw [op_bind_ok (pinAcquire_held h), op_bind_ok (provider_served p .direction hf), op_bind_ok (op_emit _ _), op_modify]
  simp

theorem pinSetDir_failed {p : Pin} {d : DirWord} (h : (s.pin p).acquired = true) (hf : s.env.fails = true :: l) :
    (pinSetDir p d).run s = .error (.hardwareUnavailable p .direction) (s.withFails l) := by
  unfold pinSetDir
  rw [op_bind_ok (pinAcquire_held h), op_bind_error (provider_failed p .direction hf)]

theorem pinValueBit_bit (b : Bit) : pinValueBit (if b then 1 else 0) = some b := by cases b <;> rfl

theorem pinWrite_held {p : Pin} {v : Int} {b : Bit} (hv : pinValueBit v = some b) (h : (s.pin p).acquired = true)
    (hd : (s.pin p).dir = .output) (hf : s.env.fails = false :: l) :
    (pinWrite p v).run s = .ok ⟨⟩ (((s.withFails l).emit (.wr p b)).setPin p ((s.pin p).withLevel b)) := by
  unfold pinWrite
  rw [op_bind_ok (pinAcquire_held h)]
  simp only [hv]
  rw [op_bind_ok (op_get s), if_neg (by simp [hd]), op_bind_ok (provider_served p .value hf),
    op_bind_ok (op_emit _ _), op_modify]
  simp

theorem pinWrite_failed {p : Pin} {v : Int} {b : Bit} (hv : pinValueBit v = some b) (h : (s.pin p).acquired = true)
    (hd : (s.pin p).dir = .output) (hf : s.env.fails = true :: l) :
    (pinWrite p v).run s = .error (.hardwareUnavailable p .value) (s.withFails l) := by
  unfold pinWrite
  rw [op_bind_ok (pinAcquire_held h)]
  simp only [hv]
  rw [op_bind_ok (op_get s), if_neg (by simp [hd]), op_bind_error (provider_failed p .value hf)]

theorem pinRead_held {p : Pin} {b : Bit} {r : List (List Char)} (h : (s.pin p).acquired = true)
    (hd : (s.pin p).dir = .input) (hf : s.env.fails = false :: l) (hr : s.env.reads = bitContent b :: r) :
    (pinRead p).run s = .ok b (((s.withFails l).withReads r).emit (.rd p b)) := by
  unfold pinRead
  rw [op_bind_ok (pinAcquire_held h), op_bind_ok (op_get s), if_neg (by simp [hd]),
    op_bind_ok (provider_served p .value hf), op_bind_ok (drawContent_given (s := s.withFails l) hr)]
  simp only [contentBit_bitContent]
  rw [op_bind_ok (op_emit _ _)]
  rfl

theorem contentBit_none {t : List Char} (h0 : t ≠ ['0', '\n']) (h1 : t ≠ ['1', '\n']) : contentBit t = none := by
  unfold contentBit
  split
  · exact absurd rfl h0
  · exact absurd rfl h1
  · rfl

theorem pinRead_failed {p : Pin} (h : (s.pin p).acquired = true) (hd : (s.pin p).dir = .input)
    (hf : s.env.fails = true :: l) : (pinRead p).run s = .error (.hardwareUnavailable p .value) (s.withFails l) := by
  unfold pinRead
  rw [op_bind_ok (pinAcquire_held h), op_bind_ok (op_get s), if_neg (by simp [hd]),
    op_bind_error (provider_failed p .value hf)]

/-- R68: a content that is no bit fails the read. -/
theorem pinRead_bad {p : Pin} {t : List Char} {r : List (List Char)} (h : (s.pin p).acquired = true)
    (hd : (s.pin p).dir = .input) (hf : s.env.fails = false :: l) (hr : s.env.reads = t :: r)
    (ht : contentBit t = none) :
    (pinRead p).run s = .error (.hardwareUnavailable p .value) ((s.withFails l).withReads r) := by
  unfold pinRead
  rw [op_bind_ok (pinAcquire_held h), op_bind_ok (op_get s), if_neg (by simp [hd]),
    op_bind_ok (provider_served p .value hf), op_bind_ok (drawContent_given (s := s.withFails l) hr)]
  simp only [ht]
  rfl

theorem pinRelease_held {p : Pin} (h : (s.pin p).acquired = true) (hf : s.env.fails = false :: l) :
    (pinRelease p).run s = .ok ⟨⟩ (((s.withFails l).emit (.unclaim p)).setPin p PinRec.reset) := by
  unfold pinRelease
  rw [op_bind_ok (op_get s), if_pos h, op_bind_ok (provider_served p .unclaim hf)]
  rfl

theorem pinRelease_failed {p : Pin} (h : (s.pin p).acquired = true) (hf : s.env.fails = true :: l) :
    (pinRelease p).run s = .error (.hardwareUnavailable p .unclaim) (s.withFails l) := by
  unfold pinRelease
  rw [op_bind_ok (op_get s), if_pos h, op_bind_error (provider_failed p .unclaim hf)]

theorem pinRelease_unheld {p : Pin} (h : (s.pin p).acquired = false) : (pinRelease p).run s = .ok ⟨⟩ s := by
  unfold pinRelease
  rw [op_bind_ok (op_get s), if_neg (by simp [h])]
  rfl

theorem pinEnsureOutWrite_input {p : Pin} {b : Bit} (h : (s.pin p).acquired = true) (hd : (s.pin p).dir = .input) :
    (pinEnsureOutWrite p b).run s = (pinSetDir p (if b then .dirHigh else .dirLow)).run s := by
  unfold pinEnsureOutWrite
  rw [op_bind_ok (pinAcquire_held h), op_bind_ok (op_get s), if_pos hd]

theorem pinEnsureOutWrite_output {p : Pin} {b : Bit} (h : (s.pin p).acquired = true) (hd : (s.pin p).dir = .output) :
    (pinEnsureOutWrite p b).run s = (pinWrite p (if b then 1 else 0)).run s := by
  unfold pinEnsureOutWrite
  rw [op_bind_ok (pinAcquire_held h), op_bind_ok (op_get s), if_neg (by simp [hd])]

/-! ## The same, in the normal form of a state after line events -/

section
variable {evs : List Event} {ps : PinTable} {r : List (List Char)} {p : Pin}

theorem pinSetDir_lines {d : DirWord} (h : (ps.get p).acquired = true) :
    (pinSetDir p d).run (s.afterLines evs ps (false :: l) r) =
      .ok ⟨⟩ (s.afterLines (evs ++ [.dir p d]) (ps.set p ((ps.get p).withDir d)) l r) := by
  rw [pinSetDir_held (l := l) (by simpa using h) rfl]
  cases p <;> simp [State.afterLines, State.emit, State.setPin, State.withFails, State.pin, PinTable.set]

theorem pinWrite_lines {v : Int} {b : Bit} (hv : pinValueBit v = some b) (h : (ps.get p).acquired = true)
    (hd : (ps.get p).dir = .output) :
    (pinWrite p v).run (s.afterLines evs ps (false :: l) r) =
      .ok ⟨⟩ (s.afterLines (evs ++ [.wr p b]) (ps.set p ((ps.get p).withLevel b)) l r) := by
  rw [pinWrite_held (l := l) hv (by simpa using h) (by simpa using hd) rfl]
  cases p <;> simp [State.afterLines, State.emit, State.setPin, State.withFails, State.pin, PinTable.set]

theorem pinRead_lines {b : Bit} (h : (ps.get p).acquired = true) (hd : (ps.get p).dir = .input) :
    (pinRead p).run (s.afterLines evs ps (false :: l) (bitContent b :: r)) =
      .ok b (s.afterLines (evs ++ [.rd p b]) ps l r) := by
  rw [pinRead_held (l := l) (by simpa using h) (by simpa using hd) rfl rfl]
  simp [State.afterLines, State.emit, State.withFails, State.withReads]

theorem pinRelease_lines (h : (ps.get p).acquired = true) :
    (pinRelease p).run (s.afterLines evs ps (false :: l) r) =
      .ok ⟨⟩ (s.afterLines (evs ++ [.unclaim p]) (ps.set p PinRec.reset) l r) := by
  rw [pinRelease_held (l := l) (by simpa using h) rfl]
  cases p <;> simp [State.afterLines, State.emit, State.setPin, State.withFails, PinTable.set]

theorem emit_lines {f : List Bool} (e : Event) :
    (emit e).run (s.afterLines evs ps f r) = .ok ⟨⟩ (s.afterLines (evs ++ [e]) ps f r) := by
  rw [op_emit, State.emit_afterLines]

/-! ## Transport -/

/-- R71: the record of `DAT` after the low `n` bits of `v` were sent. -/
def sentRec (r : PinRec) (v n : Nat) : PinRec := if n = 0 then r else r.withLevel (v.testBit (n - 1))

theorem sentRec_acquired (r : PinRec) (v n : Nat) : (sentRec r v n).acquired = r.acquired := by
  unfold sentRec; split <;> rfl

theorem sentRec_dir (r : PinRec) (v n : Nat) : (sentRec r v n).dir = r.dir := by
  unfold sentRec; split <;> rfl

theorem sentRec_succ (r : PinRec) (v n : Nat) :
    sentRec (r.withLevel (v.testBit 0)) (v >>> 1) n = sentRec r v (n + 1) := by
  unfold sentRec
  cases n with
  | zero => simp
  | succ n => simp [PinRec.withLevel, Nat.add_comm]

theorem sendEvents_succ (v n : Nat) : sendEvents v (n + 1) = sendSlot (v.testBit 0) ++ sendEvents (v >>> 1) n := by
  unfold sendEvents
  rw [List.range_succ_eq_map, List.flatMap_cons, List.flatMap_map]
  congr 1
  refine List.flatMap_congr ?_
  intro k _
  rw [Nat.testBit_shiftRight, Nat.add_comm]

theorem pinValueBit_and_one (v : Nat) : pinValueBit (Int.ofNat (v &&& 1)) = some (v.testBit 0) := by
  have h : v &&& 1 = v % 2 := Nat.and_one_is_mod v
  rw [h, Nat.testBit_zero]
  rcases Nat.mod_two_eq_zero_or_one v with h | h <;> simp [h, pinValueBit]

theorem withLevel_drivenLow (a b : Bit) : (drivenLow.withLevel a).withLevel b = drivenLow.withLevel b := rfl

theorem withLevel_drivenLow_false : drivenLow.withLevel false = drivenLow := rfl

theorem replicate_three (n : Nat) (l : List Bool) :
    List.replicate (3 * (n + 1)) false ++ l = false :: false :: false :: (List.replicate (3 * n) false ++ l) := by
  rw [show 3 * (n + 1) = 3 * n + 1 + 1 + 1 by ring]
  simp [List.replicate_succ]

/-- R71: the slot of one sent bit. -/
theorem sendBits_step {k sr : Nat} (hc : ps.clk = drivenLow) (ha : ps.dat.acquired = true) (hd : ps.dat.dir = .output) :
    (sendBits (k + 1) sr).run (s.afterLines evs ps (false :: false :: false :: l) r) =
      (sendBits k (sr >>> 1)).run
        (s.afterLines (evs ++ sendSlot (sr.testBit 0)) { ps with dat := ps.dat.withLevel (sr.testBit 0) } l r) := by
  obtain ⟨rst, clk, dat⟩ := ps
  simp only at hc ha hd
  subst hc
  rw [sendBits, op_bind_ok (pinWrite_lines (ps := ⟨rst, drivenLow, dat⟩) (p := .dat) (pinValueBit_and_one sr) ha hd)]
  rw [op_bind_ok (pinWrite_lines (p := .clk) (v := 1) (b := true) rfl rfl rfl), op_bind_ok (emit_lines _)]
  rw [op_bind_ok (pinWrite_lines (p := .clk) (v := 0) (b := false) rfl rfl rfl), op_bind_ok (emit_lines _)]
  simp only [PinTable.set_dat, PinTable.set_clk, PinTable.get_clk, PinTable.get_dat, withLevel_drivenLow,
    withLevel_drivenLow_false, List.append_assoc, List.cons_append, List.nil_append, sendSlot]

theorem sendBits_lines {n v : Nat} (hc : ps.clk = drivenLow) (ha : ps.dat.acquired = true) (hd : ps.dat.dir = .output) :
    (sendBits n v).run (s.afterLines evs ps (List.replicate (3 * n) false ++ l) r) =
      .ok ⟨⟩ (s.afterLines (evs ++ sendEvents v n) { ps with dat := sentRec ps.dat v n } l r) := by
  induction n generalizing evs ps v with
  | zero => simp [sendBits, sendEvents, sentRec]
  | succ n ih =>
    rw [replicate_three, sendBits_step hc ha hd,
      ih (ps := { ps with dat := ps.dat.withLevel (v.testBit 0) }) hc ha hd, sendEvents_succ, List.append_assoc]
    simp only [sentRec_succ]

theorem busSend_lines {n v : Nat} (hc : ps.clk = drivenLow) (ha : ps.dat.acquired = true) (hd : ps.dat.dir = .output) :
    (busSend v n).run (s.afterLines evs ps (List.replicate (3 * n) false ++ l) r) =
      .ok ⟨⟩ (s.afterLines (evs ++ sendEvents v n) { ps with dat := sentRec ps.dat v n } l r) := by
  unfold busSend
  rw [op_bind_ok (op_get _)]
  have h1 : ((s.afterLines evs ps (List.replicate (3 * n) false ++ l) r).pin .clk).lowOutput = true := by
    simp [hc, drivenLow, PinRec.lowOutput]
  have h2 : ((s.afterLines evs ps (List.replicate (3 * n) false ++ l) r).pin .dat).isOutput = true := by
    simp [ha, hd, PinRec.isOutput]
  rw [if_pos h1, if_pos h2]
  exact sendBits_lines hc ha hd

/-- R71: the records after the events of a send are those of `busSend_lines`. -/
theorem sendEvents_after {n v : Nat} (hc : ps.clk = drivenLow) :
    (sendEvents v n).foldl PinTable.after ps = { ps with dat := sentRec ps.dat v n } := by
  induction n generalizing ps v with
  | zero => simp [sendEvents, sentRec]
  | succ n ih =>
    have hs : (sendSlot (v.testBit 0)).foldl PinTable.after ps =
        { ps with dat := ps.dat.withLevel (v.testBit 0) } := by
      obtain ⟨rst, clk, dat⟩ := ps
      simp only at hc
      subst hc
      rfl
    rw [sendEvents_succ, List.foldl_append, hs, ih (ps := { ps with dat := ps.dat.withLevel (v.testBit 0) }) hc]
    simp only [sentRec_succ]

/-- R72: a receive leaves the records as they are. -/
theorem recvEvents_after {bs : List Bit} (hc : ps.clk = drivenLow) :
    (recvEvents bs).foldl PinTable.after ps = ps := by
  induction bs with
  | nil => rfl
  | cons b bs ih =>
    have hs : (recvSlot b).foldl PinTable.after ps = ps := by
      obtain ⟨rst, clk, dat⟩ := ps
      simp only at hc
      subst hc
      rfl
    rw [recvEvents, List.flatMap_cons, List.foldl_append, hs]
    exact ih

/-- R72: the slot of one received bit. -/
theorem recvBits_step {n k acc : Nat} {b : Bit} (hc : ps.clk = drivenLow) (ha : ps.dat.acquired = true)
    (hd : ps.dat.dir = .input) :
    (recvBits n (k + 1) acc).run (s.afterLines evs ps (false :: false :: false :: l) (bitContent b :: r)) =
      (recvBits n k (shiftIn n acc b)).run (s.afterLines (evs ++ recvSlot b) ps l r) := by
  obtain ⟨rst, clk, dat⟩ := ps
  simp only at hc ha hd
  subst hc
  rw [recvBits, op_bind_ok (pinWrite_lines (p := .clk) (v := 1) (b := true) rfl rfl rfl), op_bind_ok (emit_lines _)]
  rw [PinTable.set_clk, PinTable.get_clk,
    op_bind_ok (pinRead_lines (ps := ⟨rst, drivenLow.withLevel true, dat⟩) (p := .dat) ha hd)]
  rw [op_bind_ok (pinWrite_lines (p := .clk) (v := 0) (b := false) rfl rfl rfl), op_bind_ok (emit_lines _)]
  simp only [PinTable.set_clk, PinTable.get_clk, withLevel_drivenLow, withLevel_drivenLow_false, List.append_assoc,
    List.cons_append, List.nil_append, recvSlot, shiftIn]

theorem recvBits_lines {n acc : Nat} {bs : List Bit} (hc : ps.clk = drivenLow) (ha : ps.dat.acquired = true)
    (hd : ps.dat.dir = .input) :
    (recvBits n bs.length acc).run (s.afterLines evs ps (List.replicate (3 * bs.length) false ++ l) (bs.map bitContent ++ r)) =
      .ok (bs.foldl (shiftIn n) acc) (s.afterLines (evs ++ recvEvents bs) ps l r) := by
  induction bs generalizing evs acc with
  | nil => simp [recvBits, recvEvents]
  | cons b bs ih =>
    rw [List.length_cons, replicate_three, List.map_cons, List.cons_append, recvBits_step hc ha hd, ih]
    simp [recvEvents]

theorem busRecv_lines {bs : List Bit} (hc : ps.clk = drivenLow) (ha : ps.dat.acquired = true)
    (hd : ps.dat.dir = .input) :
    (busRecv bs.length).run (s.afterLines evs ps (List.replicate (3 * bs.length) false ++ l) (bs.map bitContent ++ r)) =
      .ok (valueOf bs) (s.afterLines (evs ++ recvEvents bs) ps l r) := by
  unfold busRecv
  rw [op_bind_ok (op_get _)]
  have h1 : ((s.afterLines evs ps (List.replicate (3 * bs.length) false ++ l) (bs.map bitContent ++ r)).pin
      .clk).lowOutput = true := by simp [hc, drivenLow, PinRec.lowOutput]
  have h2 : ((s.afterLines evs ps (List.replicate (3 * bs.length) false ++ l) (bs.map bitContent ++ r)).pin
      .dat).isInput = true := by simp [ha, hd, PinRec.isInput]
  rw [if_pos h1, if_pos h2, recvBits_lines hc ha hd, foldl_shiftIn_zero]

/-! ## Commands -/

theorem commandAdmit_programming {s : State} (h : Programming s) :
    commandAdmit.run s = .ok ⟨⟩ (s.withState .programmingMode) := by
  unfold commandAdmit
  rw [op_modify]
  rcases h with h | h
  · rw [if_pos h]
  · rw [if_neg (by rw [h]; decide)]
    simp [State.withState, ← h]

theorem commandAdmit_lines {f : List Bool} (h : Programming s) :
    commandAdmit.run (s.afterLines evs ps f r) = .ok ⟨⟩ ((s.withState .programmingMode).afterLines evs ps f r) := by
  rw [commandAdmit_programming (s := s.afterLines evs ps f r) h, State.withState_afterLines]

theorem replicate_add_append (m n : Nat) (l : List Bool) :
    List.replicate (m + n) false ++ l = List.replicate m false ++ (List.replicate n false ++ l) := by
  rw [List.replicate_add, List.append_assoc]

/-- R81 to R85: the next state of a command of format C. -/
theorem controlCommand_lines {op : Nat} {t : Delay} (hp : Programming s) (hc : ps.clk = drivenLow)
    (ha : ps.dat.acquired = true) (hd : ps.dat.dir = .output) :
    (controlCommand op t).run (s.afterLines evs ps (List.replicate 18 false ++ l) r) =
      .ok ⟨⟩ ((s.withState .programmingMode).afterLines (evs ++ controlEvents op t)
        { ps with dat := sentRec ps.dat op 6 } l r) := by
  unfold controlCommand
  rw [op_bind_ok (commandAdmit_lines hp), show Config.opcodeBits = 6 from rfl, show (18 : Nat) = 3 * 6 from rfl,
    op_bind_ok (busSend_lines (n := 6) hc ha hd), emit_lines]
  simp only [controlEvents, List.append_assoc]

/-- R78, R79: the next state of a command of format W. -/
theorem writeCommand_lines {op d : Nat} (hp : Programming s) (hc : ps.clk = drivenLow)
    (ha : ps.dat.acquired = true) (hd : ps.dat.dir = .output) :
    (writeCommand op d).run (s.afterLines evs ps (List.replicate 66 false ++ l) r) =
      .ok ⟨⟩ ((s.withState .programmingMode).afterLines (evs ++ writeEvents op d)
        { ps with dat := sentRec (sentRec ps.dat op 6) (2 * d) 16 } l r) := by
  have hw : writePayloadOf d = 2 * d := by simp [writePayloadOf, Nat.shiftLeft_eq, Nat.mul_comm]
  unfold writeCommand
  have hs : (sentRec ps.dat op 6).acquired = true := by rw [sentRec_acquired]; exact ha
  have ho : (sentRec ps.dat op 6).dir = .output := by rw [sentRec_dir]; exact hd
  rw [show (66 : Nat) = 3 * 6 + 3 * 16 from rfl, replicate_add_append, op_bind_ok (commandAdmit_lines hp),
    show Config.opcodeBits = 6 from rfl, show Config.payloadBits = 16 from rfl,
    op_bind_ok (busSend_lines (n := 6) hc ha hd), op_bind_ok (emit_lines _), hw,
    op_bind_ok (busSend_lines (n := 16) (ps := { ps with dat := sentRec ps.dat op 6 }) hc hs ho), emit_lines]
  simp only [writeEvents, List.append_assoc]

/-- R80: the next state of `READ_DATA`. -/
theorem readCommand_lines {bs : List Bit} (hb : bs.length = 16) (hp : Programming s) (hc : ps.clk = drivenLow)
    (ha : ps.dat.acquired = true) (hd : ps.dat.dir = .output) :
    (readCommand 0x04).run (s.afterLines evs ps (List.replicate 68 false ++ l) (bs.map bitContent ++ r)) =
      .ok (readWordOf (valueOf bs)) ((s.withState .programmingMode).afterLines (evs ++ readEvents bs)
        { ps with dat := { acquired := true, dir := .output, level := none } } l r) := by
  have hl : List.replicate 68 false ++ l =
      List.replicate (3 * 6) false ++ (false :: (List.replicate (3 * bs.length) false ++ (false :: l))) := by
    rw [hb]; rfl
  have hs : (sentRec ps.dat 0x04 6).acquired = true := by rw [sentRec_acquired]; exact ha
  obtain ⟨rst, clk, dat⟩ := ps
  simp only at hc ha hd hs
  unfold readCommand
  rw [hl, op_bind_ok (commandAdmit_lines hp), show Config.opcodeBits = 6 from rfl,
    op_bind_ok (busSend_lines (n := 6) hc ha hd), op_bind_ok (emit_lines _),
    op_bind_ok (pinSetDir_lines (ps := ⟨rst, clk, sentRec dat 4 6⟩) (p := .dat) hs),
    show Config.payloadBits = bs.length from hb.symm]
  simp only [PinTable.set_dat, PinTable.get_dat, PinRec.withDir, hs]
  rw [op_bind_ok (busRecv_lines (ps := ⟨rst, clk, ⟨true, .input, none⟩⟩) hc rfl rfl),
    op_bind_ok (pinSetDir_lines (ps := ⟨rst, clk, ⟨true, .input, none⟩⟩) (p := .dat) rfl), op_bind_ok (emit_lines _),
    op_pure]
  simp only [PinTable.set_dat, PinTable.get_dat, PinRec.withDir, readEvents, List.append_assoc, List.cons_append,
    List.nil_append]

/-- R50: the next state of the frame of format K. -/
theorem sendKey_lines (hc : ps.clk = drivenLow) (ha : ps.dat.acquired = true) (hd : ps.dat.dir = .output) :
    sendKey.run (s.afterLines evs ps (List.replicate 99 false ++ l) r) =
      .ok ⟨⟩ (s.afterLines (evs ++ keyEvents) { ps with dat := ps.dat.withLevel false } l r) := by
  have hk : reverseBits Config.key Config.keyBits = 0x0A12C2B2 := by decide +kernel
  have hs : (sentRec ps.dat 0x0A12C2B2 32).acquired = true := by rw [sentRec_acquired]; exact ha
  have ho : (sentRec ps.dat 0x0A12C2B2 32).dir = .output := by rw [sentRec_dir]; exact hd
  unfold sendKey
  rw [hk, show Config.keyBits = 32 from rfl, show Config.keyTailBits = 1 from rfl,
    show (99 : Nat) = 3 * 32 + 3 * 1 from rfl, replicate_add_append, op_bind_ok (busSend_lines (n := 32) hc ha hd),
    busSend_lines (n := 1) (ps := { ps with dat := sentRec ps.dat 0x0A12C2B2 32 }) hc hs ho]
  simp only [keyEvents, List.append_assoc]
  rfl

end

/-! ## Invocations -/

theorem Serves.afterLines {n : Nat} (h : Serves s n l) :
    s = s.afterLines [] s.pins (List.replicate n false ++ l) s.env.reads := by
  rw [← h]
  exact (State.afterLines_nil s).symm

theorem invoke_ok {c : OpClass} {body : Op Value} {v : Value} {t : State} (ha : admits c s.state = true)
    (h : body.run s = .ok v t) : invoke c none body s = .next (t.addResult (.ok v)) := by
  simp [invoke, guarded, complete, ha, h]

theorem invoke_error {c : OpClass} {body : Op Value} {e : OpError} {t : State} (ha : admits c s.state = true)
    (h : body.run s = .error e t) : invoke c none body s = .next (abort e t) := by
  simp [invoke, guarded, complete, ha, h]

theorem noValue_ok {x : Op Unit} {t : State} (h : x.run s = .ok ⟨⟩ t) : (noValue x).run s = .ok .unit t := by
  unfold noValue
  rw [op_bind_ok h]
  rfl

theorem noValue_error {x : Op Unit} {e : OpError} {t : State} (h : x.run s = .error e t) :
    (noValue x).run s = .error e t := op_bind_error h

theorem Programming.admits (h : Programming s) : Sys2Proof.Machine.admits .command s.state = true := by
  rcases h with h | h <;> rw [h] <;> rfl

theorem admits_line (h : s.state ≠ .exited) : admits .line s.state = true := by
  revert h
  cases s.state <;> simp [admits]

end Sys2Proof.Machine
end

