-- ==== Sys2Proof/Tests/Slice0.lean ====
section
/-! SUPPORT. The model's own tests: ill-formed operations that the check refuses, words and lines written out from the
spec, vectors of spec/95_test_vectors.md, and a witness for the premises of every statement. -/

namespace Sys2Proof.Tests

open Sys2Proof.Machine

/-! ## Helpers -/

/-- The bits of a wire string as the spec prints them, first on the wire first; a space separates fields. -/
def bits (t : String) : List Bit := (t.toList.filter (fun c => c != ' ')).map (fun c => c == '1')

/-- The next state, if there is one. -/
def after : Answer → Option State
  | .next t => some t
  | .fault _ => none
  | .refused _ => none

/-- The events an answer adds to the state's trace. -/
def newEvents (s : State) (a : Answer) : Option (List Event) := (after a).map (fun t => t.trace.drop s.trace.length)

/-- The result an answer gives the host. -/
def lastResult (a : Answer) : Option OpResult := (after a).bind (fun t => t.results.getLast?)

/-- The provider performs the next `n` operations. -/
def served (n : Nat) (s : State) : State := s.withFails (List.replicate n false)

/-- The provider performs `n` operations and fails the next. -/
def failing (n : Nat) (s : State) : State := s.withFails (List.replicate n false ++ [true])

/-- The target presents the bits. -/
def presenting (bs : List Bit) (s : State) : State := s.withReads (bs.map bitContent)

/-- spec/95 §1: from reset. -/
def fresh : State := State.reset

/-- spec/95 L2.4 #1: after `RESET`. -/
def held : State :=
  { State.reset with state := .reset, pins := { State.reset.pins with rst := drivenLow }, tracked := [.rst] }

/-- spec/95 §1: Entered. -/
def entered : State :=
  { State.reset with
    state := .lvpEntered
    pins := { rst := drivenLow, clk := drivenLow, dat := drivenLow }
    tracked := [.rst, .clk, .dat] }

/-- Entered, with `DAT` then made an input. -/
def listening : State :=
  { entered with pins := { entered.pins with dat := { acquired := true, dir := .input, level := none } } }

/-- Entered, with two words to verify. -/
def verifying : State := { entered with cfg := { entered.cfg with verifyCount := 2 } }

/-- After `EXIT`. -/
def exited : State := { State.reset with state := .exited, tracked := [.rst, .clk, .dat] }

/-! ## Ill-formed operations (R110, D4, D10, D11, R62) -/

theorem test_illformed_data : Instr.wf (.loadConfig 0x4000) = false ∧ Instr.wf (.loadData 0x4000) = false ∧
    Instr.wf (.loadData 0x3FFF) = true := by decide

theorem test_illformed_reverse : Instr.wf (.reverse 0x10 4) = false ∧ Instr.wf (.reverse 0xF 4) = true := by decide

theorem test_illformed_direction : Instr.wf (.setDir .dat (.other "float".toList)) = false := by decide

theorem test_illformed_pins : Instr.wf (.sessionNew { Config.resetSession with pinClock := 1 }) = false ∧
    Instr.wf (.sessionNew { Config.resetSession with pinData := 1 }) = false ∧
    Instr.wf (.sessionNew { Config.resetSession with pinData := 2 }) = false := by decide

/-! ## Decoding (R46 to R51, R58, R59, spec/95 L2.3) -/

theorem test_decode_loadConfig : decodeFrame (bits "000000 0111111111111110") = .ok (.loadConfig 0x3FFF) := by rfl

theorem test_decode_loadData : decodeFrame (bits "010000 0010101010101010") = .ok (.loadData 0x2AAA) := by rfl

theorem test_decode_readData : decodeFrame (bits "001000 1000000000000001") = .ok .readData := by rfl

theorem test_decode_incAddr : decodeFrame (bits "011000") = .ok .incAddr := by rfl

theorem test_decode_resetAddr : decodeFrame (bits "011010") = .ok .resetAddr := by rfl

theorem test_decode_beginProg : decodeFrame (bits "000100") = .ok .beginProg := by rfl

theorem test_decode_bulkErase : decodeFrame (bits "100100") = .ok .bulkErase := by rfl

theorem test_decode_rowErase : decodeFrame (bits "100010") = .ok .rowErase := by rfl

theorem test_decode_lvpKey : decodeFrame (bits "0100 1101 0100 0011 0100 1000 0101 0000 0") = .ok .lvpKey := by rfl

theorem test_decode_framing_bit : decodeFrame (bits "010000 0010101010101011") = .error .framingBit ∧
    decodeFrame (bits "010000 1010101010101010") = .error .framingBit := ⟨by rfl, by rfl⟩

theorem test_decode_length : decodeFrame (bits "0110000") = .error (.frameLength 7) ∧
    decodeFrame (bits "01000") = .error (.frameLength 5) ∧
    decodeFrame (bits "010000 001010101010101") = .error (.frameLength 21) := ⟨by rfl, by rfl, by rfl⟩

theorem test_decode_table_words : decodeTableWord 8 0x00 = some (.loadConfig 0) ∧
    decodeTableWord 8 0x04 = some .readData ∧ decodeTableWord 8 0x11 = some .rowErase ∧
    decodeTableWord 40 0x0A12C2B2 = some .lvpKey ∧ decodeTableWord 8 0x3F = none := by decide +kernel

theorem test_decode_pin_lines :
    decodeLine "ACQUIRE RST".toList = .ok (.acquire .rst) ∧
    decodeLine "SETDIR DAT low ; a comment".toList = .ok (.setDir .dat (.word .dirLow)) ∧
    decodeLine "SETDIR DAT float".toList = .ok (.setDir .dat (.other "float".toList)) ∧
    decodeLine "WRITE CLK 0b10".toList = .ok (.write .clk 2) ∧
    decodeLine "READ DAT".toList = .ok (.read .dat) ∧
    decodeLine "RELEASE CLK".toList = .ok (.release .clk) ∧
    decodeLine "ENSURE_OUT_WRITE RST 1".toList = .ok (.ensureOutWrite .rst true) :=
  ⟨by rfl, by rfl, by rfl, by rfl, by rfl, by rfl, by rfl⟩

theorem test_decode_other_lines :
    decodeLine "REVERSE 0x16 6".toList = .ok (.reverse 0x16 6) ∧
    decodeLine "SEND 0b1011 4".toList = .ok (.send 0xB 4) ∧
    decodeLine "RECV 16".toList = .ok (.recv 16) ∧
    decodeLine "RESET            ; 3 events".toList = .ok .reset ∧
    decodeLine "ENTER_LVP".toList = .ok .enterLvp ∧
    decodeLine "EXIT".toList = .ok .exit ∧
    decodeLine "VERIFY 3         ; 1299 events".toList = .ok (.verify 3) ∧
    decodeLine "INTERRUPT".toList = .ok .interrupt ∧
    decodeLine "LOAD_DATA 0x0AB5 ; 112 events".toList = .ok (.loadData 0x0AB5) ∧
    decodeLine "SEND 5".toList = .error .badOperands ∧
    decodeLine "HALT".toList = .error .unknownMnemonic :=
  ⟨by rfl, by rfl, by rfl, by rfl, by rfl, by rfl, by rfl, by rfl, by rfl, by rfl, by rfl⟩

theorem test_decode_call (c : SessionConfig) : HostRequest.decode (.call (.sessionNew c)) = .ok (.sessionNew c) := rfl

/-- R55, U6, R66: a request that is no operation, or a fifth value for a Bit, is refused with the mark. -/
theorem test_step_refuses :
    (after (step (fresh.withHost [.frame (bits "111111")]))).map (fun t => (t.refused, t.host, t.trace)) =
      some (true, [], []) ∧
    (after (step (fresh.withHost [.line "ENSURE_OUT_WRITE RST 2".toList]))).map (fun t => (t.refused, t.results)) =
      some (true, [.refused (.noOperation .badOperands)]) := by decide +kernel

/-! ## Pin primitives (spec/95 L2.1, L2.6) -/

theorem test_acquire : newEvents fresh (exec (.acquire .rst) (served 1 fresh)) = some [.claim .rst] ∧
    (after (exec (.acquire .rst) (served 1 fresh))).map (·.tracked) = some [.rst] := by decide +kernel

theorem test_setDir : (after (exec (.setDir .dat (.word .dirIn)) (served 1 entered))).map (·.pins.dat) =
    some { acquired := true, dir := .input, level := none } := by decide +kernel

theorem test_write_two : newEvents fresh (exec (.write .dat 2) (served 3 fresh)) =
      some [.claim .dat, .dir .dat .dirIn, .unclaim .dat] ∧
    lastResult (exec (.write .dat 2) (served 3 fresh)) = some (.err (.op (.invalidPinValue 2)) []) := by decide +kernel

theorem test_read : lastResult (exec (.read .dat) (presenting [true] (served 1 listening))) = some (.ok (.bit true)) ∧
    lastResult (exec (.read .clk) (served 6 entered)) = some (.err (.op (.preconditionViolation .clk .readOfOutput)) []) := by
  decide +kernel

theorem test_release : newEvents entered (exec (.release .dat) (served 1 entered)) = some [.unclaim .dat] ∧
    (after (exec (.release .dat) (served 1 entered))).map (·.tracked) = some [.rst, .clk, .dat] := by decide +kernel

theorem test_ensureOutWrite : newEvents fresh (exec (.ensureOutWrite .rst false) (served 2 fresh)) =
    some [.claim .rst, .dir .rst .dirLow] := by decide +kernel

/-! ## Bit transport (spec/95 L1.2, L2.2) -/

theorem test_reverse : lastResult (exec (.reverse 0b1000 4) fresh) = some (.ok (.nat 1)) ∧
    lastResult (exec (.reverse 0x4D434850 32) fresh) = some (.ok (.nat 0x0A12C2B2)) := by decide +kernel

theorem test_send : newEvents entered (exec (.send 0b10 2) (served 6 entered)) =
    some [.wr .dat false, .wr .clk true, .hold .tHalf, .wr .clk false, .hold .tHalf,
      .wr .dat true, .wr .clk true, .hold .tHalf, .wr .clk false, .hold .tHalf] := by decide +kernel

theorem test_recv : lastResult (exec (.recv 3) (presenting [true, true, false] (served 9 listening))) =
    some (.ok (.nat 3)) := by decide +kernel

theorem test_lvpKey : (newEvents entered (exec .lvpKey (served 99 entered))).map
      (fun es => wireBits (some false) (some false) es) =
    some ((bits "0100 1101 0100 0011 0100 1000 0101 0000 0").map some) := by decide +kernel

/-! ## Commands (spec/95 L2.3) -/

theorem test_loadConfig : (newEvents entered (exec (.loadConfig 0x3FFF) (served 66 entered))).map
      (fun es => (es.length, wireBits (some false) none es)) =
    some (112, (bits "000000 0111111111111110").map some) := by decide +kernel

theorem test_loadData : (newEvents entered (exec (.loadData 1) (served 66 entered))).map
      (wireBits (some false) none) = some ((bits "010000 0100000000000000").map some) ∧
    lastResult (exec (.loadData 0x4000) entered) = some (.refused .dataTooWide) := by decide +kernel

theorem test_readData : lastResult (exec .readData (presenting (bits "0001011000100100") (served 68 entered))) =
      some (.ok (.word 0x1234)) ∧
    lastResult (exec .readData (presenting (bits "1000000000000001") (served 68 entered))) =
      some (.ok (.word 0)) := by decide +kernel

theorem test_readData_failure :
    lastResult (exec .readData
        ((presenting [false, false, false] (entered.withFails
          (List.replicate 29 false ++ [true] ++ List.replicate 5 false ++ [true])) ))) =
      some (.err (.op (.hardwareUnavailable .dat .value)) [(.dat, .hardwareUnavailable .dat .unclaim)]) := by
  decide +kernel

theorem test_incAddr : (newEvents entered (exec .incAddr (served 18 entered))).map
    (fun es => (es.length, wireBits (some false) none es, es.getLast?)) =
    some (31, (bits "011000").map some, some (.hold .tCmd)) := by decide +kernel

theorem test_resetAddr : (newEvents entered (exec .resetAddr (served 18 entered))).map
    (fun es => (wireBits (some false) none es, es.getLast?)) =
    some ((bits "011010").map some, some (.hold .tCmd)) := by decide +kernel

theorem test_beginProg : (newEvents entered (exec .beginProg (served 18 entered))).map
    (fun es => (wireBits (some false) none es, es.getLast?)) =
    some ((bits "000100").map some, some (.hold .tProg)) := by decide +kernel

theorem test_bulkErase : (newEvents entered (exec .bulkErase (served 18 entered))).map
    (fun es => (wireBits (some false) none es, es.getLast?)) =
    some ((bits "100100").map some, some (.hold .tBulk)) := by decide +kernel

theorem test_rowErase : (newEvents entered (exec .rowErase (served 18 entered))).map
    (fun es => (wireBits (some false) none es, es.getLast?)) =
    some ((bits "100010").map some, some (.hold .tRow)) := by decide +kernel

/-! ## Session (spec/95 L1.4, L2.4, L3 P5) -/

theorem test_reset : newEvents fresh (exec .reset (served 2 fresh)) =
      some [.claim .rst, .dir .rst .dirLow, .hold .tReset] ∧
    newEvents held (exec .reset (served 1 held)) = some [.wr .rst false, .hold .tReset] := by decide +kernel

theorem test_enterLvp : (newEvents held (exec .enterLvp (served 103 held))).map
    (fun es => (es.length, wireBits none none es)) =
    some (170, (bits "0100 1101 0100 0011 0100 1000 0101 0000 0").map some) := by decide +kernel

theorem test_enterLvp_failure :
    newEvents held (exec .enterLvp (held.withFails [false, false, true, false, false, false, false])) =
      some [.claim .clk, .dir .clk .dirLow, .dir .rst .dirIn, .unclaim .rst, .dir .clk .dirIn, .unclaim .clk] := by
  decide +kernel

theorem test_exit : newEvents entered (exec .exit (served 6 entered)) =
    some [.dir .rst .dirIn, .unclaim .rst, .dir .clk .dirIn, .unclaim .clk, .dir .dat .dirIn, .unclaim .dat] := by
  decide +kernel

theorem test_exit_driveHigh :
    newEvents entered (exec .exit
        (served 7 { entered with cfg := { entered.cfg with exitResetMode := .driveHigh } })) =
      some [.wr .rst true, .dir .rst .dirIn, .unclaim .rst, .dir .clk .dirIn, .unclaim .clk, .dir .dat .dirIn,
        .unclaim .dat] := by decide +kernel

/-- R18, U2, U3: unknown before the first acquire, and where the release of the teardown failed. -/
theorem test_condition : held.condition .rst = .driven false ∧ held.condition .clk = .unknown ∧
    (after (exec .exit (entered.withFails [false, false, false, true, false, false]))).map
      (fun t => (t.condition .rst, t.condition .clk, t.condition .dat)) =
      some (.highImpedance, .unknown, .highImpedance) := by decide +kernel

theorem test_exited_refuses : lastResult (exec .exit exited) = some (.refused .stateNotAdmitted) ∧
    lastResult (exec (.reverse 1 8) exited) = some (.ok (.nat 0x80)) := by decide +kernel

theorem test_sessionNew :
    lastResult (exec (.sessionNew { Config.resetSession with pinClock := 1 }) fresh) = some (.refused .pinsNotDistinct) ∧
    (after (exec (.sessionNew Config.resetSession) entered)).map (fun t => (t.state, t.tracked, t.trace)) =
      some (.unpowered, [], []) := by decide +kernel

theorem test_interrupt : (after (exec .interrupt (served 6 entered))).map (fun t => (t.state, t.err, t.trace.length)) =
    some (.exited, some (.op .interrupted), 6) := by decide +kernel

/-! ## Comparator (spec/95 L2.5 #1, L2.6 #3) -/

theorem test_verify_zero : (after (exec (.verify 0) entered)).map (fun t => (t.state, t.snap, t.trace)) =
    some (.lvpEntered, [], []) := by decide +kernel

theorem test_verify_interrupt :
    (after (exec (.verify 2)
        ((presenting (bitsOf 16 (2 * 0x2A5A)) (served 140 verifying)).withIrqs [false, true]))).map
      (fun t => (t.trace.length, t.snap, t.err)) =
    some (232, [(0x8000, 0x2A5A)], some (.op .interrupted)) := by decide +kernel

theorem test_verify_mismatch :
    lastResult (exec (.verify 2)
        ((presenting (bitsOf 16 (2 * 0x0155) ++ bitsOf 16 (2 * 0x0154))
          (served 340 { entered with cfg := { entered.cfg with verifyCount := 1 } })).withIrqs (List.replicate 7 false))) =
      some (.ok (.reports [⟨1, 0x8000, 0x0155, 0x0154⟩])) := by decide +kernel

/-! ## Witnesses: states and operands that meet the premises of the statements -/

theorem recordsInv_entered : RecordsInv entered where
  snapWf := rfl
  trackedOnce := by decide
  acquiredTracked := by intro p; cases p <;> decide
  pinsSound := by intro p; cases p <;> exact ⟨by decide, by decide⟩
  mismatchesReal := by decide
  pinsDistinct := rfl

theorem entryInv_entered : EntryInv entered := by
  intro _
  exact ⟨by decide, fun _ => ⟨rfl, rfl, rfl, rfl⟩⟩

theorem sendReady_entered : SendReady entered := ⟨rfl, rfl, rfl⟩

theorem programming_entered : Programming entered := .inl rfl

theorem test_witness_FrameRoundTrip : ∃ i : Instr, i.wf = true ∧ wireFrame i ≠ [] :=
  ⟨.loadData 0x3FFF, by decide, by decide⟩

theorem test_witness_LineRoundTrip : ∃ i : Instr, i ≠ .lvpKey ∧ (∀ c, i ≠ .sessionNew c) ∧
    (∀ p v, i = .write p v → 0 ≤ v) ∧ (∀ p d, i = .setDir p d → d.inRange = true) :=
  ⟨.write .dat 1, by decide, by simp, by intro p v h; cases h; decide, by simp⟩

theorem test_witness_UndefinedOpcodesRejected : ∃ bits : List Bit, bits ≠ keyFrame ∧ 6 ≤ bits.length ∧
    valueOf (bits.take 6) ∉ [0x00, 0x02, 0x04, 0x06, 0x16, 0x08, 0x09, 0x11] :=
  ⟨bits "100000", by decide, by decide, by decide⟩

theorem test_witness_StepRunsDecodedInstruction :
    (fresh.irqPending = false ∧ fresh.host = []) ∧
    (∃ s : State, ∃ r rest i, s.irqPending = false ∧ s.host = r :: rest ∧ r.decode = .ok i) ∧
    (∃ s : State, ∃ r rest e, s.irqPending = false ∧ s.host = r :: rest ∧ r.decode = .error e) :=
  ⟨⟨rfl, rfl⟩, ⟨fresh.withHost [.line "RESET".toList], _, _, .reset, rfl, rfl, by rfl⟩,
    ⟨fresh.withHost [.frame (bits "111111")], _, _, .undefinedOpcode 63, rfl, rfl, by rfl⟩⟩

theorem test_witness_EveryStepGoesOn : ∃ s : State, s.host = [.line "HALT".toList] ∧ s.state = .exited :=
  ⟨exited.withHost [.line "HALT".toList], rfl, rfl⟩

theorem test_witness_StepTakesPendingInterrupt : ∃ s : State, s.irqPending = true := ⟨entered.requestInterrupt, rfl⟩

theorem test_witness_PlacedWordRunsNext : ∃ nbits w i, decodeTableWord nbits w = some i := ⟨8, 0x16, .resetAddr, by rfl⟩

theorem test_witness_SessionNewStartsASession :
    (∃ c : SessionConfig, c.pinReset ≠ c.pinClock ∧ c.pinReset ≠ c.pinData ∧ c.pinClock ≠ c.pinData) ∧
    (∃ c : SessionConfig, c.pinReset = c.pinClock ∨ c.pinReset = c.pinData ∨ c.pinClock = c.pinData) :=
  ⟨⟨Config.resetSession, by decide⟩, ⟨{ Config.resetSession with pinData := 2 }, by decide⟩⟩

theorem test_witness_AcquireClaimsThePin :
    (entered.state ≠ .exited ∧ (entered.pin .rst).acquired = true) ∧
    (∃ s : State, s.state ≠ .exited ∧ (s.pin .rst).acquired = false ∧ Serves s 1 []) ∧
    (∃ s : State, s.state ≠ .exited ∧ (s.pin .rst).acquired = false ∧ FailsAt s 0 []) :=
  ⟨⟨by decide, rfl⟩, ⟨served 1 fresh, by decide, rfl, rfl⟩, ⟨failing 0 fresh, by decide, rfl, rfl⟩⟩

theorem test_witness_SetDirSetsTheRecord :
    (∃ s : State, s.state ≠ .exited ∧ Serves s ((claimEvents s .dat).length + 1) []) ∧
    (∃ s : State, s.state ≠ .exited ∧ (s.pin .dat).acquired = false ∧ FailsAt s 0 []) ∧
    (∃ s : State, s.state ≠ .exited ∧ FailsAt s (claimEvents s .dat).length []) :=
  ⟨⟨served 2 fresh, by decide, rfl⟩, ⟨failing 0 fresh, by decide, rfl, rfl⟩, ⟨failing 1 fresh, by decide, rfl⟩⟩

theorem test_witness_WriteDrivesTheLevel :
    (∃ s : State, s.state ≠ .exited ∧ (s.pin .dat).acquired = false ∧ FailsAt s 0 []) ∧
    (∃ s : State, ∃ v : Int, s.state ≠ .exited ∧ v ≠ 0 ∧ v ≠ 1 ∧ Serves s (claimEvents s .dat).length []) ∧
    (∃ s : State, s.state ≠ .exited ∧ ((s.claimed .dat).pin .dat).dir = .input ∧
      Serves s (claimEvents s .dat).length []) ∧
    (∃ s : State, s.state ≠ .exited ∧ ((s.claimed .dat).pin .dat).dir = .output ∧
      FailsAt s (claimEvents s .dat).length []) ∧
    (∃ s : State, s.state ≠ .exited ∧ ((s.claimed .dat).pin .dat).dir = .output ∧
      Serves s ((claimEvents s .dat).length + 1) []) :=
  ⟨⟨failing 0 fresh, by decide, rfl, rfl⟩, ⟨served 1 fresh, 2, by decide, by decide, by decide, rfl⟩,
    ⟨served 1 fresh, by decide, rfl, rfl⟩, ⟨failing 0 entered, by decide, rfl, rfl⟩,
    ⟨served 1 entered, by decide, rfl, rfl⟩⟩

theorem test_witness_ReadSamplesTheLine :
    (∃ s : State, s.state ≠ .exited ∧ (s.pin .dat).acquired = false ∧ FailsAt s 0 []) ∧
    (∃ s : State, s.state ≠ .exited ∧ ((s.claimed .dat).pin .dat).dir = .output ∧
      Serves s (claimEvents s .dat).length []) ∧
    (∃ s : State, s.state ≠ .exited ∧ ((s.claimed .dat).pin .dat).dir = .input ∧
      FailsAt s (claimEvents s .dat).length []) ∧
    (∃ s : State, ∃ b : Bit, s.state ≠ .exited ∧ ((s.claimed .dat).pin .dat).dir = .input ∧
      Serves s ((claimEvents s .dat).length + 1) [] ∧
      s.env.reads = (if b then ['1', '\n'] else ['0', '\n']) :: []) ∧
    (∃ s : State, s.state ≠ .exited ∧ ((s.claimed .dat).pin .dat).dir = .input ∧
      Serves s ((claimEvents s .dat).length + 1) [] ∧ s.env.reads = ['2', '\n'] :: []) :=
  ⟨⟨failing 0 fresh, by decide, rfl, rfl⟩, ⟨served 0 entered, by decide, rfl, rfl⟩,
    ⟨failing 0 listening, by decide, rfl, rfl⟩,
    ⟨presenting [true] (served 1 listening), true, by decide, rfl, rfl, rfl⟩,
    ⟨(served 1 listening).withReads [['2', '\n']], by decide, rfl, rfl, rfl⟩⟩

theorem test_witness_ReleaseReturnsThePin :
    (fresh.state ≠ .exited ∧ (fresh.pin .dat).acquired = false) ∧
    (∃ s : State, s.state ≠ .exited ∧ (s.pin .dat).acquired = true ∧ Serves s 1 []) ∧
    (∃ s : State, s.state ≠ .exited ∧ (s.pin .dat).acquired = true ∧ FailsAt s 0 []) :=
  ⟨⟨by decide, rfl⟩, ⟨served 1 entered, by decide, rfl, rfl⟩, ⟨failing 0 entered, by decide, rfl, rfl⟩⟩

theorem test_witness_EnsureOutWriteDrives :
    (∃ s : State, s.state ≠ .exited ∧ Serves s ((claimEvents s .rst).length + 1) []) ∧
    (∃ s : State, s.state ≠ .exited ∧ (s.pin .rst).acquired = false ∧ FailsAt s 0 []) ∧
    (∃ s : State, s.state ≠ .exited ∧ FailsAt s (claimEvents s .rst).length []) :=
  ⟨⟨served 2 fresh, by decide, rfl⟩, ⟨failing 0 fresh, by decide, rfl, rfl⟩, ⟨failing 0 entered, by decide, rfl⟩⟩

theorem test_witness_ReverseIsBitReversal : (∃ v n : Nat, v < 2 ^ n) ∧ (∃ v n : Nat, 2 ^ n ≤ v) :=
  ⟨⟨0, 0, by decide⟩, ⟨1, 0, by decide⟩⟩

theorem test_witness_SendLowestBitFirst :
    (fresh.state ≠ .exited ∧ fresh.pin .clk ≠ { acquired := true, dir := .output, level := some false }) ∧
    (listening.state ≠ .exited ∧ listening.pin .clk = { acquired := true, dir := .output, level := some false } ∧
      ¬((listening.pin .dat).acquired = true ∧ (listening.pin .dat).dir = .output)) ∧
    (∃ s : State, s.state ≠ .exited ∧ s.pin .clk = { acquired := true, dir := .output, level := some false } ∧
      (s.pin .dat).acquired = true ∧ (s.pin .dat).dir = .output ∧ Serves s (3 * 2) []) ∧
    (∃ s : State, s.state ≠ .exited ∧ s.pin .clk = { acquired := true, dir := .output, level := some false } ∧
      (s.pin .dat).acquired = true ∧ (s.pin .dat).dir = .output ∧
      errorAt 5 (sendEvents 2 2) = some (.hardwareUnavailable .clk .value) ∧
      FirstFailure s (sendEvents 2 2) 5 [] []) :=
  ⟨⟨by decide, by decide⟩, ⟨by decide, rfl, by decide⟩, ⟨served 6 entered, by decide, rfl, rfl, rfl, rfl⟩,
    ⟨failing 5 entered, by decide, rfl, rfl, rfl, by decide +kernel, .inl ⟨rfl, by rfl⟩⟩⟩

theorem test_witness_RecvLowestBitFirst :
    (fresh.state ≠ .exited ∧ fresh.pin .clk ≠ { acquired := true, dir := .output, level := some false }) ∧
    (entered.state ≠ .exited ∧ entered.pin .clk = { acquired := true, dir := .output, level := some false } ∧
      ¬((entered.pin .dat).acquired = true ∧ (entered.pin .dat).dir = .input)) ∧
    (∃ s : State, s.state ≠ .exited ∧ s.pin .clk = { acquired := true, dir := .output, level := some false } ∧
      (s.pin .dat).acquired = true ∧ (s.pin .dat).dir = .input ∧ Presents s [true, false] [] ∧ Serves s (3 * 2) []) ∧
    (∃ s : State, s.state ≠ .exited ∧ s.pin .clk = { acquired := true, dir := .output, level := some false } ∧
      (s.pin .dat).acquired = true ∧ (s.pin .dat).dir = .input ∧
      errorAt 5 (recvEvents [true, false]) = some (.hardwareUnavailable .clk .value) ∧
      FirstFailure s (recvEvents [true, false]) 5 [] []) ∧
    (∃ s : State, s.state ≠ .exited ∧ s.pin .clk = { acquired := true, dir := .output, level := some false } ∧
      (s.pin .dat).acquired = true ∧ (s.pin .dat).dir = .input ∧
      errorAt 4 (recvEvents [true, false]) = some (.hardwareUnavailable .dat .value) ∧
      FirstFailure s (recvEvents [true, false]) 4 [] []) :=
  ⟨⟨by decide, by decide⟩, ⟨by decide, rfl, by decide⟩,
    ⟨presenting [true, false] (served 6 listening), by decide, rfl, rfl, rfl, rfl, rfl⟩,
    ⟨presenting [true, false] (failing 5 listening), by decide, rfl, rfl, rfl, by decide +kernel, .inl ⟨rfl, by rfl⟩⟩,
    ⟨(served 5 listening).withReads [bitContent true, ['2', '\n']], by decide, rfl, rfl, rfl, by decide +kernel,
      .inr ⟨⟨.dat, false, by rfl⟩, rfl, ['2', '\n'], by decide, by decide, by rfl⟩⟩⟩

/-- A wrong content of the second value read is what a receive of two bits stops at. -/
theorem test_recv_bad_content :
    newEvents listening (exec (.recv 2) ((served 11 listening).withReads [bitContent true, ['2', '\n']])) =
      some ([.wr .clk true, .hold .tHalf, .rd .dat true, .wr .clk false, .hold .tHalf, .wr .clk true, .hold .tHalf] ++
        [.dir .rst .dirIn, .unclaim .rst, .dir .clk .dirIn, .unclaim .clk, .dir .dat .dirIn, .unclaim .dat]) := by
  decide +kernel

theorem test_witness_LoopbackIdentity : ∃ s : State, s.state ≠ .exited ∧ SendReady s ∧ Serves s (3 * 3 + 1 + 3 * 3) [] ∧
    Presents s [true, false, true] [] ∧
    wireBits (some false) (s.pin .dat).level (sendEvents 5 3) = [true, false, true].map some :=
  ⟨presenting [true, false, true] (served 19 entered), by decide, ⟨rfl, rfl, rfl⟩, rfl, rfl, by decide +kernel⟩

/-- Entered, but the host has left the clock high. -/
def clockHigh : State := { entered with pins := { entered.pins with clk := drivenLow.withLevel true } }

/-- The premises of every clause of `CommandStops`, and a failure of the last provider operation of `INC_ADDR`. -/
theorem test_witness_CommandStops :
    ¬Programming fresh ∧ (Programming clockHigh ∧ clockHigh.pin .clk ≠ drivenLow) ∧
    (Programming listening ∧ listening.pin .clk = drivenLow ∧
      ¬((listening.pin .dat).acquired = true ∧ (listening.pin .dat).dir = .output)) ∧
    (Programming (failing 17 entered) ∧ SendReady (failing 17 entered) ∧
      errorAt 17 (controlEvents 0x06 .tCmd) = some (.hardwareUnavailable .clk .value) ∧
      FirstFailure (failing 17 entered) (controlEvents 0x06 .tCmd) 17 [] []) :=
  ⟨(by rintro (h | h) <;> cases h), ⟨.inl rfl, by decide⟩, ⟨.inl rfl, rfl, by decide⟩,
    ⟨.inl rfl, ⟨rfl, rfl, rfl⟩, by decide +kernel, .inl ⟨rfl, by rfl⟩⟩⟩

theorem test_witness_ControlCommandsSendTheirOpcode :
    (∃ s : State, Programming s ∧ SendReady s ∧ Serves s 18 []) ∧
    17 < (providerOps (sendEvents 0x16 6 ++ [.hold .tCmd])).length :=
  ⟨⟨served 18 entered, .inl rfl, ⟨rfl, rfl, rfl⟩, rfl⟩, by decide +kernel⟩

theorem test_witness_WriteCommandsSendTheWord :
    (2 ^ 14 ≤ (0x4000 : Nat)) ∧
    (∃ s : State, (0x3FFF : Nat) < 2 ^ 14 ∧ Programming s ∧ SendReady s ∧ Serves s 66 []) ∧
    65 < (providerOps (writeEvents 0x02 0x3FFF)).length :=
  ⟨by decide, ⟨served 66 entered, by decide, .inl rfl, ⟨rfl, rfl, rfl⟩, rfl⟩, by decide +kernel⟩

theorem test_witness_ReadDataReturnsTheWord :
    (∃ s : State, ∃ bs : List Bit, bs.length = 16 ∧ Presents s bs [] ∧ Programming s ∧ SendReady s ∧ Serves s 68 []) ∧
    (∃ s : State, ∃ bs : List Bit, bs.length = 16 ∧ Programming s ∧ SendReady s ∧
      errorAt 67 (readEvents bs) = some (.hardwareUnavailable .dat .direction) ∧
      FirstFailure s (readEvents bs) 67 [] []) ∧
    (∃ s : State, ∃ bs : List Bit, bs.length = 16 ∧ Programming s ∧ SendReady s ∧
      errorAt 20 (readEvents bs) = some (.hardwareUnavailable .dat .value) ∧
      FirstFailure s (readEvents bs) 20 [] []) :=
  ⟨⟨presenting (List.replicate 16 true) (served 68 entered), List.replicate 16 true, rfl, rfl, .inl rfl,
      ⟨rfl, rfl, rfl⟩, rfl⟩,
    ⟨presenting (List.replicate 16 true) (failing 67 entered), List.replicate 16 true, rfl, .inl rfl,
      ⟨rfl, rfl, rfl⟩, by decide +kernel, .inl ⟨rfl, by rfl⟩⟩,
    ⟨(served 21 entered).withReads [[]], List.replicate 16 true, rfl, .inl rfl, ⟨rfl, rfl, rfl⟩, by decide +kernel,
      .inr ⟨⟨.dat, true, by rfl⟩, rfl, [], by decide, by decide, by rfl⟩⟩⟩

theorem test_witness_KeyFrameSendsThirtyThreeBits :
    exited.state = .exited ∧ (fresh.state ≠ .exited ∧ fresh.pin .clk ≠ drivenLow) ∧
    (listening.state ≠ .exited ∧ listening.pin .clk = drivenLow ∧
      ¬((listening.pin .dat).acquired = true ∧ (listening.pin .dat).dir = .output)) ∧
    (∃ s : State, s.state ≠ .exited ∧ SendReady s ∧ Serves s 99 []) ∧
    (∃ s : State, s.state ≠ .exited ∧ SendReady s ∧
      errorAt 98 keyEvents = some (.hardwareUnavailable .clk .value) ∧ FirstFailure s keyEvents 98 [] []) :=
  ⟨rfl, ⟨by decide, by decide⟩, ⟨by decide, rfl, by decide⟩, ⟨served 99 entered, by decide, ⟨rfl, rfl, rfl⟩, rfl⟩,
    ⟨failing 98 entered, by decide, ⟨rfl, rfl, rfl⟩, by decide +kernel, .inl ⟨rfl, by rfl⟩⟩⟩

theorem test_witness_CommandWireBits : ∃ s : State, ∃ bs : List Bit, isCommand .readData = true ∧
    Instr.wf .readData = true ∧ Programming s ∧ SendReady s ∧ bs.length = 16 ∧
    Serves s (providerOps (plannedEvents s bs .readData)).length [] ∧ Presents s bs [] :=
  ⟨presenting (List.replicate 16 true) (served 68 entered), List.replicate 16 true, rfl, rfl, .inl rfl, ⟨rfl, rfl, rfl⟩,
    rfl, by rfl, rfl⟩

theorem test_witness_ResetDrivesResetLow :
    (∃ s : State, s.state = .unpowered ∧ Serves s ((claimEvents s .rst).length + 1) []) ∧
    (∃ s : State, s.state = .reset ∧ Serves s ((claimEvents s .rst).length + 1) []) ∧
    (∃ s : State, s.state = .unpowered ∧ errorAt 1 (resetEvents s) = some (.hardwareUnavailable .rst .direction) ∧
      FirstFailure s (resetEvents s) 1 [] []) ∧
    (entered.state ≠ .unpowered ∧ entered.state ≠ .reset) :=
  ⟨⟨served 2 fresh, rfl, rfl⟩, ⟨served 1 held, rfl, rfl⟩, ⟨failing 1 fresh, rfl, by decide, .inl ⟨rfl, by rfl⟩⟩, by decide⟩

theorem test_witness_EnterLvpSendsTheKey :
    (∃ s : State, s.state = .reset ∧ Serves s ((claimEvents s .clk).length + (claimEvents s .dat).length + 101) []) ∧
    (∃ s : State, s.state = .reset ∧ errorAt 102 (enterEvents s) = some (.hardwareUnavailable .clk .value) ∧
      FirstFailure s (enterEvents s) 102 [] []) ∧
    fresh.state ≠ .reset :=
  ⟨⟨served 103 held, rfl, rfl⟩, ⟨failing 102 held, rfl, by decide +kernel, .inl ⟨rfl, by rfl⟩⟩, by decide⟩

/-- In Reset, with a clock that is an output of the given level. -/
def clockOut (level : Option Bit) : State :=
  { held with pins := { held.pins with clk := { acquired := true, dir := .output, level := level } } }

theorem test_witness_EntryWireBits :
    (∃ s : State, s.state = .reset ∧ (s.pin .clk).Sound ∧ (s.pin .clk).dir = .input ∧
      Serves s (providerOps (enterEvents s)).length []) ∧
    (∀ level, ∃ s : State, s.state = .reset ∧ (s.pin .clk).Sound ∧ (s.pin .clk).dir = .output ∧
      (s.pin .clk).level = level ∧ Serves s (providerOps (enterEvents s)).length []) :=
  ⟨⟨served 103 held, rfl, ⟨by decide, by decide⟩, rfl, by rfl⟩,
    fun level => ⟨served 102 (clockOut level), rfl, ⟨nofun, nofun⟩, rfl, rfl, by rfl⟩⟩

theorem test_witness_SessionDrivesTheLines : ∃ (c : SessionConfig) (s : State),
    (c.pinReset ≠ c.pinClock ∧ c.pinReset ≠ c.pinData ∧ c.pinClock ≠ c.pinData) ∧
    Serves s (111 + if c.exitResetMode = .driveHigh then 1 else 0) [] :=
  ⟨Config.resetSession, served 111 entered, by decide, rfl⟩

theorem test_witness_ExitReleasesEveryPin : ∃ s : State, s.state ≠ .exited ∧ RecordsInv s ∧
    Serves s (exitEvents s).length [] :=
  ⟨served 6 entered, by decide, { recordsInv_entered with }, by rfl⟩

theorem test_witness_ExitAggregatesFailures : ∃ s : State, ∃ fs : List Bool, s.state ≠ .exited ∧ s.tracked.Nodup ∧
    s.env.fails = fs ++ [] ∧ fs.length = (exitEvents s).length :=
  ⟨entered.withFails [false, false, false, true, false, false], [false, false, false, true, false, false], by decide,
    by decide, by decide, by decide⟩

theorem test_witness_ExitedIsTerminal : ∃ s t : State, s.state = .exited ∧ step s = .next t ∧
    (∀ r rest c, s.host = r :: rest → r.decode = .ok (.sessionNew c) → s.irqPending = true) :=
  ⟨exited.withHost [.call .exit], _, rfl, rfl, by intro r rest c h; cases h; intro h'; cases h'⟩

theorem test_witness_AdmissionTable :
    (Instr.wf .exit = true ∧ Instr.exit ≠ .lvpKey ∧ (∀ c, Instr.exit ≠ .sessionNew c) ∧
      exited.state ∉ admittedStates .exit) ∧
    (Instr.wf .reset = true ∧ Instr.reset ≠ .lvpKey ∧ (∀ c, Instr.reset ≠ .sessionNew c) ∧
      held.state ∈ admittedStates .reset) :=
  ⟨⟨rfl, by decide, by simp, by decide⟩, ⟨rfl, by decide, by simp, by decide⟩⟩

theorem test_witness_OperandRefusals : (∃ v n : Nat, 2 ^ n ≤ v) ∧ (∃ d : Nat, 2 ^ 14 ≤ d) ∧
    (∃ c : SessionConfig, c.pinReset = c.pinClock ∨ c.pinReset = c.pinData ∨ c.pinClock = c.pinData) :=
  ⟨⟨16, 4, by decide⟩, ⟨0x4000, by decide⟩, ⟨{ Config.resetSession with pinClock := 1 }, .inl rfl⟩⟩

theorem test_witness_VerifyZeroClears : Programming entered := .inl rfl

/-- Entered, with one word to verify. -/
def oneWord : State := { entered with cfg := { entered.cfg with verifyCount := 1 } }

/-- A run of `n` passes over one word, served, presented and undisturbed; the target has `B i k` for word `k` of pass
`i`. -/
def verifyRunState (n : Nat) (B : Nat → Nat → List Bit) : State :=
  (presenting (readBits (verifyEvents B (verifySteps n 1)))
    (served (providerOps (verifyEvents B (verifySteps n 1))).length oneWord)).withIrqs
      (List.replicate ((verifySteps n 1).length - 1) false)

/-- Every pass reads the same word. -/
def agreeing : Nat → Nat → List Bit := fun _ _ => bitsOf 16 (2 * 0x0155)

/-- Pass `j` alone reads another word. -/
def disagreeing (j : Nat) : Nat → Nat → List Bit := fun i _ => bitsOf 16 (2 * if i = j then 0x0154 else 0x0155)

theorem verifyRun_oneWord {s : State} {B : Nat → Nat → List Bit} (hs : s.pins = oneWord.pins ∧ s.state = oneWord.state)
    (hB : ∀ i k, (B i k).length = 16) : VerifyRun s B where
  programming := .inl hs.2
  ready := by simp [SendReady, State.pin, hs.1]; decide
  width := hB

theorem verifyServed_verifyRunState (n : Nat) (B : Nat → Nat → List Bit) :
    VerifyServed (verifyRunState n B) n B [] [] [] where
  serves := by simp [Serves, verifyRunState, presenting, served]; rfl
  presents := by simp [Presents, verifyRunState, presenting]; rfl
  undisturbed := ⟨rfl, by simp [verifyRunState, presenting]; rfl⟩

theorem test_witness_VerifyComparesWithPassZero :
    (∃ s B, VerifyRun s B ∧ VerifyServed s 2 B [] [] []) ∧ (∃ s B, VerifyRun s B ∧ VerifyServed s 0 B [] [] []) :=
  ⟨⟨verifyRunState 2 (disagreeing 1), _, verifyRun_oneWord ⟨rfl, rfl⟩ fun _ _ => rfl, verifyServed_verifyRunState _ _⟩,
    ⟨verifyRunState 0 agreeing, _, verifyRun_oneWord ⟨rfl, rfl⟩ fun _ _ => rfl, verifyServed_verifyRunState _ _⟩⟩

/-- Three passes over one word: no word differs; pass 1 alone differs; pass 0 alone differs. -/
theorem test_witness_VerifyOutcomes :
    (∃ s B, VerifyRun s B ∧ VerifyServed s 3 B [] [] [] ∧
      ∀ i k, i < 3 → k < s.cfg.verifyCount → wordRead B i k = wordRead B 0 k) ∧
    (∃ s B, VerifyRun s B ∧ VerifyServed s 3 B [] [] [] ∧ 0 < s.cfg.verifyCount ∧ wordRead B 1 0 ≠ wordRead B 0 0 ∧
      ∀ i h, i < 3 → h < s.cfg.verifyCount → (i, h) ≠ (1, 0) → wordRead B i h = wordRead B 0 h) ∧
    (∃ s B, ∃ w : Word, VerifyRun s B ∧ VerifyServed s 3 B [] [] [] ∧ 0 < s.cfg.verifyCount ∧ w ≠ wordRead B 0 0 ∧
      (∀ i, 1 ≤ i → i < 3 → wordRead B i 0 = w) ∧
      ∀ i h, i < 3 → h < s.cfg.verifyCount → h ≠ 0 → wordRead B i h = wordRead B 0 h) := by
  refine ⟨⟨verifyRunState 3 agreeing, _, verifyRun_oneWord ⟨rfl, rfl⟩ fun _ _ => rfl, verifyServed_verifyRunState _ _, fun _ _ _ _ => rfl⟩,
    ⟨verifyRunState 3 (disagreeing 1), _, verifyRun_oneWord ⟨rfl, rfl⟩ fun _ _ => rfl, verifyServed_verifyRunState _ _, by decide,
      by decide +kernel, ?_⟩,
    ⟨verifyRunState 3 (disagreeing 0), _, 0x0155, verifyRun_oneWord ⟨rfl, rfl⟩ fun _ _ => rfl, verifyServed_verifyRunState _ _, by decide,
      by decide +kernel, ?_, ?_⟩⟩
  · intro i h _ hh hne
    have h0 : h = 0 := Nat.lt_one_iff.mp hh
    have hi : i ≠ 1 := fun e => hne (by rw [e, h0])
    simp [wordRead, disagreeing, hi]
  · intro i hi _
    have : i ≠ 0 := by omega
    simp only [wordRead, disagreeing, this, if_false]
    decide +kernel
  · intro i h _ hh hne
    exact absurd (Nat.lt_one_iff.mp hh) hne

/-- A request before the boundary after `READ_DATA` of pass 0. -/
theorem test_witness_VerifyStopsAtInterrupt : ∃ s B done, VerifyRun s B ∧
    done = (verifySteps 2 s.cfg.verifyCount).take (1 + 1) ∧ 1 + 1 < (verifySteps 2 s.cfg.verifyCount).length ∧
    Serves s (providerOps (verifyEvents B done)).length [] ∧ Presents s (readBits (verifyEvents B done)) [] ∧
    DisturbedAt s 1 [] :=
  ⟨(presenting (agreeing 0 0) (served 134 oneWord)).withIrqs [false, true], agreeing, [.load, .read 0 0],
    verifyRun_oneWord ⟨rfl, rfl⟩ fun _ _ => rfl, rfl, by decide, by unfold Serves; decide +kernel,
    by unfold Presents; decide +kernel, rfl, rfl⟩

/-- A failure of the provider in `READ_DATA` of pass 0, and a wrong content there. -/
theorem test_witness_VerifyStopsAtFailure :
    (∃ s B e, VerifyRun s B ∧ (providerOps (verifyEvents B [.load])).length ≤ 86 ∧
      86 < (providerOps (verifyEvents B ((verifySteps 2 s.cfg.verifyCount).take (1 + 1)))).length ∧
      errorAt 86 (verifyEvents B (verifySteps 2 s.cfg.verifyCount)) = some e ∧
      FirstFailure s (verifyEvents B (verifySteps 2 s.cfg.verifyCount)) 86 [] [] ∧ Undisturbed s 1 []) ∧
    (∃ s B e, VerifyRun s B ∧ (providerOps (verifyEvents B [.load])).length ≤ 86 ∧
      86 < (providerOps (verifyEvents B ((verifySteps 2 s.cfg.verifyCount).take (1 + 1)))).length ∧
      errorAt 86 (verifyEvents B (verifySteps 2 s.cfg.verifyCount)) = some e ∧
      IsRead 86 (verifyEvents B (verifySteps 2 s.cfg.verifyCount)) ∧
      FirstFailure s (verifyEvents B (verifySteps 2 s.cfg.verifyCount)) 86 [] [] ∧ Undisturbed s 1 []) :=
  ⟨⟨(failing 86 oneWord).withIrqs [false], agreeing, .hardwareUnavailable .dat .value,
      verifyRun_oneWord ⟨rfl, rfl⟩ fun _ _ => rfl, by decide +kernel, by decide +kernel, by decide +kernel,
      .inl ⟨rfl, by unfold Presents; decide +kernel⟩, rfl, rfl⟩,
    ⟨((served 87 oneWord).withReads [[]]).withIrqs [false], agreeing, .hardwareUnavailable .dat .value,
      verifyRun_oneWord ⟨rfl, rfl⟩ fun _ _ => rfl, by decide +kernel, by decide +kernel, by decide +kernel,
      ⟨.dat, false, by decide +kernel⟩,
      .inr ⟨⟨.dat, false, by decide +kernel⟩, rfl, [], by decide, by decide, by unfold Presents; decide +kernel⟩,
      rfl, rfl⟩⟩

/-- The last provider operation of each shape of operation, and a wrong content in `READ_DATA`. -/
theorem test_witness_FailureStopsPrecisely :
    (Instr.wf .readData = true ∧ entered.state ∈ admittedStates .readData ∧
      PinsReady entered (List.replicate 16 true) .readData ∧
      ∃ e, errorAt 20 (plannedEvents entered (List.replicate 16 true) .readData) = some e ∧
        FirstFailure ((served 21 entered).withReads [[]])
          (plannedEvents entered (List.replicate 16 true) .readData) 20 [] []) ∧
    (Instr.wf (.loadData 1) = true ∧ entered.state ∈ admittedStates (.loadData 1) ∧ PinsReady entered [] (.loadData 1) ∧
      ∃ e, errorAt 65 (plannedEvents entered [] (.loadData 1)) = some e ∧
        FirstFailure (failing 65 entered) (plannedEvents entered [] (.loadData 1)) 65 [] []) ∧
    (Instr.wf .reset = true ∧ fresh.state ∈ admittedStates .reset ∧ PinsReady fresh [] .reset ∧
      ∃ e, errorAt 1 (plannedEvents fresh [] .reset) = some e ∧
        FirstFailure (failing 1 fresh) (plannedEvents fresh [] .reset) 1 [] []) ∧
    (Instr.wf .enterLvp = true ∧ held.state ∈ admittedStates .enterLvp ∧ PinsReady held [] .enterLvp ∧
      ∃ e, errorAt 102 (plannedEvents held [] .enterLvp) = some e ∧
        FirstFailure (failing 102 held) (plannedEvents held [] .enterLvp) 102 [] []) ∧
    (Instr.wf (.recv 1) = true ∧ listening.state ∈ admittedStates (.recv 1) ∧ PinsReady listening [true] (.recv 1) ∧
      ∃ e, errorAt 2 (plannedEvents listening [true] (.recv 1)) = some e ∧
        FirstFailure (presenting [true] (failing 2 listening)) (plannedEvents listening [true] (.recv 1)) 2 [] []) :=
  ⟨⟨rfl, by decide, ⟨⟨rfl, rfl, rfl⟩, rfl⟩, _, by rfl,
      .inr ⟨⟨.dat, true, by rfl⟩, rfl, [], by decide, by decide, by rfl⟩⟩,
    ⟨rfl, by decide, ⟨rfl, rfl, rfl⟩, _, by rfl, .inl ⟨rfl, by rfl⟩⟩,
    ⟨rfl, by decide, trivial, _, by rfl, .inl ⟨rfl, by rfl⟩⟩,
    ⟨rfl, by decide, trivial, _, by rfl, .inl ⟨rfl, by rfl⟩⟩,
    ⟨rfl, by decide, ⟨rfl, rfl, rfl, rfl⟩, _, by rfl, .inl ⟨rfl, by rfl⟩⟩⟩

theorem test_witness_InterruptAbortsTheSession :
    (∃ s : State, s.state ≠ .exited ∧ RecordsInv s ∧ Serves s (exitEvents s).length []) ∧ exited.state = .exited ∧
    (∃ s : State, ∃ fs : List Bool, s.state ≠ .exited ∧ s.tracked.Nodup ∧ s.env.fails = fs ++ [] ∧
      fs.length = (exitEvents s).length) :=
  ⟨test_witness_ExitReleasesEveryPin, rfl, test_witness_ExitAggregatesFailures⟩

theorem test_witness_AbortRunsTeardown : exited.state = .exited ∧ entered.state ≠ .exited := ⟨rfl, by decide⟩

/-- An error of each kind that an operation can propagate. -/
theorem test_witness_ErrorOrigins :
    (∃ t, exec (.write .dat 2) (served 3 fresh) = .next t ∧
      t.results = (served 3 fresh).results ++ [.err (.op (.invalidPinValue 2)) []]) ∧
    (∃ t, exec (.send 1 1) fresh = .next t ∧
      t.results = fresh.results ++ [.err (.op (.preconditionViolation .clk .sendClockNotLowOutput)) []]) ∧
    (∃ t, exec (.acquire .clk) (failing 0 fresh) = .next t ∧
      t.results = (failing 0 fresh).results ++ [.err (.op (.hardwareUnavailable .clk .claim)) []]) ∧
    (∃ t, exec .interrupt fresh = .next t ∧ t.results = fresh.results ++ [.err (.op .interrupted) []]) :=
  ⟨⟨_, rfl, by rfl⟩, ⟨_, rfl, by rfl⟩, ⟨_, rfl, by rfl⟩, ⟨_, rfl, by rfl⟩⟩

theorem test_witness_NoPreconditionFault : ∃ t : State, EntryInv (served 18 entered) ∧ (served 18 entered).err = none ∧
    isCommand .incAddr = true ∧ exec .incAddr (served 18 entered) = .next t :=
  ⟨_, entryInv_entered, rfl, rfl, rfl⟩

theorem test_witness_ErrorWrittenOnce : ∃ (i : Instr) (s t : State),
    (∀ c, i = .sessionNew c → c.pinsDistinct = false) ∧ exec i s = .next t :=
  ⟨.write .dat 2, served 3 fresh, _, by simp, rfl⟩

theorem test_witness_TraceIsAppendOnly : ∃ (i : Instr) (s t : State), exec i s = .next t ∧
    (∀ c, i = .sessionNew c → c.pinsDistinct = false) :=
  ⟨.incAddr, served 18 entered, _, rfl, by simp⟩

theorem test_witness_ConfigWrittenOnce : ∃ s t : State, step s = .next t := ⟨fresh, fresh, rfl⟩

theorem test_witness_ComparatorFrame : ∃ (i : Instr) (s t : State), (∀ n, i ≠ .verify n) ∧ (∀ c, i ≠ .sessionNew c) ∧
    exec i s = .next t :=
  ⟨.incAddr, served 18 entered, _, by simp, by simp, rfl⟩

theorem test_witness_SessionStateMovesForward : ∃ (i : Instr) (s t : State), (∀ c, i ≠ .sessionNew c) ∧
    exec i s = .next t :=
  ⟨.incAddr, served 18 entered, _, by simp, rfl⟩

theorem test_witness_ResetLineHeld : ∃ s t : State, exec .incAddr s = .next t ∧ t.state ≠ .exited :=
  ⟨served 18 entered, _, rfl, by decide +kernel⟩

theorem test_witness_EventCountsAndTimes : ∃ s : State, ∃ bs : List Bit, Instr.wf .enterLvp = true ∧
    s.state ∈ admittedStates .enterLvp ∧ PinsReady s bs .enterLvp ∧
    (s.pin .clk).acquired = false ∧ (s.pin .dat).acquired = false ∧
    Serves s (providerOps (plannedEvents s bs .enterLvp)).length [] ∧ Presents s bs [] :=
  ⟨served 103 held, [], rfl, by decide, trivial, rfl, rfl, by rfl, rfl⟩

theorem test_witness_VerifyCountsAndTime : ∃ s B, VerifyRun s B ∧ VerifyServed s 2 B [] [] [] :=
  test_witness_VerifyComparesWithPassZero.1

theorem test_witness_RecordsInvKeptByEveryStep : ∃ s t : State, RecordsInv s ∧ step s = .next t :=
  ⟨entered, entered, recordsInv_entered, rfl⟩

theorem test_witness_EntryInvKept : ∃ (i : Instr) (s t : State), (∀ p d, i ≠ .setDir p d) ∧ (∀ p v, i ≠ .write p v) ∧
    (∀ p, i ≠ .release p) ∧ (∀ p b, i ≠ .ensureOutWrite p b) ∧ EntryInv s ∧ exec i s = .next t :=
  ⟨.incAddr, served 18 entered, _, by simp, by simp, by simp, by simp, entryInv_entered, rfl⟩

end Sys2Proof.Tests
end

section
/-! PROOFS. Whole-machine rules (spec/10_state.md): what one step can do, said once, and the relations that hold across
every elementary action of the machine: the records' invariant (R15, R17, R21, R22), the parameters (R14) and the trace
(R25). -/

namespace Sys2Proof.Machine

/-! ## One step of the machine -/

/-- R114, R59: a step takes the pending interrupt, or is idle, or runs the host's next operation, or refuses a request
that is no operation. -/
theorem step_cases {s t : State} (h : step s = .next t) :
    (s.irqPending = true ∧ exec .interrupt (s.withIrqPending false) = .next t) ∨
      (s.irqPending = false ∧ s.host = [] ∧ t = s) ∨
      (∃ r rest i, s.irqPending = false ∧ s.host = r :: rest ∧ r.decode = .ok i ∧
        exec i (s.withHost rest) = .next t) ∨
      (∃ r rest e, s.irqPending = false ∧ s.host = r :: rest ∧ r.decode = .error e ∧
        t = (s.withHost rest).refuse (.noOperation e)) := by
  unfold step at h
  cases hq : s.irqPending with
  | true => rw [if_pos hq] at h; exact .inl ⟨rfl, h⟩
  | false =>
    rw [if_neg (by simp [hq])] at h
    cases hh : s.host with
    | nil => rw [hh] at h; cases h; exact .inr (.inl ⟨rfl, rfl, rfl⟩)
    | cons r rest =>
      simp only [hh] at h
      cases hd : r.decode with
      | ok i => rw [hd] at h; exact .inr (.inr (.inl ⟨r, rest, i, rfl, rfl, hd, h⟩))
      | error e => rw [hd] at h; cases h; exact .inr (.inr (.inr ⟨r, rest, e, rfl, rfl, hd, rfl⟩))

/-- A relation that holds across the elementary actions and across a change of the host's queue holds across every step,
unless the step begins a session. -/
theorem step_actions {R : State → State → Prop} (hR : VerifyActions R) (hhost : ∀ s q, R s (s.withHost q))
    {s t : State} (h : step s = .next t) :
    R s t ∨ ∃ r rest c, s.irqPending = false ∧ s.host = r :: rest ∧ r.decode = .ok (.sessionNew c) ∧
      c.pinsDistinct = true ∧ t = (newSession c (s.withHost rest)).addResult (.ok .unit) := by
  rcases step_cases h with ⟨_, he⟩ | ⟨_, _, rfl⟩ | ⟨r, rest, i, hq, hh, hd, he⟩ | ⟨r, rest, e, _, _, _, rfl⟩
  · exact .inl (hR.trans _ _ _ (hR.irqTaken s) (exec_actions hR .interrupt (by simp) he))
  · exact .inl (hR.refl t)
  · by_cases hi : ∃ c, i = .sessionNew c
    · obtain ⟨c, rfl⟩ := hi
      rcases execSessionNew_cases c (s.withHost rest) with ⟨_, hs⟩ | ⟨hc, hs⟩ <;> rw [hs] at he <;> cases he
      · exact .inl (hR.trans _ _ _ (hhost s rest) (hR.refuse _ _))
      · exact .inr ⟨r, rest, c, hq, hh, hd, hc, rfl⟩
    · exact .inl (hR.trans _ _ _ (hhost s rest) (exec_actions hR i (fun c hc => hi ⟨c, hc⟩) he))
  · exact .inl (hR.trans _ _ _ (hhost s rest) (hR.refuse _ _))

/-- A relation on the fields that the pin and transport actions leave alone holds across those actions. -/
theorem PrimActions.of_primFrame {R : State → State → Prop} (hC : Composes R)
    (hF : ∀ {s t}, PrimFrame s t → R s t) : PrimActions R where
  toComposes := hC
  fails s l := hF (primFrame_actions.fails s l)
  reads s l := hF (primFrame_actions.reads s l)
  drawn s := hF (primFrame_actions.drawn s)
  emit s e := hF (primFrame_actions.emit s e)
  claim s p h := hF (primFrame_actions.claim s p h)
  dir s p d h := hF (primFrame_actions.dir s p d h)
  level s p b h hd := hF (primFrame_actions.level s p b h hd)
  unclaim s p h := hF (primFrame_actions.unclaim s p h)

/-! ## The records' invariant (R15, R17, R21, R22) -/

theorem PinRec.sound_reset : PinRec.reset.Sound := ⟨fun _ => rfl, fun _ => rfl⟩

theorem PinRec.sound_claimed : PinRec.claimed.Sound := ⟨fun _ => rfl, by simp [PinRec.claimed]⟩

@[simp] theorem PinRec.withDir_acquired (r : PinRec) (d : DirWord) : (r.withDir d).acquired = r.acquired := by
  cases d <;> rfl

theorem PinRec.sound_withDir {r : PinRec} (d : DirWord) (h : r.acquired = true) : (r.withDir d).Sound := by
  refine ⟨?_, by simp [h]⟩
  cases d <;> simp [PinRec.withDir]

theorem PinRec.sound_withLevel {r : PinRec} (b : Bit) (h : r.acquired = true) (hd : r.dir = .output) :
    (r.withLevel b).Sound :=
  ⟨by simp [PinRec.withLevel, hd], by simp [PinRec.withLevel, h]⟩

section
variable {s t : State}

/-- The invariant speaks of five fields only. -/
theorem RecordsInv.congr (h : RecordsInv s) (hsnap : t.snap = s.snap) (htr : t.tracked = s.tracked)
    (hpins : t.pins = s.pins) (hm : t.mismatches = s.mismatches) (hc : t.cfg = s.cfg) : RecordsInv t where
  snapWf := by rw [hsnap]; exact h.snapWf
  trackedOnce := by rw [htr]; exact h.trackedOnce
  acquiredTracked p := by rw [State.pin_eq, hpins, ← State.pin_eq, htr]; exact h.acquiredTracked p
  pinsSound p := by rw [State.pin_eq, hpins, ← State.pin_eq]; exact h.pinsSound p
  mismatchesReal := by rw [hm]; exact h.mismatchesReal
  pinsDistinct := by rw [hc]; exact h.pinsDistinct

theorem RecordsInv.setPin (h : RecordsInv s) {p : Pin} {r : PinRec} (hr : r.Sound)
    (ht : r.acquired = true → p ∈ s.tracked) : RecordsInv (s.setPin p r) where
  snapWf := by simpa using h.snapWf
  trackedOnce := by simpa using h.trackedOnce
  acquiredTracked q hq := by
    rw [State.setPin_pin] at hq
    rw [State.setPin_tracked]
    by_cases hqp : q = p
    · subst hqp; exact ht (by simpa using hq)
    · exact h.acquiredTracked q (by simpa [hqp] using hq)
  pinsSound q := by
    rw [State.setPin_pin]
    split
    · exact hr
    · exact h.pinsSound q
  mismatchesReal := by simpa using h.mismatchesReal
  pinsDistinct := by simpa using h.pinsDistinct

theorem State.mem_track (s : State) (p : Pin) : p ∈ (s.track p).tracked := by
  rw [State.track_tracked]
  split <;> simp_all

theorem RecordsInv.track (h : RecordsInv s) (p : Pin) : RecordsInv (s.track p) where
  snapWf := h.snapWf
  trackedOnce := by
    rw [State.track_tracked]
    split
    next => exact h.trackedOnce
    next hp => exact List.nodup_append.2 ⟨h.trackedOnce, List.nodup_singleton p, by rintro a ha b hb rfl; simp_all⟩
  acquiredTracked q hq := by
    have hmem : q ∈ s.tracked := h.acquiredTracked q (by simpa using hq)
    rw [State.track_tracked]
    split
    · exact hmem
    · exact List.mem_append_left _ hmem
  pinsSound q := by simpa using h.pinsSound q
  mismatchesReal := h.mismatchesReal
  pinsDistinct := h.pinsDistinct

theorem State.setPin_track_comm (s : State) (p : Pin) (r : PinRec) : (s.setPin p r).track p = (s.track p).setPin p r := by
  cases p <;> rfl

theorem RecordsInv.withSnap (h : RecordsInv s) {m : Memory} (hm : Memory.wf m = true) : RecordsInv (s.withSnap m) :=
  { h with snapWf := hm }

theorem RecordsInv.withMismatches (h : RecordsInv s) {ms : List Mismatch}
    (hm : ∀ m ∈ ms, 1 ≤ m.pass ∧ m.expected ≠ m.observed) : RecordsInv (s.withMismatches ms) :=
  { h with mismatchesReal := hm }

end

/-- Every elementary action of the machine keeps the records' invariant. -/
theorem recordsInv_actions : VerifyActions fun s t => RecordsInv s → RecordsInv t where
  refl _ h := h
  trans _ _ _ h h' := h' ∘ h
  fails _ _ h := h.congr rfl rfl rfl rfl rfl
  reads _ _ h := h.congr rfl rfl rfl rfl rfl
  drawn _ h := h.congr rfl rfl rfl rfl rfl
  emit _ _ h := h.congr rfl rfl rfl rfl rfl
  claim s p _ h := by
    rw [State.setPin_track_comm]
    exact (h.track p).setPin PinRec.sound_claimed fun _ => s.mem_track p
  dir _ p d ha h := h.setPin (PinRec.sound_withDir d ha) fun _ => h.acquiredTracked p ha
  level _ p b ha hd h := h.setPin (PinRec.sound_withLevel b ha hd) fun _ => h.acquiredTracked p ha
  unclaim _ p ha h := h.setPin PinRec.sound_reset fun _ => h.acquiredTracked p ha
  advance _ _ _ h := h.congr rfl rfl rfl rfl rfl
  recordErr _ _ h := h.congr (by simp) (by simp) (by simp) (by simp) (by simp)
  addResult _ _ h := h.congr rfl rfl rfl rfl rfl
  refuse _ _ h := h.congr rfl rfl rfl rfl rfl
  irqs _ _ h := h.congr rfl rfl rfl rfl rfl
  irqTaken _ h := h.congr rfl rfl rfl rfl rfl
  clear _ h := (h.withSnap Memory.wf_nil).withMismatches (by simp)
  record s a v h := h.withSnap (Memory.wf_write a v s.snap h.snapWf)
  mismatch s i a e v hi hne h := h.withMismatches fun m hm => by
    rcases List.mem_append.1 hm with hm | hm
    · exact h.mismatchesReal m hm
    · rw [List.mem_singleton.1 hm]; exact ⟨hi, hne⟩

/-- R88: a session begun with distinct pins starts with the records at their reset values. -/
theorem recordsInv_newSession {c : SessionConfig} (hc : c.pinsDistinct = true) (s : State) :
    RecordsInv (newSession c s) where
  snapWf := Memory.wf_nil
  trackedOnce := List.nodup_nil
  acquiredTracked p := by cases p <;> simp [newSession, State.pin, PinRec.reset]
  pinsSound p := by cases p <;> exact PinRec.sound_reset
  mismatchesReal := by simp [newSession]
  pinsDistinct := hc

/-- Settles O53: each elementary action keeps the invariant, and a `SESSION_NEW` establishes it. -/
theorem recordsInvKeptByEveryStep : Obligations.RecordsInvKeptByEveryStep := by
  intro s t hs h
  rcases step_actions recordsInv_actions (fun _ _ hi => hi.congr rfl rfl rfl rfl rfl) h with
    hk | ⟨r, rest, c, _, _, _, hc, rfl⟩
  · exact hk hs
  · exact (recordsInv_newSession hc (s.withHost rest)).congr rfl rfl rfl rfl rfl

/-- Settles O52: the reset state is a new session with the pins 1, 2 and 3. -/
theorem recordsInvAtReset : Obligations.RecordsInvAtReset :=
  (recordsInv_newSession (c := Config.resetSession) rfl State.reset).congr rfl rfl rfl rfl rfl

/-! ## The parameters (R14) -/

theorem cfgKept_actions : VerifyActions fun s t => t.cfg = s.cfg where
  toPrimActions := .of_primFrame ⟨fun _ => rfl, fun _ _ _ h h' => h'.trans h⟩ fun h => h.cfg
  advance _ _ _ := rfl
  recordErr s e := by simp
  addResult _ _ := rfl
  refuse _ _ := rfl
  irqs _ _ := rfl
  irqTaken _ := rfl
  clear _ := rfl
  record _ _ _ := rfl
  mismatch _ _ _ _ _ _ _ := rfl

/-- Settles O46: no elementary action writes the parameters. -/
theorem configWrittenOnce : Obligations.ConfigWrittenOnce := by
  intro s t h
  rcases step_actions cfgKept_actions (fun _ _ => rfl) h with hk | ⟨r, rest, c, hq, hh, hd, _, rfl⟩
  · exact .inl hk
  · exact .inr ⟨r, rest, c, hq, hh, hd, rfl⟩

/-! ## The trace (R25) -/

/-- The trace is the trace before and some further events. -/
def TraceGrows (s t : State) : Prop := ∃ evs, t.trace = s.trace ++ evs

theorem traceGrows_of_same {s t : State} (h : t.trace = s.trace) : TraceGrows s t := ⟨[], by simp [h]⟩

theorem TraceGrows.trans {s t u : State} (h : TraceGrows s t) (h' : TraceGrows t u) : TraceGrows s u := by
  obtain ⟨evs, he⟩ := h
  obtain ⟨evs', he'⟩ := h'
  exact ⟨evs ++ evs', by rw [he', he, List.append_assoc]⟩

theorem traceGrows_actions : VerifyActions TraceGrows where
  refl _ := traceGrows_of_same rfl
  trans _ _ _ h h' := h.trans h'
  fails _ _ := traceGrows_of_same rfl
  reads _ _ := traceGrows_of_same rfl
  drawn _ := traceGrows_of_same rfl
  emit _ e := ⟨[e], rfl⟩
  claim _ _ _ := traceGrows_of_same (by simp)
  dir _ _ _ _ := traceGrows_of_same (by simp)
  level _ _ _ _ _ := traceGrows_of_same (by simp)
  unclaim _ _ _ := traceGrows_of_same (by simp)
  advance _ _ _ := traceGrows_of_same rfl
  recordErr _ _ := traceGrows_of_same (by simp)
  addResult _ _ := traceGrows_of_same rfl
  refuse _ _ := traceGrows_of_same rfl
  irqs _ _ := traceGrows_of_same rfl
  irqTaken _ := traceGrows_of_same rfl
  clear _ := traceGrows_of_same rfl
  record _ _ _ := traceGrows_of_same rfl
  mismatch _ _ _ _ _ _ _ := traceGrows_of_same rfl

/-- Settles O45: the trace grows or stays across every elementary action, and a refused `SESSION_NEW` leaves it. -/
theorem traceIsAppendOnly : Obligations.TraceIsAppendOnly := by
  intro i s t h hnew
  by_cases hi : ∃ c, i = .sessionNew c
  · obtain ⟨c, rfl⟩ := hi
    rcases execSessionNew_cases c s with ⟨_, hs⟩ | ⟨hc, _⟩
    · rw [hs] at h
      cases h
      exact traceGrows_of_same rfl
    · rw [hnew c rfl] at hc
      cases hc
  · exact exec_actions traceGrows_actions i (fun c hc => hi ⟨c, hc⟩) h

/-! ## The comparator's side (R21, R22, R28) -/

/-- The fields that only `VERIFY` and `SESSION_NEW` write, and the host's queue, are as before. -/
structure ComparatorKept (s t : State) : Prop where
  snap : t.snap = s.snap
  mismatches : t.mismatches = s.mismatches
  irqs : t.env.irqs = s.env.irqs
  irqPending : t.irqPending = s.irqPending
  host : t.host = s.host

theorem comparatorKept_composes : Composes ComparatorKept where
  refl _ := ⟨rfl, rfl, rfl, rfl, rfl⟩
  trans _ _ _ h h' :=
    ⟨h'.snap.trans h.snap, h'.mismatches.trans h.mismatches, h'.irqs.trans h.irqs, h'.irqPending.trans h.irqPending,
      h'.host.trans h.host⟩

theorem comparatorKept_actions : LineActions ComparatorKept where
  toPrimActions := .of_primFrame comparatorKept_composes fun h =>
    ⟨h.snap, h.mismatches, h.irqs, h.irqPending, h.host⟩
  advance _ _ _ := ⟨rfl, rfl, rfl, rfl, rfl⟩
  recordErr _ _ := ⟨by simp, by simp, by simp, by simp, by simp⟩
  addResult _ _ := ⟨rfl, rfl, rfl, rfl, rfl⟩
  refuse _ _ := ⟨rfl, rfl, rfl, rfl, rfl⟩

theorem Instr.isLine_of_ne {i : Instr} (hv : ∀ n, i ≠ .verify n) (hn : ∀ c, i ≠ .sessionNew c) :
    Instr.isLine i = true := by
  unfold Instr.isLine
  split
  · exact absurd rfl (hv _)
  · exact absurd rfl (hn _)
  · rfl

/-- Settles O47: no action of the other operations writes the comparator's fields. -/
theorem comparatorFrame : Obligations.ComparatorFrame := by
  intro i s t hv hn h
  obtain ⟨hsnap, hm, hirqs, hq, hh⟩ := exec_line_actions comparatorKept_actions i (Instr.isLine_of_ne hv hn) h
  exact ⟨hsnap, hm, hirqs, hq, hh⟩

end Sys2Proof.Machine
end
section
/-! PROOFS. What a completed operation leaves on the lines and in the session state, said once for every operation
(spec/40_gpio_pins.md to spec/44_verification.md), and from it the session state's moves (spec/10_state.md R13) and the
entry invariant (R27). -/

namespace Sys2Proof.Machine

variable {α β : Type} {s t : State}

/-! ## Operations that return -/

/-- The relation holds across every run of the operation that returns; unlike `Keeps` it says nothing of an error. -/
def Returns (R : State → State → Prop) (x : Op α) : Prop := ∀ s a t, x.run s = .ok a t → R s t

theorem op_bind_returns {x : Op α} {f : α → Op β} {b : β} (h : (x >>= f).run s = .ok b t) :
    ∃ a u, x.run s = .ok a u ∧ (f a).run u = .ok b t := by
  rw [op_bind] at h
  cases hx : x.run s with
  | ok a u => rw [hx] at h; exact ⟨a, u, rfl, h⟩
  | error e u => rw [hx] at h; cases h

section
variable {R : State → State → Prop}

theorem Keeps.returns {x : Op α} (hx : Keeps R x) : Returns R x := by
  intro s a t h
  have hs := hx s
  rwa [h] at hs

theorem returns_bind (hR : Composes R) {x : Op α} {f : α → Op β} (hx : Returns R x) (hf : ∀ a, Returns R (f a)) :
    Returns R (x >>= f) := by
  intro s b t h
  obtain ⟨a, u, hxu, hft⟩ := op_bind_returns h
  exact hR.trans s u t (hx s a u hxu) (hf a u b t hft)

theorem returns_throw (e : OpError) : Returns R (throw e : Op α) := by intro s a t h; cases h

theorem returns_ite {c : Prop} [Decidable c] {x y : Op α} (hx : c → Returns R x) (hy : ¬c → Returns R y) :
    Returns R (if c then x else y) := by
  split
  · exact hx ‹_›
  · exact hy ‹_›

end

/-! ## The pins after a primitive that returns (R61 to R66) -/

/-- R66: a pin that is acquired and drives a level. -/
def PinRec.driving (b : Bit) : PinRec := { acquired := true, dir := .output, level := some b }

theorem PinRec.lowOutput_iff {r : PinRec} : r.lowOutput = true ↔ r = drivenLow := by
  obtain ⟨a, d, l⟩ := r
  simp [PinRec.lowOutput, drivenLow, and_assoc]

theorem PinRec.isOutput_iff {r : PinRec} : r.isOutput = true ↔ r.acquired = true ∧ r.dir = .output := by
  simp [PinRec.isOutput]

theorem PinRec.withDir_of_acquired {r : PinRec} (d : DirWord) (h : r.acquired = true) :
    r.withDir d = PinRec.claimed.withDir d := by
  cases d <;> simp [PinRec.withDir, PinRec.claimed, h]

theorem PinRec.withLevel_of_output {r : PinRec} (b : Bit) (h : r.acquired = true) (hd : r.dir = .output) :
    r.withLevel b = PinRec.driving b := by
  simp [PinRec.withLevel, PinRec.driving, h, hd]

theorem PinTable.set_set (ps : PinTable) (p : Pin) (r r' : PinRec) : (ps.set p r).set p r' = ps.set p r' := by
  cases p <;> rfl

@[simp] theorem State.setPin_pins (s : State) (p : Pin) (r : PinRec) : (s.setPin p r).pins = s.pins.set p r := by
  cases p <;> rfl

theorem State.claimed_pins (s : State) (p : Pin) :
    (s.claimed p).pins = if (s.pin p).acquired then s.pins else s.pins.set p PinRec.claimed := by
  unfold State.claimed
  split <;> rfl

theorem State.claimed_pins_of_acquired {p : Pin} (h : (s.pin p).acquired = true) : (s.claimed p).pins = s.pins := by
  rw [State.claimed_pins, if_pos h]

theorem State.claimed_pins_set (s : State) (p : Pin) (r : PinRec) : (s.claimed p).pins.set p r = s.pins.set p r := by
  rw [State.claimed_pins]
  split
  · rfl
  · rw [PinTable.set_set]

theorem provider_returns {p : Pin} {op : ProviderOp} {a : Unit} (h : (provider p op).run s = .ok a t) :
    t.pins = s.pins := by
  obtain ⟨u, hu, he | he⟩ := provider_cases p op s <;> rw [he] at h <;> cases h
  rcases hu with rfl | ⟨l, rfl⟩ <;> rfl

theorem pinAcquire_returns {p : Pin} {a : Unit} (h : (pinAcquire p).run s = .ok a t) :
    t.pins = (s.claimed p).pins := by
  rw [State.claimed_pins]
  rcases pinAcquire_cases p s with ⟨hq, he⟩ | ⟨hq, u, hu, he | he⟩ <;> rw [he] at h <;> cases h
  · rw [if_pos hq]
  · have hpins : u.pins = s.pins := by rcases hu with rfl | ⟨l, rfl⟩ <;> rfl
    simp [hq, hpins]

theorem pinSetDir_returns {p : Pin} {d : DirWord} {a : Unit} (h : (pinSetDir p d).run s = .ok a t) :
    t.pins = s.pins.set p (PinRec.claimed.withDir d) := by
  obtain ⟨_, u, hu, h⟩ := op_bind_returns h
  obtain ⟨_, w, hw, h⟩ := op_bind_returns h
  cases h
  have hpins : w.pins = u.pins := provider_returns hw
  have hrec : (u.pin p).withDir d = PinRec.claimed.withDir d := PinRec.withDir_of_acquired d (pinAcquire_acquires hu)
  rw [State.setPin_pins, State.emit_pins, State.emit_pin, State.pin_eq w, hpins, ← State.pin_eq, hrec,
    pinAcquire_returns hu, State.claimed_pins_set]

/-- R63: a write returns only on an acquired output. -/
theorem pinWrite_returns {p : Pin} {v : Int} {a : Unit} (h : (pinWrite p v).run s = .ok a t) :
    ∃ b, pinValueBit v = some b ∧ (s.pin p).acquired = true ∧ (s.pin p).dir = .output ∧
      t.pins = s.pins.set p (PinRec.driving b) := by
  obtain ⟨_, u, hu, h⟩ := op_bind_returns h
  cases hv : pinValueBit v with
  | none => rw [hv] at h; cases h
  | some b =>
    simp only [hv] at h
    rw [op_bind_ok (op_get u)] at h
    by_cases hd : (u.pin p).dir = .input
    · rw [if_pos hd] at h; cases h
    · rw [if_neg hd] at h
      obtain ⟨_, w, hw, h⟩ := op_bind_returns h
      cases h
      have hout : (u.pin p).dir = .output := by cases hx : (u.pin p).dir <;> simp_all
      have hlow : (u.pin p).withLevel b = PinRec.driving b :=
        PinRec.withLevel_of_output b (pinAcquire_acquires hu) hout
      have hclaimed : u.pins = (s.claimed p).pins := pinAcquire_returns hu
      have hacq : (s.pin p).acquired = true := by
        by_contra hn
        rw [State.claimed_pins, if_neg hn] at hclaimed
        rw [State.pin_eq, hclaimed] at hout
        simp [PinRec.claimed] at hout
      rw [State.claimed_pins_of_acquired hacq] at hclaimed
      refine ⟨b, rfl, hacq, ?_, ?_⟩
      · rw [State.pin_eq, ← hclaimed, ← State.pin_eq]; exact hout
      · rw [State.setPin_pins, State.emit_pins, State.emit_pin, State.pin_eq w, provider_returns hw, ← State.pin_eq,
          hlow, hclaimed]

theorem pinEnsureOutWrite_returns {p : Pin} {b : Bit} {a : Unit} (h : (pinEnsureOutWrite p b).run s = .ok a t) :
    t.pins = s.pins.set p (PinRec.driving b) := by
  obtain ⟨_, u, hu, h⟩ := op_bind_returns h
  rw [op_bind_ok (op_get u)] at h
  split at h
  · rw [pinSetDir_returns h, pinAcquire_returns hu, State.claimed_pins_set]
    cases b <;> rfl
  · obtain ⟨c, hc, _, _, hpins⟩ := pinWrite_returns h
    obtain rfl : b = c := by simpa [pinValueBit_bit] using hc
    rw [hpins, pinAcquire_returns hu, State.claimed_pins_set]

theorem drawContent_returns {c : List Char} (h : drawContent.run s = .ok c t) : t.pins = s.pins := by
  rcases drawContent_cases s with ⟨_, _, _, he⟩ | ⟨_, he⟩ <;> rw [he] at h <;> cases h <;> rfl

theorem pinRead_returns {p : Pin} {b : Bit} (h : (pinRead p).run s = .ok b t) : t.pins = (s.claimed p).pins := by
  obtain ⟨_, u, hu, h⟩ := op_bind_returns h
  rw [op_bind_ok (op_get u)] at h
  split at h
  · cases h
  · obtain ⟨_, w, hw, h⟩ := op_bind_returns h
    obtain ⟨c, x, hx, h⟩ := op_bind_returns h
    cases hc : contentBit c with
    | none => rw [hc] at h; cases h
    | some b =>
      rw [hc] at h
      cases h
      rw [State.emit_pins, drawContent_returns hx, provider_returns hw, pinAcquire_returns hu]

/-! ## What the lines keep (R27) -/

/-- What an operation that returns keeps of the lines that R27 speaks of. -/
structure LinesKept (s t : State) : Prop where
  rstLow : s.pin .rst = drivenLow → t.pin .rst = drivenLow
  entered : Entered s → Entered t
  programming : Programming s → Programming t

theorem linesKept_composes : Composes LinesKept where
  refl _ := ⟨id, id, id⟩
  trans _ _ _ h h' := ⟨h'.rstLow ∘ h.rstLow, h'.entered ∘ h.entered, h'.programming ∘ h.programming⟩

theorem linesKept_of_pins (hp : t.pins = s.pins) (hs : Programming s → Programming t) : LinesKept s t := by
  have hpin : ∀ p, t.pin p = s.pin p := fun p => by rw [State.pin_eq, hp, ← State.pin_eq]
  exact ⟨by rw [hpin]; exact id, by unfold Entered SendReady; simp only [hpin]; exact id, hs⟩

theorem linesKept_of_same (hp : t.pins = s.pins) (hs : t.state = s.state) : LinesKept s t :=
  linesKept_of_pins hp fun h => by unfold Programming; rw [hs]; exact h

theorem PrimFrame.programming (h : PrimFrame s t) : Programming s → Programming t := by
  intro hp
  unfold Programming
  rw [h.state]
  exact hp

theorem linesKept_of_sendReady (hr : t.pin .rst = s.pin .rst) (ht : SendReady t) (hf : PrimFrame s t) :
    LinesKept s t :=
  ⟨fun h => hr.trans h, fun h => ⟨hr.trans h.1, ht⟩, hf.programming⟩

theorem linesKept_modify (f : State → State) (hp : ∀ s, (f s).pins = s.pins) (hs : ∀ s, (f s).state = s.state) :
    Returns LinesKept (modify f) :=
  (keeps_modify f fun s => linesKept_of_same (hp s) (hs s)).returns

theorem linesKept_emit (e : Event) : Returns LinesKept (emit e) :=
  linesKept_modify _ (fun _ => rfl) fun _ => rfl

/-- R61: a pin that `ACQUIRE` claims was not acquired, so it is none of those that R27 holds. -/
theorem linesKept_of_claimed {p : Pin} (h : t.pins = (s.claimed p).pins) (hf : PrimFrame s t) : LinesKept s t := by
  by_cases ha : (s.pin p).acquired = true
  · exact linesKept_of_same (h.trans (State.claimed_pins_of_acquired ha)) hf.state
  · have hother : ∀ q, (s.pin q).acquired = true → t.pin q = s.pin q := by
      intro q hq
      have hqp : q ≠ p := by rintro rfl; exact ha hq
      rw [State.pin_eq, h, State.claimed_pins, if_neg ha, PinTable.get_set, if_neg hqp, ← State.pin_eq]
    have hlow : ∀ q, s.pin q = drivenLow → t.pin q = drivenLow := fun q hq => by
      rw [hother q (by rw [hq]; rfl), hq]
    refine ⟨hlow .rst, ?_, hf.programming⟩
    rintro ⟨hr, hc, hd, ho⟩
    have hdat : t.pin .dat = s.pin .dat := hother .dat hd
    exact ⟨hlow .rst hr, hlow .clk hc, by rw [hdat]; exact hd, by rw [hdat]; exact ho⟩

theorem linesKept_pinAcquire (p : Pin) : Returns LinesKept (pinAcquire p) := fun s a t h =>
  linesKept_of_claimed (pinAcquire_returns h) ((keeps_pinAcquire primFrame_actions p).returns s a t h)

theorem linesKept_pinRead (p : Pin) : Returns LinesKept (pinRead p) := fun s a t h =>
  linesKept_of_claimed (pinRead_returns h) ((keeps_pinRead primFrame_actions p).returns s a t h)

/-! ## Transport (R71, R72) -/

theorem sendBits_returns {k sr : Nat} {a : Unit} (hs : SendReady s) (h : (sendBits k sr).run s = .ok a t) :
    SendReady t ∧ t.pin .rst = s.pin .rst := by
  induction k generalizing s sr with
  | zero => cases h; exact ⟨hs, rfl⟩
  | succ k ih =>
    obtain ⟨_, u, hu, h⟩ := op_bind_returns h
    obtain ⟨_, v, hv, h⟩ := op_bind_returns h
    rw [op_bind_ok (op_emit _ _)] at h
    obtain ⟨_, w, hw, h⟩ := op_bind_returns h
    rw [op_bind_ok (op_emit _ _)] at h
    obtain ⟨b, _, _, _, hup⟩ := pinWrite_returns hu
    obtain ⟨_, _, _, _, hvp⟩ := pinWrite_returns hv
    obtain ⟨c, hc, _, _, hwp⟩ := pinWrite_returns hw
    obtain rfl : false = c := by simpa [pinValueBit] using hc
    have hpins : w.pins = { s.pins with clk := drivenLow, dat := PinRec.driving b } := by
      rw [hwp, State.emit_pins, hvp, hup]; rfl
    have hready : SendReady (w.emit (.hold .tHalf)) := by
      simp [SendReady, State.pin, hpins, PinRec.driving]
    obtain ⟨ht, hr⟩ := ih hready h
    exact ⟨ht, hr.trans (by simp [State.pin, hpins])⟩

/-- R71: a `SEND` returns only from its preconditions, and leaves them and `RST` as they were. -/
theorem busSend_returns {v n : Nat} {a : Unit} (h : (busSend v n).run s = .ok a t) :
    SendReady t ∧ t.pin .rst = s.pin .rst := by
  unfold busSend at h
  rw [op_bind_ok (op_get s)] at h
  split at h
  next hclk =>
    split at h
    next hdat => exact sendBits_returns ⟨PinRec.lowOutput_iff.1 hclk, PinRec.isOutput_iff.1 hdat⟩ h
    next => cases h
  next => cases h

theorem linesKept_busSend (v n : Nat) : Returns LinesKept (busSend v n) := by
  intro s a t h
  obtain ⟨ht, hr⟩ := busSend_returns h
  exact linesKept_of_sendReady hr ht ((keeps_busSend primFrame_actions v n).returns s a t h)

theorem sendKey_returns {a : Unit} (h : sendKey.run s = .ok a t) : SendReady t ∧ t.pin .rst = s.pin .rst := by
  obtain ⟨_, u, hu, h⟩ := op_bind_returns h
  obtain ⟨ht, hr⟩ := busSend_returns h
  exact ⟨ht, hr.trans (busSend_returns hu).2⟩

theorem linesKept_sendKey : Returns LinesKept sendKey :=
  returns_bind linesKept_composes (linesKept_busSend _ _) fun _ => linesKept_busSend _ _

theorem PinTable.set_clk_self {ps : PinTable} (h : ps.clk = drivenLow) (r : PinRec) :
    (ps.set .clk r).set .clk drivenLow = ps := by
  cases ps
  cases h
  rfl

theorem recvBits_returns {n k acc v : Nat} (hc : s.pin .clk = drivenLow) (hd : (s.pin .dat).acquired = true)
    (h : (recvBits n k acc).run s = .ok v t) : t.pins = s.pins := by
  induction k generalizing s acc with
  | zero => cases h; rfl
  | succ k ih =>
    obtain ⟨_, u, hu, h⟩ := op_bind_returns h
    rw [op_bind_ok (op_emit _ _)] at h
    obtain ⟨_, w, hw, h⟩ := op_bind_returns h
    obtain ⟨_, x, hx, h⟩ := op_bind_returns h
    rw [op_bind_ok (op_emit _ _)] at h
    obtain ⟨b, _, _, _, hup⟩ := pinWrite_returns hu
    obtain ⟨c, hc0, _, _, hxp⟩ := pinWrite_returns hx
    obtain rfl : false = c := by simpa [pinValueBit] using hc0
    have hdu : ((u.emit (.hold .tHalf)).pin .dat).acquired = true := by
      rw [State.pin_eq, State.emit_pins, hup]; exact hd
    have hpins : x.pins = s.pins := by
      rw [hxp, pinRead_returns hw, State.claimed_pins_of_acquired hdu, State.emit_pins, hup]
      exact PinTable.set_clk_self hc _
    have hpin : ∀ p, (x.emit (.hold .tHalf)).pin p = s.pin p := fun p => by
      rw [State.pin_eq, State.emit_pins, hpins, ← State.pin_eq]
    exact (ih ((hpin .clk).trans hc) (by rw [hpin]; exact hd) h).trans hpins

/-- R72: a `RECV` that returns leaves the pins as they were. -/
theorem busRecv_returns {n v : Nat} (h : (busRecv n).run s = .ok v t) : t.pins = s.pins := by
  unfold busRecv at h
  rw [op_bind_ok (op_get s)] at h
  split at h
  next hclk =>
    split at h
    next hdat =>
      refine recvBits_returns (PinRec.lowOutput_iff.1 hclk) ?_ h
      simp only [PinRec.isInput, Bool.and_eq_true] at hdat
      exact hdat.1
    next => cases h
  next => cases h

theorem linesKept_busRecv (n : Nat) : Returns LinesKept (busRecv n) := fun s a t h =>
  linesKept_of_same (busRecv_returns h) ((keeps_busRecv primFrame_actions n).returns s a t h).state

/-! ## Commands (R76, R80) -/

theorem linesKept_commandAdmit : Returns LinesKept commandAdmit := by
  intro s a t h
  cases h
  dsimp only
  split
  · exact linesKept_of_pins rfl fun _ => .inr rfl
  · exact linesKept_composes.refl s

theorem linesKept_controlCommand (op : Nat) (d : Delay) : Returns LinesKept (controlCommand op d) := by
  unfold controlCommand
  refine returns_bind linesKept_composes linesKept_commandAdmit fun _ => ?_
  exact returns_bind linesKept_composes (linesKept_busSend _ _) fun _ => linesKept_emit _

theorem linesKept_writeCommand (op d : Nat) : Returns LinesKept (writeCommand op d) := by
  unfold writeCommand
  refine returns_bind linesKept_composes linesKept_commandAdmit fun _ => ?_
  refine returns_bind linesKept_composes (linesKept_busSend _ _) fun _ => ?_
  refine returns_bind linesKept_composes (linesKept_emit _) fun _ => ?_
  exact returns_bind linesKept_composes (linesKept_busSend _ _) fun _ => linesKept_emit _

/-- R80: the part of a command of format R after its opcode: `DAT` is turned to the target and back. -/
def receivePayload : Op Word := do
  pinSetDir .dat .dirIn
  let raw ← busRecv Config.payloadBits
  pinSetDir .dat .dirOut
  emit (.hold .tCmd)
  pure (readWordOf raw)

theorem readCommand_eq (op : Nat) : readCommand op = (do
    commandAdmit
    busSend op Config.opcodeBits
    emit (.hold .tCmd)
    receivePayload) := rfl

theorem keeps_receivePayload {R : State → State → Prop} (hR : PrimActions R) : Keeps R receivePayload := by
  unfold receivePayload
  refine keeps_bind hR.toComposes (keeps_pinSetDir hR _ _) fun _ => ?_
  refine keeps_bind hR.toComposes (keeps_busRecv hR _) fun _ => ?_
  refine keeps_bind hR.toComposes (keeps_pinSetDir hR _ _) fun _ => ?_
  exact keeps_bind hR.toComposes (keeps_emit hR _) fun _ => keeps_pure hR.toComposes _

/-- R80: `DAT` is an output again once the payload is received; the other pins are as they were. -/
theorem receivePayload_returns {w : Word} (h : receivePayload.run s = .ok w t) :
    t.pins = s.pins.set .dat (PinRec.claimed.withDir .dirOut) := by
  obtain ⟨_, u, hu, h⟩ := op_bind_returns h
  obtain ⟨_, v, hv, h⟩ := op_bind_returns h
  obtain ⟨_, x, hx, h⟩ := op_bind_returns h
  cases h
  rw [State.emit_pins, pinSetDir_returns hx, busRecv_returns hv, pinSetDir_returns hu, PinTable.set_set]

theorem linesKept_receivePayload : Returns LinesKept receivePayload := by
  intro s w t h
  have hpins := receivePayload_returns h
  have hr : t.pin .rst = s.pin .rst := by rw [State.pin_eq, hpins]; rfl
  refine ⟨fun hs => hr.trans hs, ?_, ((keeps_receivePayload primFrame_actions).returns s w t h).programming⟩
  rintro ⟨hs, hc, _⟩
  refine ⟨hr.trans hs, ?_, ?_, ?_⟩ <;> rw [State.pin_eq, hpins]
  · exact hc
  · rfl
  · rfl

theorem linesKept_readCommand (op : Nat) : Returns LinesKept (readCommand op) := by
  rw [readCommand_eq]
  refine returns_bind linesKept_composes linesKept_commandAdmit fun _ => ?_
  refine returns_bind linesKept_composes (linesKept_busSend _ _) fun _ => ?_
  exact returns_bind linesKept_composes (linesKept_emit _) fun _ => linesKept_receivePayload

/-! ## `VERIFY` (R97) -/

theorem linesKept_pure (a : α) : Returns LinesKept (pure a : Op α) := (keeps_pure linesKept_composes a).returns

theorem linesKept_get : Returns LinesKept (get : Op State) := (keeps_get linesKept_composes).returns

/-- R114: a boundary that returns has taken no request; only the inputs have advanced. -/
theorem linesKept_boundary : Returns LinesKept boundary := by
  have hdraw : Returns LinesKept drawIrq := by
    intro s b t h
    rcases drawIrq_cases s with ⟨_, _, _, he⟩ | ⟨_, he⟩ <;> rw [he] at h <;> cases h <;> exact linesKept_of_same rfl rfl
  have htake : Returns LinesKept (do
      modify (fun s => s.withIrqPending false)
      throw .interrupted : Op Unit) :=
    returns_bind linesKept_composes (linesKept_modify _ (fun _ => rfl) fun _ => rfl) fun _ => returns_throw _
  unfold boundary
  refine returns_bind linesKept_composes hdraw fun _ => returns_bind linesKept_composes linesKept_get fun _ => ?_
  exact returns_ite (fun _ => htake) fun _ => linesKept_pure _

theorem linesKept_compare (i a : Nat) (v : Word) : Returns LinesKept (compare i a v) := by
  unfold compare
  refine returns_bind linesKept_composes linesKept_get fun u => ?_
  cases Memory.read u.snap a with
  | none => exact returns_throw _
  | some e =>
    exact returns_ite (fun _ => linesKept_pure _) fun _ => linesKept_modify _ (fun _ => rfl) fun _ => rfl

theorem linesKept_checkWord (i a : Nat) (v : Word) : Returns LinesKept (checkWord i a v) :=
  returns_ite (fun _ => (linesKept_modify _ (fun _ => rfl) fun _ => rfl)) fun _ => linesKept_compare i a v

theorem linesKept_verifyWord (i k : Nat) : Returns LinesKept (verifyWord i k) := by
  unfold verifyWord
  refine returns_bind linesKept_composes linesKept_get fun _ => ?_
  refine returns_bind linesKept_composes (linesKept_readCommand _) fun v => ?_
  refine returns_bind linesKept_composes (linesKept_checkWord i _ v) fun _ => ?_
  exact returns_bind linesKept_composes linesKept_boundary fun _ => linesKept_controlCommand _ _

theorem linesKept_verifyWords (i k n : Nat) : Returns LinesKept (verifyWords i k n) := by
  induction n generalizing k with
  | zero => exact linesKept_pure _
  | succ n ih =>
    refine returns_bind linesKept_composes linesKept_boundary fun _ => ?_
    exact returns_bind linesKept_composes (linesKept_verifyWord i k) fun _ => ih (k + 1)

theorem linesKept_verifyPass (i : Nat) : Returns LinesKept (verifyPass i) := by
  unfold verifyPass
  refine returns_bind linesKept_composes (linesKept_writeCommand _ _) fun _ => ?_
  refine returns_bind linesKept_composes linesKept_get fun _ => ?_
  refine returns_bind linesKept_composes (linesKept_verifyWords i 0 _) fun _ => ?_
  exact returns_bind linesKept_composes linesKept_boundary fun _ => linesKept_controlCommand _ _

theorem linesKept_verifyPasses (i n : Nat) : Returns LinesKept (verifyPasses i n) := by
  induction n generalizing i with
  | zero => exact linesKept_pure _
  | succ n ih =>
    have hb : Returns LinesKept (passBoundary i) :=
      returns_ite (fun _ => linesKept_pure _) fun _ => linesKept_boundary
    refine returns_bind linesKept_composes hb fun _ => ?_
    exact returns_bind linesKept_composes (linesKept_verifyPass i) fun _ => ih (i + 1)

theorem linesKept_verifyAll (n : Nat) : Returns LinesKept (verifyAll n) := by
  unfold verifyAll
  refine returns_bind linesKept_composes (linesKept_modify _ (fun _ => rfl) fun _ => rfl) fun _ => ?_
  refine returns_bind linesKept_composes (linesKept_verifyPasses 0 n) fun _ => ?_
  exact returns_bind linesKept_composes linesKept_get fun _ => linesKept_pure _

/-! ## What a completed operation has done -/

/-- R108, D37: the direct primitives that change a pin. -/
def ChangesPin (i : Instr) : Prop :=
  (∃ p d, i = .setDir p d) ∨ (∃ p v, i = .write p v) ∨ (∃ p, i = .release p) ∨ ∃ p b, i = .ensureOutWrite p b

/-- What an operation other than `EXIT` and `SESSION_NEW` has done to the lines and to the session state when it
completes: `s` is the state before, `u` the state after, its result not yet given. -/
inductive Completed (i : Instr) (s u : State) : Prop where
  | primitive (hi : ChangesPin i) (frame : PrimFrame s u)
  | line (frame : PrimFrame s u) (kept : LinesKept s u)
  | command (hi : isCommand i = true ∨ ∃ n, i = .verify n) (hs : Programming s) (kept : LinesKept s u)
  | reset (hi : i = .reset) (hu : u.state = .reset) (low : u.pin .rst = drivenLow)
  | enterLvp (hi : i = .enterLvp) (hs : s.state = .reset) (hu : u.state = .lvpEntered)
      (held : u.pin .rst = s.pin .rst) (ready : SendReady u)

/-- How an operation other than `EXIT` and `SESSION_NEW` ends: refused, aborted by an error, or completed. -/
def Ends (i : Instr) (s t : State) : Prop :=
  (∃ w, t = s.refuse w) ∨ (∃ e u, t = abort e u) ∨ ∃ v u, t = u.addResult (.ok v) ∧ Completed i s u

theorem invoke_ends {i : Instr} {c : OpClass} {bad : Option RefuseReason} {body : Op Value}
    (hb : ∀ v u, admits c s.state = true → body.run s = .ok v u → Completed i s u)
    (h : invoke c bad body s = .next t) : Ends i s t := by
  rcases guarded_cases c bad (complete body) s with ⟨w, _, he⟩ | ⟨_, _, he⟩ | ⟨_, ha, he⟩ <;>
    rw [invoke, he] at h <;> cases h
  · exact .inl ⟨w, rfl⟩
  · exact .inl ⟨_, rfl⟩
  · unfold complete
    cases hs : body.run s with
    | ok v u => exact .inr (.inr ⟨v, u, rfl, hb v u ha hs⟩)
    | error e u => exact .inr (.inl ⟨e, u, rfl⟩)

theorem returns_noValue {R : State → State → Prop} {x : Op Unit} (hx : Returns R x) : Returns R (noValue x) := by
  intro s v t h
  obtain ⟨a, u, hu, h⟩ := op_bind_returns h
  cases h
  exact hx s a t hu

theorem invoke_primitive_ends {i : Instr} {bad : Option RefuseReason} {x : Op Unit} (hi : ChangesPin i)
    (hx : Keeps PrimFrame x) (h : invoke .line bad (noValue x) s = .next t) : Ends i s t :=
  invoke_ends (fun v u _ hr => .primitive hi (returns_noValue hx.returns s v u hr)) h

theorem invoke_line_ends {i : Instr} {c : OpClass} {bad : Option RefuseReason} {body : Op Value}
    (hf : Keeps PrimFrame body) (hk : Returns LinesKept body) (h : invoke c bad body s = .next t) : Ends i s t :=
  invoke_ends (fun v u _ hr => .line (hf.returns s v u hr) (hk s v u hr)) h

theorem programming_of_admits {c : OpClass} (hc : c = .command ∨ c = .verify) (h : admits c s.state = true) :
    Programming s := by
  unfold Programming
  revert h
  rcases hc with rfl | rfl <;> cases s.state <;> simp [admits]

theorem invoke_command_ends {i : Instr} {bad : Option RefuseReason} {body : Op Value} (hi : isCommand i = true)
    (hk : Returns LinesKept body) (h : invoke .command bad body s = .next t) : Ends i s t :=
  invoke_ends (fun v u ha hr => .command (.inl hi) (programming_of_admits (.inl rfl) ha) (hk s v u hr)) h

/-- R89: a `RESET` that completes drives `RST` low. -/
theorem sessionReset_returns {a : Unit} (h : sessionReset.run s = .ok a t) :
    t.state = .reset ∧ t.pin .rst = drivenLow := by
  obtain ⟨_, u, hu, h⟩ := op_bind_returns h
  cases h
  refine ⟨rfl, ?_⟩
  rw [State.withState_pin, State.emit_pin, State.pin_eq, pinEnsureOutWrite_returns hu]
  rfl

/-- R90: an `ENTER_LVP` that completes has sent the key on ready lines. -/
theorem enterLvp_returns {a : Unit} (h : enterLvp.run s = .ok a t) :
    t.state = .lvpEntered ∧ t.pin .rst = s.pin .rst ∧ SendReady t := by
  obtain ⟨_, u, hu, h⟩ := op_bind_returns h
  obtain ⟨_, v, hv, h⟩ := op_bind_returns h
  obtain ⟨_, w, hw, h⟩ := op_bind_returns h
  cases h
  obtain ⟨hready, hr⟩ := sendKey_returns hw
  have hrst : v.pin .rst = s.pin .rst := by
    rw [State.pin_eq, pinSetDir_returns hv, pinEnsureOutWrite_returns hu]; rfl
  exact ⟨rfl, hr.trans hrst, hready⟩

theorem exec_ends {i : Instr} (hx : i ≠ .exit) (hn : ∀ c, i ≠ .sessionNew c) (h : exec i s = .next t) : Ends i s t := by
  have hP := primFrame_actions
  have hF := hP.toComposes
  have hL := linesKept_composes
  cases i with
  | loadConfig d =>
    rw [exec_loadConfig] at h
    exact invoke_command_ends rfl (returns_noValue (linesKept_writeCommand _ _)) h
  | loadData d =>
    rw [exec_loadData] at h
    exact invoke_command_ends rfl (returns_noValue (linesKept_writeCommand _ _)) h
  | readData =>
    rw [exec_readData] at h
    exact invoke_command_ends rfl (returns_bind hL (linesKept_readCommand _) fun _ => linesKept_pure _) h
  | incAddr =>
    rw [exec_incAddr] at h
    exact invoke_command_ends rfl (returns_noValue (linesKept_controlCommand _ _)) h
  | resetAddr =>
    rw [exec_resetAddr] at h
    exact invoke_command_ends rfl (returns_noValue (linesKept_controlCommand _ _)) h
  | beginProg =>
    rw [exec_beginProg] at h
    exact invoke_command_ends rfl (returns_noValue (linesKept_controlCommand _ _)) h
  | bulkErase =>
    rw [exec_bulkErase] at h
    exact invoke_command_ends rfl (returns_noValue (linesKept_controlCommand _ _)) h
  | rowErase =>
    rw [exec_rowErase] at h
    exact invoke_command_ends rfl (returns_noValue (linesKept_controlCommand _ _)) h
  | lvpKey =>
    rw [exec_lvpKey] at h
    exact invoke_line_ends (keeps_noValue hF (keeps_sendKey hP)) (returns_noValue linesKept_sendKey) h
  | acquire p =>
    rw [exec_acquire] at h
    exact invoke_line_ends (keeps_noValue hF (keeps_pinAcquire hP p)) (returns_noValue (linesKept_pinAcquire p)) h
  | setDir p d =>
    rw [exec_setDir] at h
    refine invoke_primitive_ends (.inl ⟨p, d, rfl⟩) ?_ h
    cases d with
    | word d => exact keeps_pinSetDir hP p d
    | other text => exact keeps_pure hF _
  | write p v =>
    rw [exec_write] at h
    exact invoke_primitive_ends (.inr (.inl ⟨p, v, rfl⟩)) (keeps_pinWrite hP p v) h
  | read p =>
    rw [exec_read] at h
    exact invoke_line_ends (keeps_bind hF (keeps_pinRead hP p) fun _ => keeps_pure hF _)
      (returns_bind hL (linesKept_pinRead p) fun _ => linesKept_pure _) h
  | release p =>
    rw [exec_release] at h
    exact invoke_primitive_ends (.inr (.inr (.inl ⟨p, rfl⟩))) (keeps_pinRelease hP p) h
  | ensureOutWrite p b =>
    rw [exec_ensureOutWrite] at h
    exact invoke_primitive_ends (.inr (.inr (.inr ⟨p, b, rfl⟩))) (keeps_pinEnsureOutWrite hP p b) h
  | reverse v n =>
    rw [exec_reverse] at h
    exact invoke_line_ends (keeps_pure hF _) (linesKept_pure _) h
  | send v n =>
    rw [exec_send] at h
    exact invoke_line_ends (keeps_noValue hF (keeps_busSend hP v n)) (returns_noValue (linesKept_busSend v n)) h
  | recv n =>
    rw [exec_recv] at h
    exact invoke_line_ends (keeps_bind hF (keeps_busRecv hP n) fun _ => keeps_pure hF _)
      (returns_bind hL (linesKept_busRecv n) fun _ => linesKept_pure _) h
  | sessionNew c => exact absurd rfl (hn c)
  | reset =>
    rw [exec_reset] at h
    refine invoke_ends (fun v u _ hr => ?_) h
    obtain ⟨_, w, hw, hr⟩ := op_bind_returns hr
    cases hr
    obtain ⟨hu, hlow⟩ := sessionReset_returns hw
    exact .reset rfl hu hlow
  | enterLvp =>
    rw [exec_enterLvp] at h
    refine invoke_ends (fun v u ha hr => ?_) h
    obtain ⟨_, w, hw, hr⟩ := op_bind_returns hr
    cases hr
    obtain ⟨hu, hheld, hready⟩ := enterLvp_returns hw
    have hs : s.state = .reset := by
      revert ha
      cases s.state <;> simp [admits]
    exact .enterLvp rfl hs hu hheld hready
  | exit => exact absurd rfl hx
  | verify n =>
    rw [exec_verify] at h
    refine invoke_ends (fun v u ha hr => ?_) h
    exact .command (.inr ⟨n, rfl⟩) (programming_of_admits (.inr rfl) ha) (linesKept_verifyAll n s v u hr)
  | interrupt =>
    rw [exec_interrupt] at h
    exact invoke_ends (fun v u _ hr => by cases hr) h

/-- R111: the abort path ends in `Exited`. -/
theorem abort_state (e : OpError) (s : State) : (abort e s).state = .exited := by
  unfold abort
  simp only
  split
  next h => exact h
  next => rfl

/-- R92: so does `EXIT`. -/
theorem completeExit_state (s : State) : (completeExit s).state = .exited := by
  unfold completeExit
  simp only
  split
  · rfl
  · simp [teardown]

theorem exec_exit_cases (h : exec .exit s = .next t) : (∃ w, t = s.refuse w) ∨ t.state = .exited := by
  rw [exec_exit] at h
  rcases guarded_cases .exit none completeExit s with ⟨_, hw, _⟩ | ⟨_, _, he⟩ | ⟨_, _, he⟩
  · cases hw
  · rw [he] at h; cases h; exact .inl ⟨_, rfl⟩
  · rw [he] at h; cases h; exact .inr (completeExit_state s)

/-! ## The session state (R13) -/

/-- How an operation can move the session state. -/
inductive Moves (i : Instr) (s t : State) : Prop where
  | stays (h : t.state = s.state)
  | reset (hi : i = .reset) (ht : t.state = .reset)
  | enterLvp (hi : i = .enterLvp) (ht : t.state = .lvpEntered)
  | command (hi : isCommand i = true ∨ ∃ n, i = .verify n) (hs : Programming s) (ht : Programming t)
  | exits (ht : t.state = .exited) (hi : i = .exit ∨ ∃ e u, t = abort e u)

theorem exec_moves {i : Instr} (hn : ∀ c, i ≠ .sessionNew c) (h : exec i s = .next t) : Moves i s t := by
  by_cases hx : i = .exit
  · subst hx
    rcases exec_exit_cases h with ⟨w, rfl⟩ | ht
    · exact .stays rfl
    · exact .exits ht (.inl rfl)
  · rcases exec_ends hx hn h with ⟨w, rfl⟩ | ⟨e, u, rfl⟩ | ⟨v, u, rfl, hc⟩
    · exact .stays rfl
    · exact .exits (abort_state e u) (.inr ⟨e, u, rfl⟩)
    · cases hc with
      | primitive _ frame => exact .stays frame.state
      | line frame _ => exact .stays frame.state
      | command hi hs kept => exact .command hi hs (kept.programming hs)
      | reset hi hu _ => exact .reset hi hu
      | enterLvp hi _ hu _ _ => exact .enterLvp hi hu

theorem indexRises_actions : VerifyActions fun s t => s.state.index ≤ t.state.index where
  toPrimActions := .of_primFrame ⟨fun _ => le_rfl, fun _ _ _ h h' => h.trans h'⟩ fun h => by rw [h.state]
  advance _ _ h := h
  recordErr s e := by simp
  addResult _ _ := le_rfl
  refuse _ _ := le_rfl
  irqs _ _ := le_rfl
  irqTaken _ := le_rfl
  clear _ := le_rfl
  record _ _ _ := le_rfl
  mismatch _ _ _ _ _ _ _ := le_rfl

/-- A command never leads to `LvpEntered` from elsewhere: it is admitted there and in `ProgrammingMode` only. -/
theorem Programming.lvpEntered_of_le (hs : Programming s) (h : s.state.index ≤ SessionState.index .lvpEntered) :
    s.state = .lvpEntered := by
  rcases hs with hs | hs
  · exact hs
  · rw [hs] at h; exact absurd h (by decide)

/-- Settles O48: the index rises across every elementary action, and `Moves` lists what enters each state. -/
theorem sessionStateMovesForward : Obligations.SessionStateMovesForward := by
  intro i s t hn h
  have hle : s.state.index ≤ t.state.index := exec_actions indexRises_actions i hn h
  cases exec_moves hn h with
  | stays ht => rw [ht]; exact ⟨le_rfl, .inl, .inl, .inl, .inl, id⟩
  | reset hi ht => rw [ht] at hle ⊢; exact ⟨hle, fun _ => .inr hi, nofun, nofun, nofun, nofun⟩
  | enterLvp hi ht => rw [ht] at hle ⊢; exact ⟨hle, nofun, fun _ => .inr hi, nofun, nofun, nofun⟩
  | command hi hs ht =>
    rcases ht with ht | ht <;> rw [ht] at hle ⊢
    · exact ⟨hle, nofun, fun _ => .inl (hs.lvpEntered_of_le hle), nofun, nofun, nofun⟩
    · exact ⟨hle, nofun, nofun, fun _ => .inr hi, nofun, nofun⟩
  | exits ht hi =>
    have habort : i = .exit ∨ ∃ e u, exec i s = .next (abort e u) :=
      hi.imp_right fun ⟨e, u, hu⟩ => ⟨e, u, hu ▸ h⟩
    rw [ht] at hle ⊢
    exact ⟨hle, nofun, nofun, nofun, fun _ => .inr habort, nofun⟩

/-! ## The entry invariant (R27) -/

/-- What the entry invariant asks of the lines, whether an error is recorded or not. -/
def LinesInv (s : State) : Prop :=
  (s.state = .reset → s.pin .rst = drivenLow) ∧ (Programming s → Entered s)

theorem entryInv_iff : EntryInv s ↔ (s.err = none → LinesInv s) := Iff.rfl

theorem linesInv_of_idle (h : s.state = .unpowered ∨ s.state = .exited) : LinesInv s := by
  rcases h with h | h <;> simp [LinesInv, Programming, h]

theorem LinesInv.of_entered (h : Entered s) : LinesInv s := ⟨fun _ => h.1, fun _ => h⟩

theorem LinesInv.completed {i : Instr} {u : State} (hs : LinesInv s) (hi : ¬ChangesPin i) (hc : Completed i s u) :
    LinesInv u := by
  obtain ⟨hlow, hentered⟩ := hs
  cases hc with
  | primitive hp _ => exact absurd hp hi
  | line frame kept =>
    refine ⟨fun hu => kept.rstLow (hlow (frame.state.symm.trans hu)), fun hu => kept.entered (hentered ?_)⟩
    unfold Programming at hu ⊢
    rwa [frame.state] at hu
  | command _ hprog kept => exact .of_entered (kept.entered (hentered hprog))
  | reset _ hu low => exact ⟨fun _ => low, by simp [Programming, hu]⟩
  | enterLvp _ hreset _ held ready => exact .of_entered ⟨held.trans (hlow hreset), ready⟩

theorem exec_keeps_linesInv {i : Instr} (hn : ∀ c, i ≠ .sessionNew c) (hi : ¬ChangesPin i) (hs : LinesInv s)
    (h : exec i s = .next t) : LinesInv t := by
  by_cases hx : i = .exit
  · subst hx
    rcases exec_exit_cases h with ⟨w, rfl⟩ | ht
    · exact hs
    · exact linesInv_of_idle (.inr ht)
  · rcases exec_ends hx hn h with ⟨w, rfl⟩ | ⟨e, u, rfl⟩ | ⟨v, u, rfl, hc⟩
    · exact hs
    · exact linesInv_of_idle (.inr (abort_state e u))
    · have hu : LinesInv u := hs.completed hi hc
      exact hu

/-- R24, R112: an error once recorded stays recorded. -/
theorem errStays_actions : VerifyActions fun s t => t.err = none → s.err = none where
  toPrimActions := .of_primFrame ⟨fun _ => id, fun _ _ _ h h' => h ∘ h'⟩ fun h => by rw [h.err]; exact id
  advance _ _ _ := id
  recordErr s e := by simp
  addResult _ _ := id
  refuse _ _ := id
  irqs _ _ := id
  irqTaken _ := id
  clear _ := id
  record _ _ _ := id
  mismatch _ _ _ _ _ _ _ := id

/-- Settles O55: an operation that completes keeps the lines, one that fails ends in `Exited`, and a new session is
`Unpowered`. -/
theorem entryInvKept : Obligations.EntryInvKept := by
  intro i s t hdir hwrite hrelease hensure hs h
  rw [entryInv_iff]
  intro ht
  have hi : ¬ChangesPin i := by
    rintro (⟨p, d, hp⟩ | ⟨p, v, hp⟩ | ⟨p, hp⟩ | ⟨p, b, hp⟩)
    exacts [hdir p d hp, hwrite p v hp, hrelease p hp, hensure p b hp]
  by_cases hn : ∃ c, i = .sessionNew c
  · obtain ⟨c, rfl⟩ := hn
    rcases execSessionNew_cases c s with ⟨_, he⟩ | ⟨_, he⟩ <;> rw [he] at h <;> cases h
    · exact hs ht
    · exact linesInv_of_idle (.inl rfl)
  · have hn' : ∀ c, i ≠ .sessionNew c := fun c hc => hn ⟨c, hc⟩
    exact exec_keeps_linesInv hn' hi (hs (exec_actions errStays_actions i hn' h ht)) h

/-- Settles O54: the reset state is `Unpowered`. -/
theorem entryInvAtReset : Obligations.EntryInvAtReset := fun _ => linesInv_of_idle (.inl rfl)

end Sys2Proof.Machine
end

section
/-! PROOFS. The wire view of the entry (spec/20_memory.md R34, spec/43_session.md R90): the events an operation emits
when the provider serves it, said once and composed along its parts, and the bits an observer reads from a trace. -/

namespace Sys2Proof.Machine

variable {α β : Type} {s : State} {a : α} {b : β} {es es' : List Event}

/-! ## Events of a served operation (R67) -/

/-- R67: when the provider performs the operations behind the events, `x` returns `a` from `s`, and these events are all
that has happened. For an operation that reads no value. -/
def Emits (x : Op α) (s : State) (a : α) (es : List Event) : Prop :=
  ∀ l, Serves s (providerOps es).length l → x.run s = .ok a (s.afterEvents es l s.env.reads)

theorem providerOps_append (es es' : List Event) : providerOps (es ++ es') = providerOps es ++ providerOps es' :=
  List.filterMap_append

theorem State.afterEvents_afterEvents (s : State) (es es' : List Event) (l l' : List Bool) (r r' : List (List Char)) :
    (s.afterEvents es l r).afterEvents es' l' r' = s.afterEvents (es ++ es') l' r' := by
  simp [State.afterEvents]

/-- The second operation need emit its events only from the states that the first one leaves. -/
theorem emits_bind {x : Op α} {f : α → Op β} (hx : Emits x s a es)
    (hf : ∀ t, x.run s = .ok a t → Emits (f a) t b es') : Emits (x >>= f) s b (es ++ es') := by
  intro l hl
  rw [providerOps_append, List.length_append, Serves, replicate_add_append] at hl
  have hrun := hx _ hl
  rw [op_bind_ok hrun, hf _ hrun l rfl, State.afterEvents_afterEvents]
  rfl

theorem emits_hold (d : Delay) (s : State) : Emits (emit (.hold d)) s ⟨⟩ [.hold d] := by
  rintro l rfl
  rfl

/-! ## Pin primitives (R61, R62, R66) -/

theorem claimEvents_of_acquired {p : Pin} (h : (s.pin p).acquired = true) : claimEvents s p = [] := if_pos h

theorem claimEvents_of_not_acquired {p : Pin} (h : (s.pin p).acquired = false) : claimEvents s p = [.claim p] :=
  if_neg (by simp [h])

theorem State.claimed_of_acquired {p : Pin} (h : (s.pin p).acquired = true) : s.claimed p = s := if_pos h

theorem State.claimed_pin_of_not_acquired {p : Pin} (h : (s.pin p).acquired = false) :
    (s.claimed p).pin p = PinRec.claimed := by
  rw [State.pin_eq, State.claimed_pins, if_neg (by simp [h]), PinTable.get_set, if_pos rfl]

theorem emits_pinAcquire (s : State) (p : Pin) : Emits (pinAcquire p) s ⟨⟩ (claimEvents s p) := by
  intro l hl
  cases h : (s.pin p).acquired with
  | true =>
    rw [claimEvents_of_acquired h] at hl ⊢
    obtain rfl : s.env.fails = l := hl
    rw [pinAcquire_held h]
    simp [State.afterEvents]
  | false =>
    rw [claimEvents_of_not_acquired h] at hl ⊢
    rw [pinAcquire_served h hl]
    cases p <;> rfl

theorem emits_pinSetDir (s : State) (p : Pin) (d : DirWord) :
    Emits (pinSetDir p d) s ⟨⟩ (claimEvents s p ++ [.dir p d]) := by
  refine emits_bind (emits_pinAcquire s p) fun t _ l hl => ?_
  rw [op_bind_ok (provider_served p .direction hl)]
  cases p <;> rfl

theorem emits_pinWrite {p : Pin} {v : Int} {b : Bit} (hv : pinValueBit v = some b) (h : (s.pin p).acquired = true)
    (hd : (s.pin p).dir = .output) : Emits (pinWrite p v) s ⟨⟩ [.wr p b] := by
  intro l hl
  rw [pinWrite_held hv h hd hl]
  cases p <;> rfl

/-- R66: driving an acquired pin is one event, by its direction. -/
theorem emits_pinEnsureOutWrite_held {p : Pin} (b : Bit) (h : (s.pin p).acquired = true) :
    Emits (pinEnsureOutWrite p b) s ⟨⟩ [driveEvent s p b] := by
  intro l hl
  cases hd : (s.pin p).dir with
  | input =>
    rw [driveEvent, if_pos hd] at hl ⊢
    have hset := emits_pinSetDir s p (if b then .dirHigh else .dirLow)
    rw [claimEvents_of_acquired h] at hset
    rw [pinEnsureOutWrite_input h hd, hset l hl]
    rfl
  | output =>
    rw [driveEvent, if_neg (by simp [hd])] at hl ⊢
    rw [pinEnsureOutWrite_output h hd, emits_pinWrite (pinValueBit_bit b) h hd l hl]

theorem driveEvent_congr {t : State} (p : Pin) (b : Bit) (h : t.pins = s.pins) :
    driveEvent t p b = driveEvent s p b := by
  rw [driveEvent, driveEvent, State.pin_eq, State.pin_eq, h]

theorem emits_pinEnsureOutWrite (s : State) (p : Pin) (b : Bit) :
    Emits (pinEnsureOutWrite p b) s ⟨⟩ (claimEvents s p ++ [driveEvent (s.claimed p) p b]) := by
  refine emits_bind (emits_pinAcquire s p) fun t ht => ?_
  have hheld := emits_pinEnsureOutWrite_held b (pinAcquire_acquires ht)
  rw [driveEvent_congr p b (pinAcquire_returns ht)] at hheld
  intro l hl
  rw [← hheld l hl, pinEnsureOutWrite, op_bind_ok (pinAcquire_held (pinAcquire_acquires ht))]

/-! ## Transport (R71, R50) -/

theorem providerOps_sendEvents_length (v n : Nat) : (providerOps (sendEvents v n)).length = 3 * n := by
  induction n generalizing v with
  | zero => rfl
  | succ n ih =>
    rw [sendEvents_succ, providerOps_append, List.length_append, ih]
    simp only [providerOps, sendSlot, List.filterMap_cons, Event.providerOp, List.filterMap_nil, List.length_cons,
      List.length_nil]
    omega

theorem claim_not_mem_sendEvents (v n : Nat) (p : Pin) : Event.claim p ∉ sendEvents v n := by
  simp [sendEvents, sendSlot]

theorem emits_busSend (h : SendReady s) (v n : Nat) : Emits (busSend v n) s ⟨⟩ (sendEvents v n) := by
  obtain ⟨hclk, hacq, hout⟩ := h
  intro l hl
  rw [providerOps_sendEvents_length] at hl
  have hrun := busSend_lines (s := s) (evs := []) (n := n) (v := v) (l := l) (r := s.env.reads) hclk hacq hout
  rw [← hl.afterLines] at hrun
  rw [hrun, State.afterEvents_eq _ _ _ _ (claim_not_mem_sendEvents v n), sendEvents_after hclk]
  rfl

/-- R50: the key, reversed, is what `SEND` takes lowest bit first. -/
theorem reverseBits_key : reverseBits Config.key Config.keyBits = 0x0A12C2B2 := by decide +kernel

theorem emits_sendKey (h : SendReady s) : Emits sendKey s ⟨⟩ keyEvents := by
  unfold sendKey
  rw [reverseBits_key]
  exact emits_bind (emits_busSend h _ _) fun t ht => emits_busSend (busSend_returns ht).1 _ _

/-! ## The entry (R90) -/

theorem claimEvents_congr {t : State} {p : Pin} (h : t.pin p = s.pin p) : claimEvents t p = claimEvents s p := by
  rw [claimEvents, claimEvents, h]

/-- R90: the drive of `CLK` and the direction of `DAT` make the pins ready for `SEND`. -/
theorem sendReady_of_entry {t u : State} (ht : (pinEnsureOutWrite .clk false).run s = .ok ⟨⟩ t)
    (hu : (pinSetDir .dat .dirOut).run t = .ok ⟨⟩ u) : SendReady u := by
  have hpins := pinSetDir_returns hu
  rw [pinEnsureOutWrite_returns ht] at hpins
  simp only [SendReady, State.pin_eq, hpins]
  exact ⟨rfl, rfl, rfl⟩

theorem emits_enterLvpLines (s : State) : Emits enterLvpLines s ⟨⟩ (enterEvents s) := by
  have hevents : enterEvents s = (claimEvents s .clk ++ [driveEvent (s.claimed .clk) .clk false]) ++
      ((claimEvents s .dat ++ [.dir .dat .dirOut]) ++ (keyEvents ++ [.hold .tEntry])) := by
    simp only [enterEvents, List.append_assoc]
  rw [hevents]
  refine emits_bind (emits_pinEnsureOutWrite s .clk false) fun t ht => ?_
  have hdat : t.pin .dat = s.pin .dat := by
    rw [State.pin_eq, pinEnsureOutWrite_returns ht, PinTable.get_set, if_neg (by decide), State.pin_eq]
  rw [← claimEvents_congr hdat]
  refine emits_bind (emits_pinSetDir t .dat .dirOut) fun u hu => ?_
  exact emits_bind (emits_sendKey (sendReady_of_entry ht hu)) fun w _ => emits_hold .tEntry w

/-- R90: the whole next state of an `ENTER_LVP` that the provider serves. -/
theorem exec_enterLvp_served {l : List Bool} (hs : s.state = .reset)
    (hl : Serves s (providerOps (enterEvents s)).length l) :
    exec .enterLvp s =
      .next (((s.afterEvents (enterEvents s) l s.env.reads).withState .lvpEntered).addResult (.ok .unit)) := by
  have hrun : enterLvp.run s = .ok ⟨⟩ ((s.afterEvents (enterEvents s) l s.env.reads).withState .lvpEntered) := by
    rw [enterLvp_eq, op_bind_ok (emits_enterLvpLines s l hl), op_modify]
  rw [exec_enterLvp, invoke_ok (by rw [hs]; rfl) (noValue_ok hrun)]

/-! ## The wire view (R73, R34) -/

/-- The bits of a trace are those of its two parts, the second read from the levels after the first. -/
theorem wireBits_append (clk dat : Option Bit) (es es' : List Event) :
    wireBits clk dat (es ++ es') =
      wireBits clk dat es ++ wireBits (es.foldl (levelAfter .clk) clk) (es.foldl (levelAfter .dat) dat) es' := by
  induction es generalizing clk dat with
  | nil => rfl
  | cons e es ih => simp only [List.cons_append, wireBits, ih, List.append_assoc, List.foldl_cons]

theorem clkLevel_sendEvents (v n : Nat) : (sendEvents v n).foldl (levelAfter .clk) (some false) = some false := by
  induction n generalizing v with
  | zero => rfl
  | succ n ih => rw [sendEvents_succ, List.foldl_append]; exact ih _

theorem clkLevel_keyEvents : keyEvents.foldl (levelAfter .clk) (some false) = some false := by
  rw [keyEvents, List.foldl_append, clkLevel_sendEvents, clkLevel_sendEvents]

theorem wireBits_sendSlot (dat : Option Bit) (b : Bit) : wireBits (some false) dat (sendSlot b) = [some b] := by
  simp [sendSlot, wireBits, levelAfter]

/-- R71, R73: from a low clock, a send puts its value on the wire, lowest bit first. -/
theorem wireBits_sendEvents (dat : Option Bit) (v n : Nat) :
    wireBits (some false) dat (sendEvents v n) = (List.range n).map fun k => some (v.testBit k) := by
  induction n generalizing dat v with
  | zero => rfl
  | succ n ih =>
    have hclk : (sendSlot (v.testBit 0)).foldl (levelAfter .clk) (some false) = some false := rfl
    rw [sendEvents_succ, wireBits_append, wireBits_sendSlot, hclk, ih, List.range_succ_eq_map, List.map_cons,
      List.map_map]
    simp [Function.comp_def, Nat.testBit_shiftRight, Nat.add_comm]

/-- R50: the wire bits of the frame of format K, the key highest bit first and one 0. -/
def keyWireBits : List WireBit :=
  (List.range 32).map (fun j => some ((0x4D434850 : Nat).testBit (31 - j))) ++ [some false]

theorem testBit_reversedKey {k : Nat} (hk : k < 32) :
    (0x0A12C2B2 : Nat).testBit k = (0x4D434850 : Nat).testBit (31 - k) := by
  have h := reverseBits_testBit Config.key Config.keyBits k
  rw [reverseBits_key] at h
  rw [Bool.eq_iff_iff, h]
  exact and_iff_right hk

theorem wireBits_keyEvents (dat : Option Bit) : wireBits (some false) dat keyEvents = keyWireBits := by
  have hkey : ((List.range 32).map fun k => some ((0x0A12C2B2 : Nat).testBit k)) =
      (List.range 32).map fun j => some ((0x4D434850 : Nat).testBit (31 - j)) :=
    List.map_congr_left fun k hk => by rw [testBit_reversedKey (List.mem_range.1 hk)]
  rw [keyEvents, wireBits_append, wireBits_sendEvents, clkLevel_sendEvents, wireBits_sendEvents, hkey]
  rfl

/-- R90: the events of `ENTER_LVP` after the drive of `CLK`. -/
def afterClockLow (s : State) : List Event :=
  claimEvents s .dat ++ ([.dir .dat .dirOut] ++ (keyEvents ++ [.hold .tEntry]))

/-- From the low clock on, the key is all that an observer reads. -/
theorem wireBits_afterClockLow (dat : Option Bit) (s : State) :
    wireBits (some false) dat (afterClockLow s) = keyWireBits := by
  have hkey : ∀ dat, wireBits (some false) dat (keyEvents ++ [.hold .tEntry]) = keyWireBits := by
    intro dat
    rw [wireBits_append, wireBits_keyEvents, clkLevel_keyEvents]
    simp [wireBits, levelAfter]
  unfold afterClockLow
  cases h : (s.pin .dat).acquired with
  | true => rw [claimEvents_of_acquired h]; simp [wireBits, levelAfter, hkey]
  | false => rw [claimEvents_of_not_acquired h]; simp [wireBits, levelAfter, hkey]

/-- A clock that was an output is driven low by a write: a falling edge exactly if it was high. -/
theorem wireBits_enterEvents_output {clk dat : Option Bit} (hacq : (s.pin .clk).acquired = true)
    (hout : (s.pin .clk).dir = .output) :
    wireBits clk dat (enterEvents s) = (if clk = some true then [dat] else []) ++ keyWireBits := by
  have hevents : enterEvents s = .wr .clk false :: afterClockLow s := by
    rw [enterEvents, claimEvents_of_acquired hacq, State.claimed_of_acquired hacq, driveEvent, if_neg (by simp [hout])]
    simp [afterClockLow]
  rw [hevents]
  simp [wireBits, levelAfter, wireBits_afterClockLow]

/-- A clock that was an input drove no level, so the drive low is no falling edge. -/
theorem wireBits_enterEvents_input {dat : Option Bit} (hin : (s.pin .clk).dir = .input) :
    wireBits none dat (enterEvents s) = keyWireBits := by
  have hin' : ((s.claimed .clk).pin .clk).dir = .input := by
    cases hacq : (s.pin .clk).acquired with
    | true => rwa [State.claimed_of_acquired hacq]
    | false => rw [State.claimed_pin_of_not_acquired hacq]; rfl
  have hevents : enterEvents s = claimEvents s .clk ++ .dir .clk .dirLow :: afterClockLow s := by
    rw [enterEvents, driveEvent, if_pos hin']
    simp [afterClockLow]
  rw [hevents]
  cases hacq : (s.pin .clk).acquired with
  | true =>
    rw [claimEvents_of_acquired hacq]
    simp [wireBits, levelAfter, PinRec.withDir, wireBits_afterClockLow]
  | false =>
    rw [claimEvents_of_not_acquired hacq]
    simp [wireBits, levelAfter, PinRec.withDir, wireBits_afterClockLow]

theorem PinRec.Sound.acquired_of_output {r : PinRec} (h : r.Sound) (hout : r.dir = .output) : r.acquired = true := by
  by_contra hacq
  rw [h.2 (by simpa using hacq)] at hout
  cases hout

/-- Settles O27: after the drive of `CLK` only the key is on the wire, and that drive is a falling edge only from a high
output. -/
theorem entryWireBits : Obligations.EntryWireBits := by
  intro s l hs hsound hl
  refine ⟨_, enterEvents s, exec_enterLvp_served hs hl, rfl, ?_, ?_⟩
  · intro hclk
    cases hdir : (s.pin .clk).dir with
    | input => rw [hsound.1 hdir]; exact wireBits_enterEvents_input hdir
    | output =>
      have hlow : (s.pin .clk).level = some false := by simpa [hdir] using hclk
      rw [hlow, wireBits_enterEvents_output (hsound.acquired_of_output hdir) hdir]
      rfl
  · intro b hdir _
    rw [wireBits_enterEvents_output (hsound.acquired_of_output hdir) hdir, List.append_assoc]
    cases b <;> rfl

end Sys2Proof.Machine
end

section
/-! PROOFS. The decoder of wire frames (spec/30_encoding.md R46 to R56): how the fields of a frame read back, which codes
have no row, and the round trip of every frame. -/

namespace Sys2Proof

/-! ## Fields (R33) -/

theorem bitsOf_take {m n : Nat} (v : Nat) (h : n ≤ m) : (bitsOf m v).take n = bitsOf n v := by
  refine List.ext_getElem? fun j => ?_
  rw [List.getElem?_take, bitsOf_getElem?, bitsOf_getElem?]
  by_cases hj : j < n
  · rw [if_pos hj, if_pos (hj.trans_le h), if_pos hj]
  · rw [if_neg hj, if_neg hj]

theorem valueOf_bitsOf_of_lt {n v : Nat} (h : v < 2 ^ n) : valueOf (bitsOf n v) = v := by
  rw [valueOf_bitsOf, Nat.mod_eq_of_lt h]

/-! ## Words of the opcode table -/

/-- R54: the length of a frame is fixed by its opcode. -/
theorem frameLength_take (bs : List Bit) {n : Nat} (h : 6 ≤ n) : frameLength (bs.take n) = frameLength bs := by
  have ht : (bs.take n).take Config.opcodeBits = bs.take Config.opcodeBits := by
    rw [List.take_take, Nat.min_eq_left (show Config.opcodeBits ≤ n from h)]
  rw [frameLength, frameLength, ht]

/-- A frame of the length that its opcode asks for is read back from the word that numbers its bits. -/
theorem tableFrame_valueOf {bs : List Bit} (h6 : 6 ≤ bs.length) (h33 : bs.length ≤ 33)
    (hlen : frameLength bs = bs.length) : tableFrame bs.length (valueOf bs) = bs := by
  have htake : (bitsOf 33 (valueOf bs)).take bs.length = bs := by rw [bitsOf_take _ h33, bitsOf_valueOf]
  have hpad : frameLength (bitsOf 33 (valueOf bs)) = bs.length := by
    rw [← frameLength_take _ h6, htake, hlen]
  rw [tableFrame, Nat.mod_eq_of_lt (valueOf_lt bs)]
  simp only [hpad, htake]

/-- R54: what a frame decodes to, the word that numbers its bits decodes to as well. -/
theorem decodeTableWord_valueOf {bs : List Bit} {i : Instr} (h6 : 6 ≤ bs.length) (h33 : bs.length ≤ 33)
    (hlen : frameLength bs = bs.length) (hdec : decodeFrame bs = .ok i) :
    decodeTableWord bs.length (valueOf bs) = some i := by
  rw [decodeTableWord, tableFrame_valueOf h6 h33 hlen, hdec]
  rfl

/-! ## Write frames (R48, R52, R56) -/

/-- R48: the frame of a write command, its opcode and then the data word between two framing bits of 0. -/
def writeFrame (op d : Nat) : List Bit := bitsOf 6 op ++ bitsOf 16 (2 * d)

theorem writeFrame_length (op d : Nat) : (writeFrame op d).length = 22 := by
  simp [writeFrame, bitsOf_length]

theorem encodeFrame_loadConfig (d : Nat) : encodeFrame (.loadConfig d) = writeFrame 0x00 d := by
  simp [encodeFrame, wireFrame, drivenField, writeFrame]

theorem encodeFrame_loadData (d : Nat) : encodeFrame (.loadData d) = writeFrame 0x02 d := by
  simp [encodeFrame, wireFrame, drivenField, writeFrame]

theorem writePayload_bitsOf {d : Nat} (hd : d < 2 ^ 14) : writePayload (bitsOf 16 (2 * d)) = .ok d := by
  have hv : valueOf (bitsOf 16 (2 * d)) = 2 * d := valueOf_bitsOf_of_lt (by omega)
  rw [writePayload, hv, if_neg (by rw [bitsOf_length]; decide), if_neg (by omega), Nat.mul_div_cancel_left d (by decide)]

/-- R46: a frame that is too short for the key begins with its opcode. -/
theorem decodeFrame_of_row {op : Nat} {payload : List Bit} {row : CommandRow} (hop : op < 2 ^ 6)
    (hrow : rowOfOpcode op = some row) (hlen : payload.length ≤ 16) :
    decodeFrame (bitsOf 6 op ++ payload) = decodePayload row payload := by
  have h6 : (bitsOf 6 op).length = 6 := bitsOf_length 6 op
  have hkey : bitsOf 6 op ++ payload ≠ keyFrame := by
    intro h
    have := congrArg List.length h
    rw [List.length_append, h6, show keyFrame.length = 33 from rfl] at this
    omega
  rw [decodeFrame, if_neg hkey, if_neg (by rw [List.length_append, h6]; exact Nat.not_lt.2 (Nat.le_add_right 6 _)),
    show Config.opcodeBits = (bitsOf 6 op).length from h6.symm, List.take_left, List.drop_left,
    valueOf_bitsOf_of_lt hop, hrow]

theorem frameLength_of_row {op : Nat} {payload : List Bit} {row : CommandRow} (hop : op < 2 ^ 6)
    (hrow : rowOfOpcode op = some row) (hfmt : row.format = .write) : frameLength (bitsOf 6 op ++ payload) = 22 := by
  rw [frameLength, show Config.opcodeBits = (bitsOf 6 op).length from (bitsOf_length 6 op).symm, List.take_left,
    valueOf_bitsOf_of_lt hop, hrow]
  simp only [hfmt]

/-! ## The round trip -/

/-- What the round trip of frames says of one frame. -/
def ReadsBack (bs : List Bit) (i : Instr) : Prop :=
  decodeFrame bs = .ok i ∧ decodeTableWord bs.length (valueOf bs) = some i

theorem readsBack_writeFrame {op d : Nat} {row : CommandRow} (hd : d < 2 ^ 14) (hop : op < 2 ^ 6)
    (hrow : rowOfOpcode op = some row) (hfmt : row.format = .write) :
    ReadsBack (writeFrame op d) (row.command.instr d) := by
  have hdec : decodeFrame (writeFrame op d) = .ok (row.command.instr d) := by
    rw [writeFrame, decodeFrame_of_row hop hrow (by rw [bitsOf_length]), decodePayload, hfmt]
    simp only [writePayload_bitsOf hd, Except.map]
  have hlen := writeFrame_length op d
  refine ⟨hdec, decodeTableWord_valueOf (by omega) (by omega) ?_ hdec⟩
  rw [hlen, writeFrame, frameLength_of_row hop hrow hfmt]

/-- Settles O2: a write frame reads back for every data word, and the other seven frames are constants. -/
theorem frameRoundTrip : Obligations.FrameRoundTrip := by
  intro i hwf hframe
  cases i with
  | loadConfig d =>
    rw [encodeFrame_loadConfig]
    exact readsBack_writeFrame (op := 0x00) (of_decide_eq_true hwf) (by decide) rfl rfl
  | loadData d =>
    rw [encodeFrame_loadData]
    exact readsBack_writeFrame (op := 0x02) (of_decide_eq_true hwf) (by decide) rfl rfl
  | readData | incAddr | resetAddr | beginProg | bulkErase | rowErase | lvpKey => decide +kernel
  | _ => exact absurd rfl hframe

/-! ## Undefined opcodes (R51, R55) -/

theorem rowOfOpcode_eq_none {op : Nat} (h : op ∉ [0x00, 0x02, 0x04, 0x06, 0x16, 0x08, 0x09, 0x11]) :
    rowOfOpcode op = none := by
  refine List.find?_eq_none.2 fun row hrow hop => h ?_
  rw [← beq_iff_eq.1 hop]
  exact List.mem_map_of_mem (f := CommandRow.opcode) hrow

/-- Settles O4: the table of R51 has no row for such a code, and 8 of the 64 codes have one. -/
theorem undefinedOpcodesRejected : Obligations.UndefinedOpcodesRejected := by
  refine ⟨fun bs hkey h6 hop => ?_, by decide⟩
  rw [decodeFrame, if_neg hkey, show Config.opcodeBits = 6 from rfl, if_neg (Nat.not_lt.2 h6), rowOfOpcode_eq_none hop]

/-- Settles O1: the decoder runs on each word. -/
theorem opcodeWordsDecode : Obligations.OpcodeWordsDecode := by
  unfold Obligations.OpcodeWordsDecode
  decide +kernel

end Sys2Proof
end

section
/-! PROOFS. The decoder of program lines (spec/30_encoding.md R59): a line of mnemonic and operand words is cut into these
words again, a decimal number is read back, and so every line that the encoder writes is decoded to its operation. -/

namespace Sys2Proof

/-! ## Words of a line -/

/-- A word of a line that the encoder may write: not empty, without the space that ends a word and the semicolon that may
begin a comment. -/
def IsLineWord (t : List Char) : Prop := t ≠ [] ∧ ' ' ∉ t ∧ ';' ∉ t

/-- The operand words of a line, a space before each. -/
def operandText (operands : List (List Char)) : List Char := operands.flatMap (fun t => ' ' :: t)

theorem lineText_eq (m : String) (operands : List (List Char)) : lineText m operands = m.toList ++ operandText operands :=
  rfl

theorem cutComment_of_not_mem {t : List Char} (h : ';' ∉ t) : cutComment t = t := by
  induction t with
  | nil => rfl
  | cons c cs ih =>
    obtain ⟨hc, hcs⟩ := List.ne_and_not_mem_of_not_mem_cons h
    rw [cutComment, ih hcs]
    rintro _ rfl
    exact absurd rfl hc

/-- The letters of a word are collected, last first. -/
theorem wordsOf_letters {t : List Char} (h : ' ' ∉ t) (rest cur : List Char) :
    wordsOf (t ++ rest) cur = wordsOf rest (t.reverse ++ cur) := by
  induction t generalizing cur with
  | nil => rfl
  | cons c cs ih =>
    obtain ⟨hc, hcs⟩ := List.ne_and_not_mem_of_not_mem_cons h
    rw [List.cons_append, wordsOf, ih hcs]
    · simp
    · exact fun _ hspace => hc hspace.symm
    · exact fun _ _ _ hspace => hc hspace.symm

/-- At the end of the line, or at the space before the next word, the letters collected are a word. -/
theorem wordsOf_operandText_reverse {t : List Char} (ht : t ≠ []) (operands : List (List Char)) :
    wordsOf (operandText operands) t.reverse = t :: wordsOf (operandText operands) [] := by
  obtain ⟨c, cur, hcur⟩ := List.exists_cons_of_ne_nil (List.reverse_ne_nil_iff.2 ht)
  have hback : t = (c :: cur).reverse := by rw [← hcur, List.reverse_reverse]
  rw [hcur, hback]
  cases operands <;> rfl

theorem wordsOf_append_operandText {m : List Char} (hm : IsLineWord m) {operands : List (List Char)}
    (h : ∀ t ∈ operands, IsLineWord t) : wordsOf (m ++ operandText operands) [] = m :: operands := by
  obtain ⟨hne, hspace, _⟩ := hm
  rw [wordsOf_letters hspace, List.append_nil, wordsOf_operandText_reverse hne]
  congr 1
  induction operands with
  | nil => rfl
  | cons t ts ih =>
    obtain ⟨ht, hts⟩ := List.forall_mem_cons.1 h
    obtain ⟨hne, hspace, _⟩ := ht
    have hcons : operandText (t :: ts) = ' ' :: (t ++ operandText ts) := rfl
    rw [hcons, wordsOf, wordsOf_letters hspace, List.append_nil, wordsOf_operandText_reverse hne, ih hts]

theorem semicolon_not_mem_line {m : List Char} (hm : IsLineWord m) {operands : List (List Char)}
    (h : ∀ t ∈ operands, IsLineWord t) : ';' ∉ m ++ operandText operands := by
  obtain ⟨_, _, hm⟩ := hm
  rw [List.mem_append, not_or]
  refine ⟨hm, fun hmem => ?_⟩
  obtain ⟨t, ht, hc⟩ := List.mem_flatMap.1 hmem
  obtain ⟨_, _, hsemi⟩ := h t ht
  rcases List.mem_cons.1 hc with hc | hc
  · exact absurd hc (by decide)
  · exact hsemi hc

theorem isLineWord_of_mnemonicOf {m : List Char} {k : Mnemonic} (h : mnemonicOf m = some k) : IsLineWord m := by
  have htable : ∀ e ∈ mnemonicTable, e.1 ≠ [] ∧ ' ' ∉ e.1 ∧ ';' ∉ e.1 := by decide +kernel
  obtain ⟨e, he, _⟩ := Option.map_eq_some_iff.1 h
  have hname : e.1 = m := by simpa using List.find?_some he
  rw [← hname]
  exact htable e (List.mem_of_find?_eq_some he)

/-- R59: a line of words is decoded by its mnemonic and its operand words. -/
theorem decodeLine_lineText {m : String} {operands : List (List Char)} {k : Mnemonic} {i : Instr}
    (hk : mnemonicOf m.toList = some k) (h : ∀ t ∈ operands, IsLineWord t)
    (hi : decodeOperands k operands = some i) : decodeLine (lineText m operands) = .ok i := by
  have hm := isLineWord_of_mnemonicOf hk
  rw [decodeLine, lineText_eq, cutComment_of_not_mem (semicolon_not_mem_line hm h), wordsOf_append_operandText hm h]
  simp only [hk, hi]

/-! ## Decimal numbers -/

/-- The decimal digits. -/
def decimalDigits : List Char := ['0', '1', '2', '3', '4', '5', '6', '7', '8', '9']

theorem digit_mem {d : Nat} (h : d < 10) : Char.ofNat (48 + d) ∈ decimalDigits := by
  revert d
  decide

theorem digitValue_digit {d : Nat} (h : d < 10) : digitValue 10 (Char.ofNat (48 + d)) = some d := by
  revert d
  decide

theorem decimalBefore_subset {fuel n : Nat} {tail : List Char} (h : tail ⊆ decimalDigits) :
    decimalBefore fuel n tail ⊆ decimalDigits := by
  induction fuel generalizing n tail with
  | zero => exact h
  | succ fuel ih =>
    have hcons := List.cons_subset.2 ⟨digit_mem (Nat.mod_lt n (by decide)), h⟩
    simp only [decimalBefore]
    split
    · exact hcons
    · exact ih hcons

theorem decimalBefore_ne_nil {fuel n : Nat} {tail : List Char} (h : tail ≠ []) : decimalBefore fuel n tail ≠ [] := by
  induction fuel generalizing n tail with
  | zero => exact h
  | succ fuel ih =>
    simp only [decimalBefore]
    split
    · exact List.cons_ne_nil _ _
    · exact ih (List.cons_ne_nil _ _)

/-- Reading the digits of `n` leaves `n` as the value before the text that follows. -/
theorem digitsValue_decimalBefore {fuel n : Nat} (h : n < fuel) (tail : List Char) :
    digitsValue 10 0 (decimalBefore fuel n tail) = digitsValue 10 n tail := by
  induction fuel generalizing n tail with
  | zero => exact absurd h (Nat.not_lt_zero n)
  | succ fuel ih =>
    have hdigit : ∀ acc, digitsValue 10 acc (Char.ofNat (48 + n % 10) :: tail) = digitsValue 10 (10 * acc + n % 10) tail := by
      intro acc
      rw [digitsValue, digitValue_digit (Nat.mod_lt n (by decide))]
    simp only [decimalBefore]
    split
    next hlast => rw [hdigit, show 10 * 0 + n % 10 = n by omega]
    next hmore => rw [ih (by omega), hdigit, Nat.div_add_mod]

theorem decimal_subset (n : Nat) : decimal n ⊆ decimalDigits := decimalBefore_subset (List.nil_subset _)

theorem decimal_ne_nil (n : Nat) : decimal n ≠ [] := by
  rw [decimal, decimalBefore]
  split
  · exact List.cons_ne_nil _ _
  · exact decimalBefore_ne_nil (List.cons_ne_nil _ _)

/-- R59: a text of digits has no letter after a leading 0, so it is read in base 10. -/
theorem parseNumber_digits {t : List Char} (hne : t ≠ []) (h : t ⊆ decimalDigits) :
    parseNumber t = digitsValue 10 0 t := by
  unfold parseNumber
  split
  · exact absurd rfl hne
  · exact absurd (h (show 'x' ∈ _ by simp)) (by decide)
  · exact absurd (h (show 'b' ∈ _ by simp)) (by decide)
  · rfl

theorem parseNumber_decimal (n : Nat) : parseNumber (decimal n) = some n := by
  rw [parseNumber_digits (decimal_ne_nil n) (decimal_subset n), decimal, digitsValue_decimalBefore (Nat.lt_succ_self n)]
  rfl

theorem isLineWord_decimal (n : Nat) : IsLineWord (decimal n) :=
  ⟨decimal_ne_nil n, fun h => absurd (decimal_subset n h) (by decide), fun h => absurd (decimal_subset n h) (by decide)⟩

/-! ## Other operands -/

theorem isLineWord_pinText (p : Pin) : IsLineWord (pinText p) := by
  unfold IsLineWord
  cases p <;> decide +kernel

theorem isLineWord_dirText (d : DirWord) : IsLineWord (dirText d) := by
  unfold IsLineWord
  cases d <;> decide +kernel

theorem parsePin_pinText (p : Pin) : parsePin (pinText p) = some p := by cases p <;> rfl

theorem parseDir_dirText (d : DirWord) : parseDir (dirText d) = .word d := by cases d <;> rfl

theorem parseBit_decimal (b : Bit) : parseBit (decimal b.toNat) = some b := by
  rw [parseBit, parseNumber_decimal]
  cases b <;> rfl

/-! ## Lines by the shape of their operands -/

theorem decodeLine_plain {m : String} {i : Instr} (hm : mnemonicOf m.toList = some (.plain i)) :
    decodeLine (lineText m []) = .ok i :=
  decodeLine_lineText hm (by simp) rfl

theorem decodeLine_data {m : String} {c : Nat → Instr} (hm : mnemonicOf m.toList = some (.data c)) (n : Nat) :
    decodeLine (lineText m [decimal n]) = .ok (c n) :=
  decodeLine_lineText hm (by simp [isLineWord_decimal]) (by simp [decodeOperands, parseNumber_decimal])

theorem decodeLine_pin {m : String} {c : Pin → Instr} (hm : mnemonicOf m.toList = some (.pin c)) (p : Pin) :
    decodeLine (lineText m [pinText p]) = .ok (c p) :=
  decodeLine_lineText hm (by simp [isLineWord_pinText]) (by simp [decodeOperands, parsePin_pinText])

theorem decodeLine_pinDir {m : String} {c : Pin → DirArg → Instr} (hm : mnemonicOf m.toList = some (.pinDir c))
    (p : Pin) (d : DirWord) : decodeLine (lineText m [pinText p, dirText d]) = .ok (c p (.word d)) :=
  decodeLine_lineText hm (by simp [isLineWord_pinText, isLineWord_dirText])
    (by simp [decodeOperands, parsePin_pinText, parseDir_dirText])

theorem decodeLine_pinInt {m : String} {c : Pin → Int → Instr} (hm : mnemonicOf m.toList = some (.pinInt c))
    (p : Pin) (v : Nat) : decodeLine (lineText m [pinText p, decimal v]) = .ok (c p (.ofNat v)) :=
  decodeLine_lineText hm (by simp [isLineWord_pinText, isLineWord_decimal])
    (by simp [decodeOperands, parsePin_pinText, parseNumber_decimal])

theorem decodeLine_pinBit {m : String} {c : Pin → Bit → Instr} (hm : mnemonicOf m.toList = some (.pinBit c))
    (p : Pin) (b : Bit) : decodeLine (lineText m [pinText p, decimal b.toNat]) = .ok (c p b) :=
  decodeLine_lineText hm (by simp [isLineWord_pinText, isLineWord_decimal])
    (by simp [decodeOperands, parsePin_pinText, parseBit_decimal])

theorem decodeLine_twoNats {m : String} {c : Nat → Nat → Instr} (hm : mnemonicOf m.toList = some (.twoNats c))
    (v n : Nat) : decodeLine (lineText m [decimal v, decimal n]) = .ok (c v n) :=
  decodeLine_lineText hm (by simp [isLineWord_decimal]) (by simp [decodeOperands, parseNumber_decimal])

/-- Settles O3: every mnemonic is in the table with the shape of its operands, and a line of each shape is decoded. -/
theorem lineRoundTrip : Obligations.LineRoundTrip := by
  intro i hkey hsession hwrite hdir
  cases i with
  | loadConfig d => exact ⟨_, rfl, decodeLine_data rfl d⟩
  | loadData d => exact ⟨_, rfl, decodeLine_data rfl d⟩
  | readData | incAddr | resetAddr | beginProg | bulkErase | rowErase | reset | enterLvp | exit | interrupt =>
    exact ⟨_, rfl, decodeLine_plain rfl⟩
  | lvpKey => exact absurd rfl hkey
  | acquire p => exact ⟨_, rfl, decodeLine_pin rfl p⟩
  | setDir p d =>
    cases d with
    | word d => exact ⟨_, rfl, decodeLine_pinDir rfl p d⟩
    | other t => exact absurd (hdir p _ rfl) (by simp [DirArg.inRange])
  | write p v =>
    cases v with
    | ofNat v => exact ⟨_, rfl, decodeLine_pinInt rfl p v⟩
    | negSucc v => exact absurd (hwrite p _ rfl) (Int.negSucc_not_nonneg v).1
  | read p => exact ⟨_, rfl, decodeLine_pin rfl p⟩
  | release p => exact ⟨_, rfl, decodeLine_pin rfl p⟩
  | ensureOutWrite p b => exact ⟨_, rfl, decodeLine_pinBit rfl p b⟩
  | reverse v n => exact ⟨_, rfl, decodeLine_twoNats rfl v n⟩
  | send v n => exact ⟨_, rfl, decodeLine_twoNats rfl v n⟩
  | recv n => exact ⟨_, rfl, decodeLine_data rfl n⟩
  | sessionNew c => exact absurd rfl (hsession c)
  | verify n => exact ⟨_, rfl, decodeLine_data rfl n⟩

end Sys2Proof
end

section
/-! PROOFS. What a step does with the host's queue when no interrupt is pending (spec/30_encoding.md R59, log 4, log 10). -/

namespace Sys2Proof.Machine

variable {s : State}

/-! ## The step with no interrupt pending -/

theorem step_idle (hq : s.irqPending = false) (hh : s.host = []) : step s = .next s := by
  rw [step, if_neg (by simp [hq]), hh]

theorem step_decoded {r : HostRequest} {rest : List HostRequest} {i : Instr} (hq : s.irqPending = false)
    (hh : s.host = r :: rest) (hd : r.decode = .ok i) : step s = exec i (s.withHost rest) := by
  rw [step, if_neg (by simp [hq]), hh]
  simp only [hd]

theorem step_undecodable {r : HostRequest} {rest : List HostRequest} {e : DecodeError} (hq : s.irqPending = false)
    (hh : s.host = r :: rest) (hd : r.decode = .error e) :
    step s = .next ((s.withHost rest).refuse (.noOperation e)) := by
  rw [step, if_neg (by simp [hq]), hh]
  simp only [hd]

/-- Settles O5: the three cases of the step. -/
theorem stepRunsDecodedInstruction : Obligations.StepRunsDecodedInstruction := fun _ hq =>
  ⟨step_idle hq, fun _ _ hh => ⟨fun _ => step_decoded hq hh, fun _ => step_undecodable hq hh⟩⟩

/-- Settles O7: the placed frame is the head of the queue, and the step takes it off again. -/
theorem placedWordRunsNext : Obligations.PlacedWordRunsNext := by
  intro s nbits w i hw
  have hdec : decodeFrame (tableFrame nbits w) = .ok i := by
    rw [decodeTableWord] at hw
    cases hd : decodeFrame (tableFrame nbits w) with
    | ok j => rw [hd] at hw; cases hw; rfl
    | error e => rw [hd] at hw; cases hw
  exact step_decoded (s := s.withFetchWord nbits w) rfl rfl hdec

end Sys2Proof.Machine
end

section
/-! PROOFS. Where an operation stops (spec/40_gpio_pins.md R67, spec/60_exceptions.md R111): an operation that performs its
events when it is served, and stops before the first of them that fails, said once and composed along its parts; with it
the frame of format K (spec/30_encoding.md R50). -/

namespace Sys2Proof.Machine

variable {α β : Type} {s : State} {a : α} {b : β} {es es' : List Event}

/-! ## The first failure among the events of two parts -/

theorem readBits_append (es es' : List Event) : readBits (es ++ es') = readBits es ++ readBits es' :=
  List.filterMap_append

theorem length_filter_providerOp (es : List Event) :
    (es.filter fun e => e.providerOp.isSome).length = (providerOps es).length := by
  rw [providerOps, List.length_filterMap_eq_countP, List.countP_eq_length_filter]

/-- R111: an event that no provider operation emits has happened before the next one that fails. -/
theorem eventsBefore_cons_none {e : Event} (h : e.providerOp = none) (j : Nat) (es : List Event) :
    eventsBefore j (e :: es) = e :: eventsBefore j es := by
  simp only [eventsBefore, h]

theorem eventsBefore_zero_cons_some {e : Event} {x : Pin × ProviderOp} (h : e.providerOp = some x) (es : List Event) :
    eventsBefore 0 (e :: es) = [] := by
  simp only [eventsBefore, h]

theorem eventsBefore_succ_cons_some {e : Event} {x : Pin × ProviderOp} (h : e.providerOp = some x) (j : Nat)
    (es : List Event) : eventsBefore (j + 1) (e :: es) = e :: eventsBefore j es := by
  simp only [eventsBefore, h]

theorem providerOps_cons_none {e : Event} (h : e.providerOp = none) (es : List Event) :
    providerOps (e :: es) = providerOps es := List.filterMap_cons_none h

theorem providerOps_cons_some {e : Event} {x : Pin × ProviderOp} (h : e.providerOp = some x) (es : List Event) :
    providerOps (e :: es) = x :: providerOps es := List.filterMap_cons_some h

section
variable {j : Nat} (h : j < (providerOps es).length)
include h

theorem errorAt_append_left (es' : List Event) : errorAt j (es ++ es') = errorAt j es := by
  rw [errorAt, providerOps_append, List.getElem?_append_left h, errorAt]

theorem isRead_append_left (es' : List Event) : IsRead j (es ++ es') ↔ IsRead j es := by
  rw [IsRead, List.filter_append, List.getElem?_append_left (by rwa [length_filter_providerOp]), IsRead]

theorem eventsBefore_append_left (es' : List Event) : eventsBefore j (es ++ es') = eventsBefore j es := by
  induction es generalizing j with
  | nil => exact absurd h (Nat.not_lt_zero j)
  | cons e es ih =>
    rw [List.cons_append]
    cases hop : e.providerOp with
    | none =>
      rw [providerOps_cons_none hop] at h
      rw [eventsBefore_cons_none hop, eventsBefore_cons_none hop, ih h]
    | some x =>
      rw [providerOps_cons_some hop] at h
      cases j with
      | zero => rw [eventsBefore_zero_cons_some hop, eventsBefore_zero_cons_some hop]
      | succ j =>
        rw [eventsBefore_succ_cons_some hop, eventsBefore_succ_cons_some hop, ih (Nat.lt_of_succ_lt_succ h)]

theorem FirstFailure.append_left {l : List Bool} {r : List (List Char)} (hf : FirstFailure s (es ++ es') j l r) :
    FirstFailure s es j l r := by
  rwa [FirstFailure, eventsBefore_append_left h, isRead_append_left h] at hf

end

theorem errorAt_append_right (k : Nat) (es es' : List Event) :
    errorAt ((providerOps es).length + k) (es ++ es') = errorAt k es' := by
  rw [errorAt, providerOps_append, List.getElem?_append_right (Nat.le_add_right _ k), Nat.add_sub_cancel_left, errorAt]

theorem isRead_append_right (k : Nat) (es es' : List Event) :
    IsRead ((providerOps es).length + k) (es ++ es') ↔ IsRead k es' := by
  rw [IsRead, List.filter_append, ← length_filter_providerOp, List.getElem?_append_right (Nat.le_add_right _ k),
    Nat.add_sub_cancel_left, IsRead]

theorem eventsBefore_append_right (k : Nat) (es es' : List Event) :
    eventsBefore ((providerOps es).length + k) (es ++ es') = es ++ eventsBefore k es' := by
  induction es with
  | nil => rw [List.nil_append, List.nil_append]; simp [providerOps]
  | cons e es ih =>
    rw [List.cons_append, List.cons_append, ← ih]
    cases hop : e.providerOp with
    | none => rw [providerOps_cons_none hop, eventsBefore_cons_none hop]
    | some x =>
      rw [providerOps_cons_some hop, List.length_cons, Nat.add_right_comm, eventsBefore_succ_cons_some hop]

/-- A failure in the second part: the first part is served, and the failure is the first of the second part, from the
state that the first part leaves. -/
theorem FirstFailure.append_right {k : Nat} {l : List Bool} {r : List (List Char)}
    (hf : FirstFailure s (es ++ es') ((providerOps es).length + k) l r) :
    ∃ l' r', Serves s (providerOps es).length l' ∧ Presents s (readBits es) r' ∧
      FirstFailure (s.afterEvents es l' r') es' k l r := by
  rw [FirstFailure, eventsBefore_append_right, isRead_append_right, readBits_append] at hf
  rcases hf with ⟨hfails, hreads⟩ | ⟨hread, hserves, t, h0, h1, hreads⟩
  · rw [FailsAt, replicate_add_append] at hfails
    rw [Presents, List.map_append, List.append_assoc] at hreads
    exact ⟨_, _, hfails, hreads, .inl ⟨rfl, rfl⟩⟩
  · rw [Serves, Nat.add_assoc, replicate_add_append] at hserves
    rw [Presents, List.map_append, List.append_assoc] at hreads
    exact ⟨_, _, hserves, hreads, .inr ⟨hread, rfl, t, h0, h1, rfl⟩⟩

/-! ## Operations that perform their events -/

/-- R67, R111: from `s`, the operation performs the events and returns `a` when the provider serves it and the target
presents the bits that it reads; where the first of its provider operations fails, it stops there with that operation's
error, and the events before it have happened. -/
structure Performs (x : Op α) (s : State) (a : α) (es : List Event) : Prop where
  served : ∀ l r, Serves s (providerOps es).length l → Presents s (readBits es) r →
    x.run s = .ok a (s.afterEvents es l r)
  stopped : ∀ j e l r, errorAt j es = some e → FirstFailure s es j l r →
    x.run s = .error e (s.afterEvents (eventsBefore j es) l r)

/-- The second operation need perform its events only from the states that the first one leaves. -/
theorem performs_bind {x : Op α} {f : α → Op β} (hx : Performs x s a es)
    (hf : ∀ t, x.run s = .ok a t → Performs (f a) t b es') : Performs (x >>= f) s b (es ++ es') where
  served l r hl hr := by
    rw [providerOps_append, List.length_append, Serves, replicate_add_append] at hl
    rw [readBits_append, Presents, List.map_append, List.append_assoc] at hr
    have hrun := hx.served _ _ hl hr
    rw [op_bind_ok hrun, (hf _ hrun).served l r rfl rfl, State.afterEvents_afterEvents]
  stopped j e l r he hfail := by
    by_cases hj : j < (providerOps es).length
    · rw [errorAt_append_left hj] at he
      rw [op_bind_error (hx.stopped j e l r he (hfail.append_left hj)), eventsBefore_append_left hj]
    · obtain ⟨k, rfl⟩ := Nat.exists_eq_add_of_le (Nat.not_lt.1 hj)
      rw [errorAt_append_right] at he
      obtain ⟨l', r', hl, hr, hfail⟩ := hfail.append_right
      have hrun := hx.served l' r' hl hr
      rw [op_bind_ok hrun, (hf _ hrun).stopped k e l r he hfail, State.afterEvents_afterEvents,
        eventsBefore_append_right]

theorem errorAt_of_no_provider (h : providerOps es = []) (j : Nat) : errorAt j es = none := by simp [errorAt, h]

theorem State.afterEvents_nil (s : State) (l : List Bool) (r : List (List Char)) :
    s.afterEvents [] l r = (s.withFails l).withReads r := by
  simp [State.afterEvents, State.withFails, State.withReads]

theorem performs_pure (a : α) (s : State) : Performs (pure a) s a [] where
  served l r hl hr := by
    obtain rfl : s.env.fails = l := hl
    obtain rfl : s.env.reads = r := hr
    rw [State.afterEvents_nil]
    rfl
  stopped j e l r he := by simp [errorAt_of_no_provider (es := []) rfl] at he

theorem performs_hold (d : Delay) (s : State) : Performs (emit (.hold d)) s ⟨⟩ [.hold d] where
  served l r hl hr := by
    obtain rfl : s.env.reads = r := hr
    exact emits_hold d s l hl
  stopped j e l r he := by simp [errorAt_of_no_provider (es := [.hold d]) rfl] at he

theorem performs_pinWrite {p : Pin} {v : Int} {b : Bit} (hv : pinValueBit v = some b) (h : (s.pin p).acquired = true)
    (hd : (s.pin p).dir = .output) : Performs (pinWrite p v) s ⟨⟩ [.wr p b] where
  served l r hl hr := by
    obtain rfl : s.env.reads = r := hr
    exact emits_pinWrite hv h hd l hl
  stopped j e l r he hfail := by
    obtain ⟨rfl, rfl⟩ : j = 0 ∧ .hardwareUnavailable p .value = e := by
      cases j <;> simp_all [errorAt, providerOps, Event.providerOp]
    rcases hfail with ⟨hfails, hreads⟩ | ⟨hread, _⟩
    · obtain rfl : s.env.reads = r := hreads
      rw [pinWrite_failed hv h hd hfails, eventsBefore_zero_cons_some (e := .wr p b) rfl, State.afterEvents_nil]
      rfl
    · simp [IsRead, Event.providerOp] at hread

theorem performs_noValue {x : Op Unit} (h : Performs x s ⟨⟩ es) : Performs (noValue x) s .unit es where
  served l r hl hr := noValue_ok (h.served l r hl hr)
  stopped j e l r he hfail := noValue_error (h.stopped j e l r he hfail)

/-- R87: outside the states that admit it, an invocation is refused. -/
theorem invoke_not_admitted {c : OpClass} {body : Op Value} (h : admits c s.state = false) :
    invoke c none body s = .next (s.refuse .stateNotAdmitted) := by
  simp [invoke, guarded, h]

/-- R111: an admitted invocation whose body performs the events takes the abort path from where they stop. -/
theorem Performs.failsPrecisely {i : Instr} {c : OpClass} {body : Op Value} {v : Value}
    (hexec : exec i s = invoke c none body s) (ha : admits c s.state = true) (h : Performs body s v es) :
    FailsPrecisely i s es s.state := fun j e l r he hfail => by
  rw [hexec, invoke_error ha (h.stopped j e l r he hfail)]
  rfl

/-! ## Transport (R71, R50) -/

/-- R71: both lines of the bus are outputs. -/
def BusDriven (s : State) : Prop :=
  ∀ p ∈ [Pin.clk, Pin.dat], (s.pin p).acquired = true ∧ (s.pin p).dir = .output

theorem SendReady.busDriven (h : SendReady s) : BusDriven s := by
  obtain ⟨hclk, hacq, hout⟩ := h
  simp [BusDriven, hclk, drivenLow, hacq, hout]

theorem BusDriven.emit (h : BusDriven s) (e : Event) : BusDriven (s.emit e) := by simpa [BusDriven] using h

theorem BusDriven.pinWrite {t : State} {p : Pin} {v : Int} (h : BusDriven s)
    (hw : (pinWrite p v).run s = .ok ⟨⟩ t) : BusDriven t := by
  obtain ⟨b, _, _, _, hpins⟩ := pinWrite_returns hw
  intro q hq
  rw [State.pin_eq, hpins, PinTable.get_set]
  split
  · exact ⟨rfl, rfl⟩
  · rw [← State.pin_eq]; exact h q hq

theorem performs_pinWrite_bus {p : Pin} (hp : p ∈ [Pin.clk, Pin.dat]) {v : Int} {b : Bit} (hv : pinValueBit v = some b)
    (h : BusDriven s) : Performs (pinWrite p v) s ⟨⟩ [.wr p b] :=
  performs_pinWrite hv (h p hp).1 (h p hp).2

theorem performs_sendBits (h : BusDriven s) (n v : Nat) : Performs (sendBits n v) s ⟨⟩ (sendEvents v n) := by
  induction n generalizing s v with
  | zero => exact performs_pure PUnit.unit s
  | succ n ih =>
    have hevents : sendEvents v (n + 1) = [.wr .dat (v.testBit 0)] ++ ([.wr .clk true] ++ ([.hold .tHalf] ++
        ([.wr .clk false] ++ ([.hold .tHalf] ++ sendEvents (v >>> 1) n)))) := sendEvents_succ v n
    rw [hevents]
    refine performs_bind (performs_pinWrite_bus (p := .dat) (by decide) (pinValueBit_and_one v) h) fun t ht => ?_
    have h := h.pinWrite ht
    refine performs_bind (performs_pinWrite_bus (p := .clk) (by decide) (pinValueBit_bit true) h) fun t ht => ?_
    have h := (h.pinWrite ht).emit (.hold .tHalf)
    refine performs_bind (performs_hold .tHalf t) fun _ ht => ?_
    cases ht
    refine performs_bind (performs_pinWrite_bus (p := .clk) (by decide) (pinValueBit_bit false) h) fun t ht => ?_
    have h := (h.pinWrite ht).emit (.hold .tHalf)
    refine performs_bind (performs_hold .tHalf t) fun _ ht => ?_
    cases ht
    exact ih h _

/-- R71: the preconditions of `SEND`. -/
theorem busSend_clock {v n : Nat} (h : s.pin .clk ≠ drivenLow) :
    (busSend v n).run s = .error (.preconditionViolation .clk .sendClockNotLowOutput) s := by
  rw [busSend, op_bind_ok (op_get s), if_neg (mt PinRec.lowOutput_iff.1 h), op_throw]

theorem busSend_data {v n : Nat} (hclk : s.pin .clk = drivenLow)
    (h : ¬((s.pin .dat).acquired = true ∧ (s.pin .dat).dir = .output)) :
    (busSend v n).run s = .error (.preconditionViolation .dat .sendDataNotOutput) s := by
  rw [busSend, op_bind_ok (op_get s), if_pos (PinRec.lowOutput_iff.2 hclk), if_neg (mt PinRec.isOutput_iff.1 h), op_throw]

theorem busSend_ready {v n : Nat} (h : SendReady s) : (busSend v n).run s = (sendBits n v).run s := by
  obtain ⟨hclk, hdat⟩ := h
  rw [busSend, op_bind_ok (op_get s), if_pos (PinRec.lowOutput_iff.2 hclk), if_pos (PinRec.isOutput_iff.2 hdat)]

theorem performs_busSend (h : SendReady s) (v n : Nat) : Performs (busSend v n) s ⟨⟩ (sendEvents v n) where
  served l r hl hr := by rw [busSend_ready h, (performs_sendBits h.busDriven n v).served l r hl hr]
  stopped j e l r he hfail := by rw [busSend_ready h, (performs_sendBits h.busDriven n v).stopped j e l r he hfail]

theorem performs_sendKey (h : SendReady s) : Performs sendKey s ⟨⟩ keyEvents := by
  unfold sendKey
  rw [reverseBits_key]
  exact performs_bind (performs_busSend h _ _) fun t ht => performs_busSend (busSend_returns ht).1 _ _

theorem sendKey_clock (h : s.pin .clk ≠ drivenLow) :
    sendKey.run s = .error (.preconditionViolation .clk .sendClockNotLowOutput) s :=
  op_bind_error (busSend_clock h)

theorem sendKey_data (hclk : s.pin .clk = drivenLow) (h : ¬((s.pin .dat).acquired = true ∧ (s.pin .dat).dir = .output)) :
    sendKey.run s = .error (.preconditionViolation .dat .sendDataNotOutput) s :=
  op_bind_error (busSend_data hclk h)

/-! ## The frame of format K, invoked alone (R50, log 6) -/

/-- Settles O23: the preconditions are those of the first `SEND`, and the events are those of both. -/
theorem keyFrameSendsThirtyThreeBits : Obligations.KeyFrameSendsThirtyThreeBits := by
  intro s l
  refine ⟨fun hs => ?_, fun hs hclk => ?_, fun hs hclk hdat => ?_, fun hs hready hl => ?_, fun hs hready => ?_⟩
  · rw [exec_lvpKey, invoke_not_admitted (by rw [hs]; rfl)]
    rfl
  · rw [exec_lvpKey, invoke_error (admits_line hs) (noValue_error (sendKey_clock hclk))]
  · rw [exec_lvpKey, invoke_error (admits_line hs) (noValue_error (sendKey_data hclk hdat))]
  · obtain ⟨hclk, hacq, hout⟩ := hready
    have hrun := sendKey_lines (s := s) (evs := []) (l := l) (r := s.env.reads) hclk hacq hout
    rw [← hl.afterLines] at hrun
    rw [exec_lvpKey, invoke_ok (admits_line hs) (noValue_ok hrun)]
    simp [State.afterLines, State.addResult, keyEvents, PinRec.withLevel]
  · exact (performs_noValue (performs_sendKey hready)).failsPrecisely (exec_lvpKey s) (admits_line hs)

end Sys2Proof.Machine
end

section
/-! PROOFS. The wire view of the commands (spec/30_encoding.md R47 to R49, spec/41_bit_transport.md R73): what each field of
a frame puts on the wire, and that a served command emits the events planned for it. -/

namespace Sys2Proof.Machine

variable {s : State} {i : Instr} {l : List Bool} {r : List (List Char)}

/-! ## Fields on the wire -/

theorem map_testBit_eq_drivenField (v n : Nat) : (List.range n).map (fun k => some (v.testBit k)) = drivenField n v := by
  refine List.ext_getElem? fun j => ?_
  rw [drivenField, List.getElem?_map, List.getElem?_map, bitsOf_getElem?]
  by_cases hj : j < n
  · simp [hj]
  · simp [hj]

/-- R33, R73: a send puts its field on the wire, and the rest of the trace is read from a low clock. -/
theorem wireBits_sendEvents_append (dat : Option Bit) (v n : Nat) (es : List Event) :
    wireBits (some false) dat (sendEvents v n ++ es) =
      drivenField n v ++ wireBits (some false) ((sendEvents v n).foldl (levelAfter .dat) dat) es := by
  rw [wireBits_append, wireBits_sendEvents, map_testBit_eq_drivenField, clkLevel_sendEvents]

/-- R72, R49: while `DAT` is an input, a received bit is none that the engine drives. -/
theorem wireBits_recvEvents_append (bs : List Bit) (es : List Event) :
    wireBits (some false) none (recvEvents bs ++ es) =
      List.replicate bs.length none ++ wireBits (some false) none es := by
  induction bs with
  | nil => rfl
  | cons b bs ih =>
    have hcons : recvEvents (b :: bs) ++ es = recvSlot b ++ (recvEvents bs ++ es) := by simp [recvEvents]
    have hslot : ∀ es, wireBits (some false) none (recvSlot b ++ es) = none :: wireBits (some false) none es := by
      intro es
      simp [recvSlot, wireBits, levelAfter]
    rw [hcons, hslot, ih, List.length_cons, List.replicate_succ, List.cons_append]

/-- An event that leaves the clock as it is puts no bit on the wire. -/
theorem wireBits_of_clock_kept {clk : Option Bit} {e : Event} (h : levelAfter .clk clk e = clk) (dat : Option Bit)
    (es : List Event) : wireBits clk dat (e :: es) = wireBits clk (levelAfter .dat dat e) es := by
  have hfall : ¬(clk = some true ∧ clk = some false) := by rintro ⟨rfl, h⟩; cases h
  rw [wireBits, h, if_neg hfall, List.nil_append]

theorem wireBits_hold (clk dat : Option Bit) (d : Delay) (es : List Event) :
    wireBits clk dat (.hold d :: es) = wireBits clk dat es := wireBits_of_clock_kept rfl dat es

theorem wireBits_dir_dat (clk dat : Option Bit) (d : DirWord) (es : List Event) :
    wireBits clk dat (.dir .dat d :: es) = wireBits clk (PinRec.reset.withDir d).level es :=
  wireBits_of_clock_kept rfl dat es

/-! ## Commands on the wire -/

theorem wireBits_controlEvents (dat : Option Bit) (op : Nat) (d : Delay) :
    wireBits (some false) dat (controlEvents op d) = drivenField 6 op := by
  rw [controlEvents, wireBits_sendEvents_append, wireBits_hold, wireBits, List.append_nil]

theorem wireBits_writeEvents (dat : Option Bit) (op d : Nat) :
    wireBits (some false) dat (writeEvents op d) = drivenField 6 op ++ drivenField 16 (2 * d) := by
  simp only [writeEvents, List.append_assoc, List.cons_append, List.nil_append]
  rw [wireBits_sendEvents_append, wireBits_hold, wireBits_sendEvents_append, wireBits_hold, wireBits, List.append_nil]

theorem wireBits_readEvents (dat : Option Bit) (bs : List Bit) :
    wireBits (some false) dat (readEvents bs) = drivenField 6 0x04 ++ List.replicate bs.length none := by
  simp only [readEvents, List.append_assoc, List.cons_append, List.nil_append]
  rw [wireBits_sendEvents_append, wireBits_hold, wireBits_dir_dat, PinRec.withDir, PinRec.reset,
    wireBits_recvEvents_append, wireBits_dir_dat, wireBits_hold, wireBits, List.append_nil]

/-! ## Served commands -/

theorem providerOps_controlEvents_length (op : Nat) (d : Delay) : (providerOps (controlEvents op d)).length = 18 := by
  rw [controlEvents, providerOps_append, List.length_append, providerOps_sendEvents_length]
  rfl

theorem providerOps_writeEvents_length (op d : Nat) : (providerOps (writeEvents op d)).length = 66 := by
  simp only [writeEvents, providerOps_append, List.length_append, providerOps_sendEvents_length]
  rfl

theorem providerOps_recvEvents_length (bs : List Bit) : (providerOps (recvEvents bs)).length = 3 * bs.length := by
  induction bs with
  | nil => rfl
  | cons b bs ih =>
    have hcons : recvEvents (b :: bs) = recvSlot b ++ recvEvents bs := by simp [recvEvents]
    have hslot : (providerOps (recvSlot b)).length = 3 := rfl
    rw [hcons, providerOps_append, List.length_append, ih, hslot, List.length_cons]
    omega

theorem providerOps_readEvents_length {bs : List Bit} (hb : bs.length = 16) :
    (providerOps (readEvents bs)).length = 68 := by
  simp only [readEvents, providerOps_append, List.length_append, providerOps_sendEvents_length,
    providerOps_recvEvents_length, hb]
  rfl

/-- A command whose body returns, with these events in the trace, is invoked with these events. -/
theorem invoke_command_trace {body : Op Value} {v : Value} {u : State} {es : List Event} (hp : Programming s)
    (hrun : body.run s = .ok v u) (htrace : u.trace = s.trace ++ es) :
    ∃ t, invoke .command none body s = .next t ∧ t.trace = s.trace ++ es :=
  ⟨_, invoke_ok hp.admits hrun, htrace⟩

section
variable (hp : Programming s) (hready : SendReady s)
include hp hready

theorem controlCommand_trace {op : Nat} {d : Delay} (hl : Serves s (providerOps (controlEvents op d)).length l) :
    ∃ t, invoke .command none (noValue (controlCommand op d)) s = .next t ∧ t.trace = s.trace ++ controlEvents op d := by
  obtain ⟨hclk, hacq, hout⟩ := hready
  rw [providerOps_controlEvents_length] at hl
  have hrun := controlCommand_lines (evs := []) (op := op) (t := d) (l := l) (r := s.env.reads) hp hclk hacq hout
  rw [← hl.afterLines] at hrun
  exact invoke_command_trace hp (noValue_ok hrun) rfl

theorem writeCommand_trace {op d : Nat} (hd : dataInRange d = true)
    (hl : Serves s (providerOps (writeEvents op d)).length l) :
    ∃ t, invoke .command (dataRefusal d) (noValue (writeCommand op d)) s = .next t ∧
      t.trace = s.trace ++ writeEvents op d := by
  obtain ⟨hclk, hacq, hout⟩ := hready
  rw [providerOps_writeEvents_length] at hl
  have hrun := writeCommand_lines (evs := []) (op := op) (d := d) (l := l) (r := s.env.reads) hp hclk hacq hout
  rw [← hl.afterLines] at hrun
  rw [dataRefusal, if_pos hd]
  exact invoke_command_trace hp (noValue_ok hrun) rfl

theorem readCommand_trace {bs : List Bit} (hb : bs.length = 16) (hl : Serves s (providerOps (readEvents bs)).length l)
    (hr : Presents s bs r) :
    ∃ t, invoke .command none (readCommand 0x04 >>= fun w => pure (.word w)) s = .next t ∧
      t.trace = s.trace ++ readEvents bs := by
  obtain ⟨hclk, hacq, hout⟩ := hready
  rw [providerOps_readEvents_length hb] at hl
  have hrun := readCommand_lines (evs := []) (l := l) (r := r) hb hp hclk hacq hout
  rw [← hr, ← hl.afterLines] at hrun
  exact invoke_command_trace hp (op_bind_ok hrun) rfl

/-- R76: a served command emits the events planned for it. -/
theorem exec_command_trace {bs : List Bit} (hi : isCommand i = true) (hwf : i.wf = true) (hb : bs.length = 16)
    (hl : Serves s (providerOps (plannedEvents s bs i)).length l) (hr : Presents s bs r) :
    ∃ t, exec i s = .next t ∧ t.trace = s.trace ++ plannedEvents s bs i := by
  cases i with
  | loadConfig d => exact writeCommand_trace hp hready hwf hl
  | loadData d => exact writeCommand_trace hp hready hwf hl
  | readData => exact readCommand_trace hp hready hb hl hr
  | incAddr | resetAddr | beginProg | bulkErase | rowErase => exact controlCommand_trace hp hready hl
  | _ => cases hi

end

/-- R47 to R49: on the wire, the planned events of a command are its frame. -/
theorem wireBits_plannedEvents {bs : List Bit} (hi : isCommand i = true) (hb : bs.length = 16) (s : State)
    (dat : Option Bit) : wireBits (some false) dat (plannedEvents s bs i) = wireFrame i := by
  cases i with
  | loadConfig d => exact wireBits_writeEvents dat 0x00 d
  | loadData d => exact wireBits_writeEvents dat 0x02 d
  | readData => rw [plannedEvents, wireBits_readEvents, hb, wireFrame]
  | incAddr | resetAddr | beginProg | bulkErase | rowErase => exact wireBits_controlEvents dat _ _
  | _ => cases hi

/-- Settles O24: a served command emits its planned events, and these put its frame on the wire. -/
theorem commandWireBits : Obligations.CommandWireBits := by
  intro i s bs l r hi hwf hp hready hb hl hr
  obtain ⟨t, hexec, htrace⟩ := exec_command_trace hp hready hi hwf hb hl hr
  exact ⟨t, _, hexec, htrace, wireBits_plannedEvents hi hb s _⟩

end Sys2Proof.Machine
end

section
/-! PROOFS. The pin primitives, invoked by the host (spec/40_gpio_pins.md R61 to R66): the lazy acquire said once, then
what each primitive does on the acquired pin. -/

namespace Sys2Proof.Machine

variable {α : Type} {s t : State} {p : Pin} {l : List Bool}

/-! ## Invocations in a live session -/

/-- R87: a primitive is admitted in every live state, and its result has no value. -/
theorem invoke_line_ok {x : Op Unit} (hs : s.state ≠ .exited) (h : x.run s = .ok ⟨⟩ t) :
    invoke .line none (noValue x) s = .next (t.addResult (.ok .unit)) :=
  invoke_ok (admits_line hs) (noValue_ok h)

theorem invoke_line_error {x : Op Unit} {e : OpError} (hs : s.state ≠ .exited) (h : x.run s = .error e t) :
    invoke .line none (noValue x) s = .next (abort e t) :=
  invoke_error (admits_line hs) (noValue_error h)

theorem exec_setDir_word (p : Pin) (d : DirWord) (s : State) :
    exec (.setDir p (.word d)) s = invoke .line none (noValue (pinSetDir p d)) s := rfl

/-! ## The lazy acquire (R61) -/

@[simp] theorem State.claimed_env (s : State) (p : Pin) : (s.claimed p).env = s.env := by
  unfold State.claimed; split <;> rfl

@[simp] theorem State.claimed_results (s : State) (p : Pin) : (s.claimed p).results = s.results := by
  unfold State.claimed; split <;> rfl

@[simp] theorem State.claimed_pin_acquired (s : State) (p : Pin) : ((s.claimed p).pin p).acquired = true := by
  cases h : (s.pin p).acquired with
  | true => rwa [State.claimed_of_acquired h]
  | false => rw [State.claimed_pin_of_not_acquired h]; rfl

theorem serves_succ {n : Nat} : Serves s (n + 1) l ↔ Serves s n (false :: l) := by
  rw [Serves, Serves, List.replicate_succ', List.append_assoc, List.singleton_append]

theorem pinAcquire_claims (h : Serves s (claimEvents s p).length l) :
    (pinAcquire p).run s = .ok ⟨⟩ ((s.claimed p).withFails l) := by
  cases ha : (s.pin p).acquired with
  | true =>
    rw [claimEvents_of_acquired ha] at h
    obtain rfl : s.env.fails = l := h
    rw [pinAcquire_held ha, State.claimed_of_acquired ha]
    rfl
  | false =>
    rw [claimEvents_of_not_acquired ha] at h
    rw [pinAcquire_served ha h, State.claimed, if_neg (by simp [ha])]
    cases p <;> rfl

/-- After a served acquire, an operation that begins with it runs as from the acquired pin. -/
theorem acquire_bind_claims {f : Unit → Op α} (h : Serves s (claimEvents s p).length l) :
    (pinAcquire p >>= f).run s = (pinAcquire p >>= f).run ((s.claimed p).withFails l) := by
  rw [op_bind_ok (pinAcquire_claims h), op_bind_ok (pinAcquire_held (by simp))]

theorem acquire_bind_failed {f : Unit → Op α} (ha : (s.pin p).acquired = false) (h : FailsAt s 0 l) :
    (pinAcquire p >>= f).run s = .error (.hardwareUnavailable p .claim) (s.withFails l) :=
  op_bind_error (pinAcquire_failed ha h)

/-! ## The errors of `WRITE` and `READ` on an acquired pin (R63, R64) -/

theorem pinWrite_invalid {v : Int} (h : (s.pin p).acquired = true) (hv : pinValueBit v = none) :
    (pinWrite p v).run s = .error (.invalidPinValue v) s := by
  unfold pinWrite
  rw [op_bind_ok (pinAcquire_held h)]
  simp only [hv, op_throw]

theorem pinWrite_input {v : Int} {b : Bit} (hv : pinValueBit v = some b) (h : (s.pin p).acquired = true)
    (hd : (s.pin p).dir = .input) : (pinWrite p v).run s = .error (.preconditionViolation p .writeToInput) s := by
  unfold pinWrite
  rw [op_bind_ok (pinAcquire_held h)]
  simp only [hv]
  rw [op_bind_ok (op_get s), if_pos hd, op_throw]

theorem pinRead_output (h : (s.pin p).acquired = true) (hd : (s.pin p).dir = .output) :
    (pinRead p).run s = .error (.preconditionViolation p .readOfOutput) s := by
  unfold pinRead
  rw [op_bind_ok (pinAcquire_held h), op_bind_ok (op_get s), if_pos hd, op_throw]

theorem pinValueBit_none {v : Int} (h0 : v ≠ 0) (h1 : v ≠ 1) : pinValueBit v = none := by
  rw [pinValueBit, if_neg h0, if_neg h1]

/-! ## The states that the primitives leave -/

/-- R11, R62, R63: one event, and one record changed. -/
theorem State.emit_setPin (s : State) (e : Event) (p : Pin) (r : PinRec) :
    (s.emit e).setPin p r = { s with trace := s.trace ++ [e], pins := s.pins.set p r } := by
  cases p <;> rfl

@[simp] theorem State.withFails_withFails (s : State) (l l' : List Bool) :
    (s.withFails l').withFails l = s.withFails l := rfl

theorem State.claimed_withFails (s : State) (p : Pin) (l : List Bool) :
    (s.claimed p).withFails l = { s.claimed p with env := { s.env with fails := l } } := by
  rw [State.withFails, State.claimed_env]

/-- What a primitive leaves that is served on the claimed pin: one event, one record changed, a result of no value. -/
theorem State.claimed_step (s : State) (p : Pin) (l : List Bool) (e : Event) (r : PinRec) :
    ((((s.claimed p).withFails l).emit e).setPin p r).addResult (.ok .unit) =
      { s.claimed p with
        trace := (s.claimed p).trace ++ [e]
        pins := (s.claimed p).pins.set p r
        env := { s.env with fails := l }
        results := s.results ++ [.ok .unit] } := by
  rw [State.claimed_withFails, State.emit_setPin, State.addResult, State.claimed_results]

/-! ## The primitives -/

/-- Settles O10: the acquire draws nothing on an acquired pin, else it is one provider operation. -/
theorem acquireClaimsThePin : Obligations.AcquireClaimsThePin := by
  intro p s l hs
  rw [exec_acquire]
  refine ⟨fun ha => ?_, fun ha hl => ?_, fun ha hl => ?_⟩
  · exact invoke_line_ok hs (pinAcquire_held ha)
  · rw [invoke_line_ok hs (pinAcquire_served ha hl)]
    cases p <;> rfl
  · exact invoke_line_error hs (pinAcquire_failed ha hl)

theorem PinRec.claimed_withDir (d : DirWord) :
    PinRec.claimed.withDir d =
      match d with
      | .dirIn => { acquired := true, dir := .input, level := none }
      | .dirOut => { acquired := true, dir := .output, level := none }
      | .dirLow => { acquired := true, dir := .output, level := some false }
      | .dirHigh => { acquired := true, dir := .output, level := some true } := by
  cases d <;> rfl

/-- Settles O11: after the lazy acquire, one direction write; another word is refused before it. -/
theorem setDirSetsTheRecord : Obligations.SetDirSetsTheRecord := by
  intro p s l
  refine ⟨fun hs d => ?_, fun text => rfl⟩
  rw [exec_setDir_word]
  refine ⟨fun hl => ?_, fun ha hl => ?_, fun hl => ?_⟩
  · have hrun : (pinSetDir p d).run s = _ :=
      (acquire_bind_claims (serves_succ.1 hl)).trans (pinSetDir_held (d := d) (by simp) rfl)
    rw [invoke_line_ok hs hrun, PinRec.withDir_of_acquired d (by simp), State.withFails_withFails, State.claimed_step]
    cases d <;> rfl
  · exact invoke_line_error hs (acquire_bind_failed ha hl)
  · have hrun : (pinSetDir p d).run s = _ :=
      (acquire_bind_claims hl).trans (pinSetDir_failed (d := d) (by simp) rfl)
    rw [invoke_line_error hs hrun, State.withFails_withFails, State.claimed_withFails]

/-- Settles O12: the checks of the value and of the direction come between the lazy acquire and the value write. -/
theorem writeDrivesTheLevel : Obligations.WriteDrivesTheLevel := by
  intro p v s l hs
  rw [exec_write]
  refine ⟨fun ha hl => ?_, fun h0 h1 hl => ?_, fun hv hd hl => ?_, fun b hv hd => ⟨fun hl => ?_, fun hl => ?_⟩⟩
  · exact invoke_line_error hs (acquire_bind_failed ha hl)
  · have hrun : (pinWrite p v).run s = _ :=
      (acquire_bind_claims hl).trans (pinWrite_invalid (by simp) (pinValueBit_none h0 h1))
    rw [invoke_line_error hs hrun, State.claimed_withFails]
  · obtain ⟨b, hb⟩ : ∃ b, pinValueBit v = some b := by rcases hv with rfl | rfl <;> exact ⟨_, rfl⟩
    have hrun : (pinWrite p v).run s = _ :=
      (acquire_bind_claims hl).trans (pinWrite_input hb (by simp) (by simpa using hd))
    rw [invoke_line_error hs hrun, State.claimed_withFails]
  · have hb : pinValueBit v = some b := by rw [hv]; exact pinValueBit_bit b
    have hrun : (pinWrite p v).run s = _ :=
      (acquire_bind_claims hl).trans (pinWrite_failed hb (by simp) (by simpa using hd) rfl)
    rw [invoke_line_error hs hrun, State.withFails_withFails, State.claimed_withFails]
  · have hb : pinValueBit v = some b := by rw [hv]; exact pinValueBit_bit b
    have hrun : (pinWrite p v).run s = _ :=
      (acquire_bind_claims (serves_succ.1 hl)).trans (pinWrite_held hb (by simp) (by simpa using hd) rfl)
    rw [invoke_line_ok hs hrun, PinRec.withLevel_of_output b (by simp) (by simpa using hd), State.withFails_withFails,
      State.claimed_step]
    rfl

theorem readBody_ok {b : Bit} (h : (pinRead p).run s = .ok b t) :
    (pinRead p >>= fun b => pure (.bit b)).run s = .ok (Value.bit b) t :=
  op_bind_ok h

/-- Settles O13: the check of the direction comes before the value read, and a content that is no bit fails the read. -/
theorem readSamplesTheLine : Obligations.ReadSamplesTheLine := by
  intro p s l hs
  rw [exec_read]
  refine ⟨fun ha hl => ?_, fun hd hl => ?_, fun hd hl => ?_, fun hd hl => ⟨fun b r hr => ?_, fun c r hr h0 h1 => ?_⟩⟩
  · exact invoke_error (admits_line hs) (op_bind_error (acquire_bind_failed ha hl))
  · have hrun : (pinRead p).run s = _ :=
      (acquire_bind_claims hl).trans (pinRead_output (by simp) (by simpa using hd))
    rw [invoke_error (admits_line hs) (op_bind_error hrun), State.claimed_withFails]
  · have hrun : (pinRead p).run s = _ :=
      (acquire_bind_claims hl).trans (pinRead_failed (by simp) (by simpa using hd) rfl)
    rw [invoke_error (admits_line hs) (op_bind_error hrun), State.withFails_withFails, State.claimed_withFails]
  · have hbit : s.env.reads = bitContent b :: r := by rw [hr]; cases b <;> rfl
    have hrun : (pinRead p).run s = _ :=
      (acquire_bind_claims (serves_succ.1 hl)).trans
        (pinRead_held (by simp) (by simpa using hd) rfl (by simpa using hbit))
    rw [invoke_ok (admits_line hs) (readBody_ok hrun), State.withFails_withFails, State.claimed_withFails]
    simp only [State.withReads, State.emit, State.addResult, State.claimed_results]
  · have hrun : (pinRead p).run s = _ :=
      (acquire_bind_claims (serves_succ.1 hl)).trans
        (pinRead_bad (by simp) (by simpa using hd) rfl (by simpa using hr) (contentBit_none h0 h1))
    rw [invoke_error (admits_line hs) (op_bind_error hrun), State.withFails_withFails, State.claimed_withFails]
    rfl

/-- Settles O14: the release draws nothing on a pin that is not acquired, else it is one provider operation. -/
theorem releaseReturnsThePin : Obligations.ReleaseReturnsThePin := by
  intro p s l hs
  rw [exec_release]
  refine ⟨fun ha => ?_, fun ha hl => ?_, fun ha hl => ?_⟩
  · exact invoke_line_ok hs (pinRelease_unheld ha)
  · rw [invoke_line_ok hs (pinRelease_held ha hl), State.emit_setPin]
    rfl
  · exact invoke_line_error hs (pinRelease_failed ha hl)

/-- R66: what `ENSURE_OUT_WRITE` does on an acquired pin, by its direction. -/
theorem pinEnsureOutWrite_held {b : Bit} (h : (s.pin p).acquired = true) (hf : s.env.fails = false :: l) :
    (pinEnsureOutWrite p b).run s =
      .ok ⟨⟩ (((s.withFails l).emit (driveEvent s p b)).setPin p (PinRec.driving b)) := by
  cases hd : (s.pin p).dir with
  | input =>
    rw [pinEnsureOutWrite_input h hd, pinSetDir_held h hf, driveEvent, if_pos hd, PinRec.withDir_of_acquired _ h]
    cases b <;> rfl
  | output =>
    rw [pinEnsureOutWrite_output h hd, pinWrite_held (pinValueBit_bit b) h hd hf, driveEvent, if_neg (by simp [hd]),
      PinRec.withLevel_of_output b h hd]

theorem pinEnsureOutWrite_failed {b : Bit} (h : (s.pin p).acquired = true) (hf : s.env.fails = true :: l) :
    (pinEnsureOutWrite p b).run s =
      .error (.hardwareUnavailable p (if (s.pin p).dir = .input then .direction else .value)) (s.withFails l) := by
  cases hd : (s.pin p).dir with
  | input => rw [pinEnsureOutWrite_input h hd, pinSetDir_failed h hf]; rfl
  | output => rw [pinEnsureOutWrite_output h hd, pinWrite_failed (pinValueBit_bit b) h hd hf]; rfl

/-- Settles O15: after the lazy acquire, one provider operation, which the direction selects. -/
theorem ensureOutWriteDrives : Obligations.EnsureOutWriteDrives := by
  intro p b s l hs
  rw [exec_ensureOutWrite]
  refine ⟨fun hl => ?_, fun ha hl => ?_, fun hl => ?_⟩
  · have hrun : (pinEnsureOutWrite p b).run s = _ :=
      (acquire_bind_claims (serves_succ.1 hl)).trans (pinEnsureOutWrite_held (b := b) (by simp) rfl)
    rw [invoke_line_ok hs hrun, State.withFails_withFails, State.claimed_step, driveEvent, State.withFails_pin]
    rfl
  · exact invoke_line_error hs (acquire_bind_failed ha hl)
  · have hrun : (pinEnsureOutWrite p b).run s = _ :=
      (acquire_bind_claims hl).trans (pinEnsureOutWrite_failed (b := b) (by simp) rfl)
    rw [invoke_line_error hs hrun, State.withFails_pin, State.withFails_withFails, State.claimed_withFails]

end Sys2Proof.Machine
end

section
/-! PROOFS. Where every composite operation stops (spec/40_gpio_pins.md R67, R68; spec/60_exceptions.md R111): the pin
primitives, the receive, the commands and the entry operations perform their events, so that a failure inside one of
them is precise. -/

namespace Sys2Proof.Machine

variable {α β : Type} {s : State} {a : α} {es : List Event}

/-- A hold is no provider operation, so what follows it is all that can fail. -/
theorem performs_hold_bind {d : Delay} {f : Unit → Op α} (h : Performs (f ⟨⟩) (s.emit (.hold d)) a es) :
    Performs (emit (.hold d) >>= f) s a ([Event.hold d] ++ es) :=
  performs_bind (performs_hold d s) fun t ht => by cases ht; exact h

/-! ## One provider operation -/

theorem Performs.congr {x y : Op α} (h : Performs x s a es) (hxy : y.run s = x.run s) : Performs y s a es where
  served l r hl hr := by rw [hxy, h.served l r hl hr]
  stopped j e l r he hfail := by rw [hxy, h.stopped j e l r he hfail]

theorem errorAt_single {e : Event} {x : Pin × ProviderOp} (hop : e.providerOp = some x) {j : Nat} {err : OpError}
    (h : errorAt j [e] = some err) : j = 0 ∧ err = .hardwareUnavailable x.1 x.2 := by
  rw [errorAt, providerOps_cons_some hop] at h
  cases j with
  | zero => exact ⟨rfl, by simpa using h.symm⟩
  | succ j => simp [providerOps] at h

/-- An operation that is one provider operation stops before its event, with both inputs advanced. -/
theorem performs_single {x : Op α} {e : Event} {p : Pin} {op : ProviderOp} (hop : e.providerOp = some (p, op))
    (hserved : ∀ l r, Serves s 1 l → Presents s (readBits [e]) r → x.run s = .ok a (s.afterEvents [e] l r))
    (hfailed : ∀ l r, FirstFailure s [e] 0 l r →
      x.run s = .error (.hardwareUnavailable p op) ((s.withFails l).withReads r)) : Performs x s a [e] where
  served l r hl hr := hserved l r (by rwa [providerOps_cons_some hop] at hl) hr
  stopped j err l r he hfail := by
    obtain ⟨rfl, rfl⟩ := errorAt_single hop he
    rw [hfailed l r hfail, eventsBefore_zero_cons_some hop, State.afterEvents_nil]

/-- The first failure of one operation that reads no value is the provider's. -/
theorem FirstFailure.single_no_read {e : Event} {x : Pin × ProviderOp} (hop : e.providerOp = some x)
    (hread : ∀ p b, e ≠ .rd p b) {l : List Bool} {r : List (List Char)} (h : FirstFailure s [e] 0 l r) :
    s.env.fails = true :: l ∧ s.env.reads = r := by
  rw [FirstFailure, eventsBefore_zero_cons_some hop] at h
  rcases h with ⟨hfails, hreads⟩ | ⟨⟨p, b, hpb⟩, _⟩
  · exact ⟨hfails, hreads⟩
  · exact absurd (by simpa [hop] using hpb) (hread p b)

theorem performs_of_emits {x : Op α} {e : Event} {p : Pin} {op : ProviderOp} (hop : e.providerOp = some (p, op))
    (hread : ∀ p b, e ≠ .rd p b) (hserved : Emits x s a [e])
    (hfailed : ∀ l, s.env.fails = true :: l → x.run s = .error (.hardwareUnavailable p op) (s.withFails l)) :
    Performs x s a [e] := by
  refine performs_single hop (fun l r hl hr => ?_) fun l r hfail => ?_
  · have hbits : readBits [e] = [] := by
      cases e with
      | rd q b => exact absurd rfl (hread q b)
      | _ => rfl
    rw [hbits] at hr
    obtain rfl : s.env.reads = r := hr
    exact hserved l (by rwa [providerOps_cons_some hop])
  · obtain ⟨hfails, rfl⟩ := hfail.single_no_read hop hread
    rw [hfailed l hfails]
    rfl

/-! ## Pin primitives (R61, R62, R64, R66) -/

theorem performs_pinAcquire (s : State) (p : Pin) : Performs (pinAcquire p) s ⟨⟩ (claimEvents s p) := by
  have hemits := emits_pinAcquire s p
  cases ha : (s.pin p).acquired with
  | true =>
    rw [claimEvents_of_acquired ha]
    exact (performs_pure PUnit.unit s).congr (pinAcquire_held ha)
  | false =>
    rw [claimEvents_of_not_acquired ha] at hemits ⊢
    exact performs_of_emits rfl nofun hemits fun l hl => pinAcquire_failed ha hl

/-- An operation that begins with the lazy acquire performs the claim, and then what it performs on the acquired pin. -/
theorem performs_acquire_bind {p : Pin} {f : Unit → Op α}
    (hf : ∀ t, (t.pin p).acquired = true → t.pins = (s.claimed p).pins → Performs (pinAcquire p >>= f) t a es) :
    Performs (pinAcquire p >>= f) s a (claimEvents s p ++ es) :=
  performs_bind (performs_pinAcquire s p) fun t ht =>
    (hf t (pinAcquire_acquires ht) (pinAcquire_returns ht)).congr
      (op_bind_ok (pinAcquire_held (pinAcquire_acquires ht))).symm

theorem performs_pinSetDir_held {p : Pin} (d : DirWord) (h : (s.pin p).acquired = true) :
    Performs (pinSetDir p d) s ⟨⟩ [.dir p d] := by
  have hemits := emits_pinSetDir s p d
  rw [claimEvents_of_acquired h] at hemits
  exact performs_of_emits rfl nofun hemits fun l hl => pinSetDir_failed h hl

theorem performs_pinSetDir (s : State) (p : Pin) (d : DirWord) :
    Performs (pinSetDir p d) s ⟨⟩ (claimEvents s p ++ [Event.dir p d]) :=
  performs_acquire_bind fun _ h _ => performs_pinSetDir_held d h

theorem performs_pinEnsureOutWrite_held {p : Pin} (b : Bit) (h : (s.pin p).acquired = true) :
    Performs (pinEnsureOutWrite p b) s ⟨⟩ [driveEvent s p b] := by
  cases hd : (s.pin p).dir with
  | input =>
    rw [driveEvent, if_pos hd]
    exact (performs_pinSetDir_held _ h).congr (pinEnsureOutWrite_input h hd)
  | output =>
    rw [driveEvent, if_neg (by simp [hd])]
    exact (performs_pinWrite (pinValueBit_bit b) h hd).congr (pinEnsureOutWrite_output h hd)

theorem performs_pinEnsureOutWrite (s : State) (p : Pin) (b : Bit) :
    Performs (pinEnsureOutWrite p b) s ⟨⟩ (claimEvents s p ++ [driveEvent (s.claimed p) p b]) :=
  performs_acquire_bind fun _ h hpins => driveEvent_congr p b hpins ▸ performs_pinEnsureOutWrite_held b h

/-- R68: a content that is no bit fails the read as the provider does. -/
theorem performs_pinRead {p : Pin} (b : Bit) (h : (s.pin p).acquired = true) (hd : (s.pin p).dir = .input) :
    Performs (pinRead p) s b [.rd p b] := by
  refine performs_single rfl (fun l r hl hr => ?_) fun l r hfail => ?_
  · rw [pinRead_held h hd hl hr]
    rfl
  · rcases hfail with ⟨hfails, hreads⟩ | ⟨_, hserves, c, h0, h1, hreads⟩
    · obtain rfl : s.env.reads = r := hreads
      rw [pinRead_failed h hd hfails]
      rfl
    · exact pinRead_bad h hd hserves hreads (contentBit_none h0 h1)

/-! ## Receive (R72) -/

/-- R72: `CLK` is an output and `DAT` an input. -/
def BusSampled (s : State) : Prop :=
  ((s.pin .clk).acquired = true ∧ (s.pin .clk).dir = .output) ∧ (s.pin .dat).acquired = true ∧ (s.pin .dat).dir = .input

theorem BusSampled.congr {t : State} (h : BusSampled s) (hpins : t.pins = s.pins) : BusSampled t := by
  simpa only [BusSampled, State.pin_eq, hpins] using h

theorem BusSampled.pinWrite {t : State} {v : Int} (h : BusSampled s) (hw : (pinWrite .clk v).run s = .ok ⟨⟩ t) :
    BusSampled t := by
  obtain ⟨b, _, _, _, hpins⟩ := pinWrite_returns hw
  simp only [BusSampled, State.pin_eq, hpins]
  exact ⟨⟨rfl, rfl⟩, h.2⟩

theorem BusSampled.pinRead {t : State} {b : Bit} (h : BusSampled s) (hr : (pinRead .dat).run s = .ok b t) :
    BusSampled t :=
  h.congr ((pinRead_returns hr).trans (State.claimed_pins_of_acquired h.2.1))

theorem performs_recvBits (h : BusSampled s) (n acc : Nat) (bs : List Bit) :
    Performs (recvBits n bs.length acc) s (bs.foldl (shiftIn n) acc) (recvEvents bs) := by
  induction bs generalizing s acc with
  | nil => exact performs_pure acc s
  | cons b bs ih =>
    have hevents : recvEvents (b :: bs) = [Event.wr .clk true] ++ ([Event.hold .tHalf] ++ ([Event.rd .dat b] ++
        ([Event.wr .clk false] ++ ([Event.hold .tHalf] ++ recvEvents bs)))) := by simp [recvEvents, recvSlot]
    rw [hevents]
    refine performs_bind (performs_pinWrite (pinValueBit_bit true) h.1.1 h.1.2) fun t ht => ?_
    have h : BusSampled (t.emit (.hold .tHalf)) := (h.pinWrite ht).congr rfl
    refine performs_hold_bind ?_
    refine performs_bind (performs_pinRead b h.2.1 h.2.2) fun t ht => ?_
    have h := h.pinRead ht
    refine performs_bind (performs_pinWrite (pinValueBit_bit false) h.1.1 h.1.2) fun t ht => ?_
    have h : BusSampled (t.emit (.hold .tHalf)) := (h.pinWrite ht).congr rfl
    refine performs_hold_bind ?_
    exact ih h _

theorem PinRec.isInput_iff {r : PinRec} : r.isInput = true ↔ r.acquired = true ∧ r.dir = .input := by
  simp [PinRec.isInput]

theorem performs_busRecv (bs : List Bit) (hclk : s.pin .clk = drivenLow) (hacq : (s.pin .dat).acquired = true)
    (hin : (s.pin .dat).dir = .input) :
    Performs (busRecv bs.length) s (bs.foldl (shiftIn bs.length) 0) (recvEvents bs) := by
  have hbus : BusSampled s := ⟨by simp [hclk, drivenLow], hacq, hin⟩
  refine (performs_recvBits hbus bs.length 0 bs).congr ?_
  rw [busRecv, op_bind_ok (op_get s), if_pos (PinRec.lowOutput_iff.2 hclk), if_pos (PinRec.isInput_iff.2 ⟨hacq, hin⟩)]

/-! ## Where a body stops -/

/-- R111: where the first of the provider operations behind the events fails, the body stops there with that operation's
error; the events before it have happened, the session state is `st`, and nothing else has changed. -/
def StopsPrecisely (x : Op α) (s : State) (es : List Event) (st : SessionState) : Prop :=
  ∀ j e l r, errorAt j es = some e → FirstFailure s es j l r →
    x.run s = .error e { s.afterEvents (eventsBefore j es) l r with state := st }

theorem Performs.stopsPrecisely {x : Op α} (h : Performs x s a es) : StopsPrecisely x s es s.state := h.stopped

theorem StopsPrecisely.bind {x : Op α} {st : SessionState} (h : StopsPrecisely x s es st) (f : α → Op β) :
    StopsPrecisely (x >>= f) s es st :=
  fun j e l r he hfail => op_bind_error (h j e l r he hfail)

/-- An admitted invocation takes the abort path from where its body stops. -/
theorem StopsPrecisely.failsPrecisely {i : Instr} {c : OpClass} {body : Op Value} {st : SessionState}
    (h : StopsPrecisely body s es st) (hexec : exec i s = invoke c none body s) (ha : admits c s.state = true) :
    FailsPrecisely i s es st := fun j e l r he hfail => by rw [hexec, invoke_error ha (h j e l r he hfail)]

theorem failsPrecisely_nil (i : Instr) (s : State) (st : SessionState) : FailsPrecisely i s [] st := by
  intro j e l r he
  simp [errorAt_of_no_provider (es := []) rfl] at he

/-! ## Commands (R76, R91) -/

/-- R52: the payload is the word between two framing bits of 0. -/
theorem writePayloadOf_eq (d : Nat) : writePayloadOf d = 2 * d := by
  rw [writePayloadOf, Nat.shiftLeft_eq, Nat.pow_one, Nat.mul_comm]

section
variable (hp : Programming s)
include hp

/-- R91: a command is in `ProgrammingMode` from its admission on, so that is where it stops. -/
theorem stopsPrecisely_commandAdmit {f : Unit → Op α} (h : Performs (f ⟨⟩) (s.withState .programmingMode) a es) :
    StopsPrecisely (commandAdmit >>= f) s es .programmingMode := fun j e l r he hfail => by
  rw [op_bind_ok (commandAdmit_programming hp), h.stopped j e l r he hfail]
  rfl

variable (hready : SendReady s)
include hready

/-- R76: every command sends its opcode first, and its lines are then ready for the rest. -/
theorem stopsPrecisely_opcode {f : Unit → Op α} {op : Nat} (hf : ∀ t, SendReady t → Performs (f ⟨⟩) t a es) :
    StopsPrecisely (commandAdmit >>= fun _ => busSend op Config.opcodeBits >>= f) s (sendEvents op 6 ++ es)
      .programmingMode :=
  stopsPrecisely_commandAdmit hp
    (performs_bind (performs_busSend (s := s.withState .programmingMode) hready op 6)
      fun t ht => hf t (busSend_returns ht).1)

theorem controlCommand_stopsPrecisely (op : Nat) (d : Delay) :
    StopsPrecisely (controlCommand op d) s (controlEvents op d) .programmingMode :=
  stopsPrecisely_opcode hp hready fun t _ => performs_hold d t

theorem writeCommand_stopsPrecisely (op d : Nat) :
    StopsPrecisely (writeCommand op d) s (writeEvents op d) .programmingMode := by
  have hevents : writeEvents op d =
      sendEvents op 6 ++ ([Event.hold .tCmd] ++ (sendEvents (2 * d) 16 ++ [Event.hold .tCmd])) := by
    simp only [writeEvents, List.append_assoc]
  rw [writeCommand, writePayloadOf_eq, hevents]
  refine stopsPrecisely_opcode (a := PUnit.unit) hp hready fun t ht => performs_hold_bind ?_
  exact performs_bind (performs_busSend (s := t.emit (.hold .tCmd)) ht (2 * d) 16) fun u _ => performs_hold .tCmd u

/-- R80: `DAT` is an input for the receive, and `CLK` is low again after it. -/
theorem readCommand_stopsPrecisely {bs : List Bit} (hb : bs.length = 16) :
    StopsPrecisely (readCommand 0x04) s (readEvents bs) .programmingMode := by
  have hevents : readEvents bs = sendEvents 0x04 6 ++ ([Event.hold .tCmd] ++ ([Event.dir .dat .dirIn] ++
      (recvEvents bs ++ ([Event.dir .dat .dirOut] ++ ([Event.hold .tCmd] ++ []))))) := by
    simp only [readEvents, List.append_assoc, List.cons_append, List.nil_append]
  rw [readCommand, hevents, show Config.payloadBits = bs.length from hb.symm]
  refine stopsPrecisely_opcode (a := readWordOf (bs.foldl (shiftIn bs.length) 0)) hp hready fun t ⟨hclk, hacq, _⟩ => ?_
  refine performs_hold_bind ?_
  refine performs_bind (performs_pinSetDir_held .dirIn hacq) fun u hu => ?_
  have hdat : u.pin .dat = PinRec.claimed.withDir .dirIn := by rw [State.pin_eq, pinSetDir_returns hu]; rfl
  have hlow : u.pin .clk = drivenLow := by rw [State.pin_eq, pinSetDir_returns hu]; exact hclk
  refine performs_bind (performs_busRecv bs hlow (by rw [hdat]; rfl) (by rw [hdat]; rfl)) fun v hv => ?_
  have hkept : v.pin .dat = PinRec.claimed.withDir .dirIn := by
    rw [State.pin_eq, busRecv_returns hv, ← State.pin_eq, hdat]
  refine performs_bind (performs_pinSetDir_held .dirOut (by rw [hkept]; rfl)) fun w _ => ?_
  exact performs_bind (performs_hold .tCmd w) fun w _ => performs_pure _ w

theorem invoke_writeCommand_failsPrecisely {i : Instr} {op d : Nat} (hd : dataInRange d = true)
    (hexec : exec i s = invoke .command (dataRefusal d) (noValue (writeCommand op d)) s) :
    FailsPrecisely i s (writeEvents op d) .programmingMode := by
  rw [dataRefusal, if_pos hd] at hexec
  exact ((writeCommand_stopsPrecisely hp hready op d).bind _).failsPrecisely hexec hp.admits

/-- R76, R111: a failing command, from its pins ready. -/
theorem exec_command_failsPrecisely {i : Instr} {bs : List Bit} (hi : isCommand i = true) (hwf : i.wf = true)
    (hb : i = .readData → bs.length = 16) : FailsPrecisely i s (plannedEvents s bs i) .programmingMode := by
  cases i with
  | loadConfig d => exact invoke_writeCommand_failsPrecisely hp hready hwf (exec_loadConfig s d)
  | loadData d => exact invoke_writeCommand_failsPrecisely hp hready hwf (exec_loadData s d)
  | readData =>
    exact ((readCommand_stopsPrecisely hp hready (hb rfl)).bind _).failsPrecisely (exec_readData s) hp.admits
  | incAddr | resetAddr | beginProg | bulkErase | rowErase =>
    exact ((controlCommand_stopsPrecisely hp hready _ _).bind _).failsPrecisely rfl hp.admits
  | _ => cases hi

end

/-! ## Entry operations (R89, R90) -/

/-- R89: everything `RESET` does before it writes the session state. -/
def sessionResetLines : Op Unit := do
  pinEnsureOutWrite .rst false
  emit (.hold .tReset)

theorem sessionReset_eq : sessionReset = sessionResetLines >>= fun _ => modify fun s => s.withState .reset := by
  simp only [sessionReset, sessionResetLines, bind_assoc]

theorem performs_sessionResetLines (s : State) : Performs sessionResetLines s ⟨⟩ (resetEvents s) := by
  have hevents : resetEvents s =
      (claimEvents s .rst ++ [driveEvent (s.claimed .rst) .rst false]) ++ [Event.hold .tReset] := by
    simp only [resetEvents, List.append_assoc, List.cons_append, List.nil_append]
  rw [hevents]
  exact performs_bind (performs_pinEnsureOutWrite s .rst false) fun t _ => performs_hold .tReset t

theorem performs_enterLvpLines (s : State) : Performs enterLvpLines s ⟨⟩ (enterEvents s) := by
  have hevents : enterEvents s = (claimEvents s .clk ++ [driveEvent (s.claimed .clk) .clk false]) ++
      ((claimEvents s .dat ++ [Event.dir .dat .dirOut]) ++ (keyEvents ++ [Event.hold .tEntry])) := by
    simp only [enterEvents, List.append_assoc]
  rw [hevents]
  refine performs_bind (performs_pinEnsureOutWrite s .clk false) fun t ht => ?_
  have hdat : t.pin .dat = s.pin .dat := by
    rw [State.pin_eq, pinEnsureOutWrite_returns ht, PinTable.get_set, if_neg (by decide), State.pin_eq]
  rw [← claimEvents_congr hdat]
  refine performs_bind (performs_pinSetDir t .dat .dirOut) fun u hu => ?_
  exact performs_bind (performs_sendKey (sendReady_of_entry ht hu)) fun w _ => performs_hold .tEntry w

theorem sessionReset_stopsPrecisely (s : State) : StopsPrecisely sessionReset s (resetEvents s) s.state :=
  sessionReset_eq ▸ (performs_sessionResetLines s).stopsPrecisely.bind _

theorem enterLvp_stopsPrecisely (s : State) : StopsPrecisely enterLvp s (enterEvents s) s.state :=
  enterLvp_eq ▸ (performs_enterLvpLines s).stopsPrecisely.bind _

/-! ## Every composite operation -/

theorem programming_of_admitted {i : Instr} (hi : isCommand i = true) (h : s.state ∈ admittedStates i) :
    Programming s := by
  cases i with
  | loadConfig | loadData | readData | incAddr | resetAddr | beginProg | bulkErase | rowErase =>
    simpa [admittedStates, Programming] using h
  | _ => cases hi

theorem PinsReady.of_command {i : Instr} {bs : List Bit} (hi : isCommand i = true) (h : PinsReady s bs i) :
    SendReady s ∧ (i = .readData → bs.length = 16) := by
  cases i with
  | readData => exact ⟨h.1, fun _ => h.2⟩
  | loadConfig | loadData | incAddr | resetAddr | beginProg | bulkErase | rowErase => exact ⟨h, nofun⟩
  | _ => cases hi

theorem ne_exited_of_mem (h : s.state ∈ [SessionState.unpowered, .reset, .lvpEntered, .programmingMode]) :
    s.state ≠ .exited := by
  rintro he
  simp [he] at h

/-- Settles O38: each composite operation performs its events up to its first failure; the others plan none. -/
theorem failureStopsPrecisely : Obligations.FailureStopsPrecisely := by
  intro i s bs hwf hs hready
  by_cases hi : isCommand i = true
  · obtain ⟨hsend, hbits⟩ := hready.of_command hi
    rw [if_pos hi]
    exact exec_command_failsPrecisely (programming_of_admitted hi hs) hsend hi hwf hbits
  · rw [if_neg hi]
    cases i with
    | loadConfig | loadData | readData | incAddr | resetAddr | beginProg | bulkErase | rowErase => exact absurd rfl hi
    | send v n =>
      exact (performs_noValue (performs_busSend hready v n)).failsPrecisely (exec_send s v n)
        (admits_line (ne_exited_of_mem hs))
    | recv n =>
      obtain ⟨hclk, hacq, hin, rfl⟩ := hready
      exact ((performs_busRecv bs hclk hacq hin).stopsPrecisely.bind _).failsPrecisely (exec_recv s _)
        (admits_line (ne_exited_of_mem hs))
    | lvpKey =>
      exact (performs_noValue (performs_sendKey hready)).failsPrecisely (exec_lvpKey s)
        (admits_line (ne_exited_of_mem hs))
    | reset =>
      have ha : admits .reset s.state = true := by
        have hs' : s.state = .unpowered ∨ s.state = .reset := by simpa [admittedStates] using hs
        rcases hs' with h | h <;> rw [h] <;> rfl
      exact ((sessionReset_stopsPrecisely s).bind _).failsPrecisely (exec_reset s) ha
    | enterLvp =>
      have hreset : s.state = .reset := by simpa [admittedStates] using hs
      exact ((enterLvp_stopsPrecisely s).bind _).failsPrecisely (exec_enterLvp s) (by rw [hreset]; rfl)
    | _ => exact failsPrecisely_nil _ s _

end Sys2Proof.Machine
end

section
/-! PROOFS. The bit transport, invoked by the host (spec/41_bit_transport.md R70 to R72): the value that a reversal gives,
the state that a served transfer leaves, and the two together against a target that mirrors the data line
(spec/95_test_vectors.md L1.3). -/

namespace Sys2Proof.Machine

variable {s t : State} {v n : Nat} {l : List Bool} {bs : List Bit} {r : List (List Char)}

/-! ## `REVERSE` (R70) -/

/-- R70: bit `i` of an operand of `n` bits is found at bit `n-1-i` of its reversal. -/
theorem testBit_reverseBits_mirror {i : Nat} (hi : i < n) : (reverseBits v n).testBit (n - 1 - i) = v.testBit i := by
  have hmirror : n - 1 - (n - 1 - i) = i := by omega
  rw [Bool.eq_iff_iff, reverseBits_testBit, hmirror]
  exact and_iff_right (by omega)

/-- R70: two reversals give the operand again, as it has no bit at `n` or above. -/
theorem reverseBits_reverseBits (hv : v < 2 ^ n) : reverseBits (reverseBits v n) n = v := by
  refine Nat.eq_of_testBit_eq fun j => ?_
  by_cases hj : j < n
  · have hmirror : n - 1 - (n - 1 - j) = j := by omega
    have hagain := testBit_reverseBits_mirror (v := reverseBits v n) (n := n) (i := n - 1 - j) (by omega)
    rw [hmirror] at hagain
    exact hagain.trans (testBit_reverseBits_mirror hj)
  · have hpow : 2 ^ n ≤ 2 ^ j := Nat.pow_le_pow_right (by decide) (Nat.not_lt.1 hj)
    rw [Nat.testBit_lt_two_pow ((reverseBits_lt _ n).trans_le hpow), Nat.testBit_lt_two_pow (hv.trans_le hpow)]

/-- R87: `REVERSE` is admitted in every state, `Exited` too. -/
theorem admits_reverse (st : SessionState) : admits .reverse st = true := by cases st <;> rfl

theorem exec_reverse_inRange (hv : v < 2 ^ n) (s : State) :
    exec (.reverse v n) s = .next (s.addResult (.ok (.nat (reverseBits v n)))) := by
  have hrange : reverseRefusal v n = none := if_pos (decide_eq_true hv)
  rw [exec_reverse, hrange, invoke_ok (admits_reverse s.state) (op_pure _ s)]

theorem exec_reverse_tooWide (hv : 2 ^ n ≤ v) (s : State) :
    exec (.reverse v n) s = .next (s.refuse .reverseOperandTooWide) := by
  have hrange : reverseRefusal v n = some .reverseOperandTooWide := if_neg (by simpa [reverseInRange] using hv)
  rw [exec_reverse, hrange]
  rfl

/-- Settles O16: the result is `reverseBits v n`, whose bits are those of the operand mirrored. -/
theorem reverseIsBitReversal : Obligations.ReverseIsBitReversal := by
  intro v n s
  refine ⟨fun hv => ⟨reverseBits v n, exec_reverse_inRange hv s, reverseBits_lt v n,
    fun i hi => testBit_reverseBits_mirror hi, ?_⟩, fun hv => exec_reverse_tooWide hv s⟩
  rw [exec_reverse_inRange (reverseBits_lt v n), reverseBits_reverseBits hv]
  rfl

/-! ## `SEND` (R71) -/

/-- R71: the next state of a `SEND` that the provider serves. -/
theorem exec_send_served (hs : s.state ≠ .exited) (hready : SendReady s) (hl : Serves s (3 * n) l) :
    exec (.send v n) s = .next
      ((s.afterLines (sendEvents v n) { s.pins with dat := sentRec s.pins.dat v n } l s.env.reads).addResult
        (.ok .unit)) := by
  obtain ⟨hclk, hacq, hout⟩ := hready
  have hrun := busSend_lines (s := s) (evs := []) (n := n) (v := v) (l := l) (r := s.env.reads) hclk hacq hout
  rw [← hl.afterLines] at hrun
  rw [exec_send, invoke_line_ok hs hrun, List.nil_append]

/-- R71: the level that `DAT` keeps is the last bit sent. -/
theorem sentRec_eq (d : PinRec) (v n : Nat) :
    sentRec d v n = { d with level := if n = 0 then d.level else some (v.testBit (n - 1)) } := by
  unfold sentRec
  split <;> rfl

/-- Settles O17: the preconditions are checked on the clock first, and a ready `SEND` performs its events. -/
theorem sendLowestBitFirst : Obligations.SendLowestBitFirst := by
  intro v n s l hs
  refine ⟨fun hclk => ?_, fun hclk hdat => ?_, fun hclk hacq hout hl => ?_, fun hclk hacq hout => ?_⟩
  · rw [exec_send, invoke_line_error hs (busSend_clock hclk)]
  · rw [exec_send, invoke_line_error hs (busSend_data hclk hdat)]
  · rw [exec_send_served hs ⟨hclk, hacq, hout⟩ hl, sentRec_eq]
    rfl
  · exact (performs_noValue (performs_busSend ⟨hclk, hacq, hout⟩ v n)).failsPrecisely (exec_send s v n) (admits_line hs)

/-! ## `RECV` (R72) -/

/-- R72: the preconditions of `RECV`. -/
theorem busRecv_clock (h : s.pin .clk ≠ drivenLow) :
    (busRecv n).run s = .error (.preconditionViolation .clk .recvClockNotLowOutput) s := by
  rw [busRecv, op_bind_ok (op_get s), if_neg (mt PinRec.lowOutput_iff.1 h), op_throw]

theorem busRecv_data (hclk : s.pin .clk = drivenLow) (h : ¬((s.pin .dat).acquired = true ∧ (s.pin .dat).dir = .input)) :
    (busRecv n).run s = .error (.preconditionViolation .dat .recvDataNotInput) s := by
  rw [busRecv, op_bind_ok (op_get s), if_pos (PinRec.lowOutput_iff.2 hclk), if_neg (mt PinRec.isInput_iff.1 h), op_throw]

theorem exec_recv_error {e : OpError} (hs : s.state ≠ .exited) (h : (busRecv n).run s = .error e t) :
    exec (.recv n) s = .next (abort e t) := by
  rw [exec_recv, invoke_error (admits_line hs) (op_bind_error h)]

/-- R72: the next state of a `RECV` that the provider serves and the target answers; it returns the bits received as a
field, the first one lowest (R33). -/
theorem exec_recv_served (hn : bs.length = n) (hs : s.state ≠ .exited) (hclk : s.pin .clk = drivenLow)
    (hacq : (s.pin .dat).acquired = true) (hin : (s.pin .dat).dir = .input) (hl : Serves s (3 * n) l)
    (hr : Presents s bs r) :
    exec (.recv n) s = .next ((s.afterLines (recvEvents bs) s.pins l r).addResult (.ok (.nat (valueOf bs)))) := by
  subst hn
  have hrun := busRecv_lines (s := s) (evs := []) (bs := bs) (l := l) (r := r) hclk hacq hin
  rw [← hr, ← hl.afterLines] at hrun
  have hbody : (busRecv bs.length >>= fun v => pure (.nat v)).run s = .ok (Value.nat (valueOf bs)) _ := op_bind_ok hrun
  rw [exec_recv, invoke_ok (admits_line hs) hbody, List.nil_append]

/-- Settles O18: the result is the value of the field of bits received, and a ready `RECV` performs its events. -/
theorem recvLowestBitFirst : Obligations.RecvLowestBitFirst := by
  intro n s l hs
  refine ⟨fun hclk => exec_recv_error hs (busRecv_clock hclk),
    fun hclk hdat => exec_recv_error hs (busRecv_data hclk hdat), fun hclk hacq hin bs r hn => ?_⟩
  subst hn
  refine ⟨fun hl hr => ⟨valueOf bs, valueOf_lt bs, fun j _ => valueOf_testBit bs j, ?_⟩, ?_⟩
  · rw [exec_recv_served rfl hs hclk hacq hin hl hr]
    rfl
  · exact ((performs_busRecv bs hclk hacq hin).stopsPrecisely.bind _).failsPrecisely (exec_recv s _) (admits_line hs)

/-! ## A mirror target (R73, L1.3) -/

theorem length_sendEvents (v n : Nat) : (sendEvents v n).length = 5 * n := by
  simp [sendEvents, sendSlot, Nat.mul_comm]

theorem length_recvEvents (bs : List Bit) : (recvEvents bs).length = 5 * bs.length := by
  simp [recvEvents, recvSlot, Nat.mul_comm]

/-- R33, R73: what a mirror of a `SEND` has seen is the field that was sent. -/
theorem eq_bitsOf_of_wireBits {dat : Option Bit} (h : wireBits (some false) dat (sendEvents v n) = bs.map some) :
    bs = bitsOf n v := by
  rw [wireBits_sendEvents, map_testBit_eq_drivenField, drivenField] at h
  exact (List.map_injective_iff.2 (Option.some_injective Bit) h).symm

/-- R62: the next state of a `SETDIR` on an acquired pin that the provider serves. -/
theorem exec_setDir_served {p : Pin} {d : DirWord} (hs : s.state ≠ .exited) (hacq : (s.pin p).acquired = true)
    (hl : Serves s 1 l) :
    exec (.setDir p (.word d)) s = .next
      ((s.afterLines [.dir p d] (s.pins.set p ((s.pin p).withDir d)) l s.env.reads).addResult (.ok .unit)) := by
  rw [State.pin_eq] at hacq
  have hrun := pinSetDir_lines (s := s) (evs := []) (l := l) (r := s.env.reads) (d := d) hacq
  have hstart : s.afterLines [] s.pins (false :: l) s.env.reads = s := hl.afterLines.symm
  rw [hstart] at hrun
  rw [exec_setDir_word, invoke_line_ok hs hrun, List.nil_append, State.pin_eq]

/-- Settles O19: the send leaves the pins that `SETDIR DAT in` makes ready to receive, and the mirror presents the field
that was sent. -/
theorem loopbackIdentity : Obligations.LoopbackIdentity := by
  intro v n s l bs r hs hready hl hr hmirror
  obtain rfl : bs = bitsOf n v := eq_bitsOf_of_wireBits hmirror
  have ⟨hclk, hacq, _⟩ := hready
  rw [Serves, Nat.add_assoc, replicate_add_append, replicate_add_append] at hl
  have hsent : (sentRec s.pins.dat v n).acquired = true := (sentRec_acquired _ v n).trans hacq
  refine ⟨_, _, _, exec_send_served hs hready hl, exec_setDir_served hs hsent rfl,
    exec_recv_served (bitsOf_length n v) hs hclk hsent rfl rfl hr, by rw [State.addResult_results, valueOf_bitsOf]; rfl,
    sendEvents v n ++ [.dir .dat .dirIn] ++ recvEvents (bitsOf n v), by simp, ?_⟩
  simp only [List.length_append, length_sendEvents, length_recvEvents, bitsOf_length, List.length_singleton]
  omega

end Sys2Proof.Machine
end

section
/-! PROOFS. The commands, invoked by the host (spec/42_commands.md R76 to R85): how a command stops, said once for all
eight, and the state that a served command of each format leaves. -/

namespace Sys2Proof.Machine

variable {α : Type} {s : State} {i : Instr} {op : Nat} {l : List Bool} {bs : List Bit} {r : List (List Char)}

/-! ## Where a command stops (R77, R71, R86) -/

theorem not_admits_command (h : ¬Programming s) : admits .command s.state = false := by
  revert h
  unfold Programming
  cases s.state <;> simp [admits]

/-- R76, R91: a command whose first `SEND` raises an error stops with it, in `ProgrammingMode`. -/
theorem opcode_error {e : OpError} {f : Unit → Op α} (hp : Programming s)
    (h : (busSend op Config.opcodeBits).run (s.withState .programmingMode) =
      .error e (s.withState .programmingMode)) :
    (commandAdmit >>= fun _ => busSend op Config.opcodeBits >>= f).run s =
      .error e (s.withState .programmingMode) := by
  rw [op_bind_ok (commandAdmit_programming hp), op_bind_error h]

/-- R77: an operation that is admitted as a command and sends an opcode first has the preconditions of that `SEND`. -/
theorem commandStops_of_opcode {es : List Event} {f : Unit → Op α} {g : α → Op Value}
    (hexec : exec i s = invoke .command none ((commandAdmit >>= fun _ => busSend op Config.opcodeBits >>= f) >>= g) s)
    (hfails : Programming s → SendReady s → FailsPrecisely i s es .programmingMode) : CommandStops i s es := by
  refine ⟨fun hp => ?_, fun hp hclk => ?_, fun hp hclk hdat => ?_, hfails⟩
  · rw [hexec, invoke_not_admitted (not_admits_command hp)]
    rfl
  · rw [hexec, invoke_error hp.admits (op_bind_error (opcode_error hp (busSend_clock hclk)))]
    rfl
  · rw [hexec, invoke_error hp.admits (op_bind_error (opcode_error hp (busSend_data hclk hdat)))]
    rfl

theorem dataRefusal_inRange {d : Nat} (hd : dataInRange d = true) : dataRefusal d = none := if_pos hd

theorem dataRefusal_tooWide {d : Nat} (hd : 2 ^ 14 ≤ d) : dataRefusal d = some .dataTooWide :=
  if_neg fun h => absurd (of_decide_eq_true h) (Nat.not_lt.2 hd)

/-- R76, R77: how each of the eight commands stops. -/
theorem exec_command_stops (hi : isCommand i = true) (hwf : i.wf = true) (hb : i = .readData → bs.length = 16) :
    CommandStops i s (plannedEvents s bs i) := by
  have hfails : Programming s → SendReady s → FailsPrecisely i s (plannedEvents s bs i) .programmingMode :=
    fun hp hready => exec_command_failsPrecisely hp hready hi hwf hb
  cases i with
  | loadConfig d => exact commandStops_of_opcode (dataRefusal_inRange hwf ▸ exec_loadConfig s d) hfails
  | loadData d => exact commandStops_of_opcode (dataRefusal_inRange hwf ▸ exec_loadData s d) hfails
  | readData => exact commandStops_of_opcode (exec_readData s) hfails
  | incAddr | resetAddr | beginProg | bulkErase | rowErase => exact commandStops_of_opcode rfl hfails
  | _ => cases hi

/-! ## The level that `DAT` keeps (R71, R75) -/

/-- R71: a send whose last bit is 0 leaves `DAT` low, whatever was sent before it. -/
theorem sentRec_low {d : PinRec} {v n : Nat} (hn : n ≠ 0) (hv : v.testBit (n - 1) = false) :
    sentRec d v n = { d with level := some false } := by
  rw [sentRec_eq, if_neg hn, hv]

/-! ## Served commands -/

/-- R91: the state that a served command leaves: `ProgrammingMode`, its events, the record of `DAT`, its result. -/
def State.commanded (s : State) (es : List Event) (dat : PinRec) (l : List Bool) (r : List (List Char)) (v : Value) :
    State :=
  ((s.withState .programmingMode).afterLines es { s.pins with dat := dat } l r).addResult (.ok v)

section
variable (hp : Programming s) (hready : SendReady s)
include hp hready

/-- R81 to R85: the next state of a served command of format C whose opcode ends in 0. -/
theorem invoke_controlCommand_served {settle : Delay} (hop : op.testBit 5 = false) (hl : Serves s 18 l) :
    invoke .command none (noValue (controlCommand op settle)) s = .next
      (s.commanded (controlEvents op settle) { s.pins.dat with level := some false } l s.env.reads .unit) := by
  obtain ⟨hclk, hacq, hout⟩ := hready
  have hrun := controlCommand_lines (evs := []) (op := op) (t := settle) (l := l) (r := s.env.reads) hp hclk hacq hout
  rw [← hl.afterLines, sentRec_low (by decide) hop] at hrun
  exact invoke_ok hp.admits (noValue_ok hrun)

/-- R78, R79, R52: the next state of a served command of format W; its last bit on the wire is a framing bit of 0. -/
theorem invoke_writeCommand_served {d : Nat} (hd : d < 2 ^ 14) (hl : Serves s 66 l) :
    invoke .command none (noValue (writeCommand op d)) s = .next
      (s.commanded (writeEvents op d) { s.pins.dat with level := some false } l s.env.reads .unit) := by
  obtain ⟨hclk, hacq, hout⟩ := hready
  have hframing : (2 * d).testBit 15 = false := Nat.testBit_lt_two_pow (by omega)
  have hdat : sentRec (sentRec s.pins.dat op 6) (2 * d) 16 = { s.pins.dat with level := some false } := by
    rw [sentRec_low (by decide) hframing, sentRec_acquired, sentRec_dir]
  have hrun := writeCommand_lines (evs := []) (op := op) (d := d) (l := l) (r := s.env.reads) hp hclk hacq hout
  rw [← hl.afterLines, hdat] at hrun
  exact invoke_ok hp.admits (noValue_ok hrun)

/-- R80: the next state of a served `READ_DATA` to which the target presents the bits. -/
theorem exec_readData_served (hb : bs.length = 16) (hl : Serves s 68 l) (hr : Presents s bs r) :
    exec .readData s = .next
      (s.commanded (readEvents bs) { acquired := true, dir := .output, level := none } l r
        (.word (readWordOf (valueOf bs)))) := by
  obtain ⟨hclk, hacq, hout⟩ := hready
  have hrun := readCommand_lines (evs := []) (l := l) (r := r) hb hp hclk hacq hout
  rw [← hr, ← hl.afterLines] at hrun
  rw [exec_readData]
  exact invoke_ok hp.admits (op_bind_ok hrun)

end

/-- Settles O20: the five opcodes are below 2^5, so `DAT` is left low, and each is a command of R51. -/
theorem controlCommandsSendTheirOpcode : Obligations.ControlCommandsSendTheirOpcode := by
  intro i op settle s l hi
  obtain ⟨hop, hexec, hcommand, hwf, hread, hplanned⟩ : op.testBit 5 = false ∧
      exec i s = invoke .command none (noValue (controlCommand op settle)) s ∧ isCommand i = true ∧ i.wf = true ∧
      i ≠ .readData ∧ plannedEvents s [] i = controlEvents op settle := by
    simp only [List.mem_cons, Prod.mk.injEq, List.not_mem_nil, or_false] at hi
    rcases hi with ⟨rfl, rfl, rfl⟩ | ⟨rfl, rfl, rfl⟩ | ⟨rfl, rfl, rfl⟩ | ⟨rfl, rfl, rfl⟩ | ⟨rfl, rfl, rfl⟩ <;>
      exact ⟨by decide, rfl, rfl, rfl, nofun, rfl⟩
  refine ⟨fun hp hready hl => ?_, ?_⟩
  · rw [hexec, invoke_controlCommand_served hp hready hop hl, List.append_assoc]
    rfl
  · rw [← controlEvents, ← hplanned]
    exact exec_command_stops hcommand hwf fun h => absurd h hread

/-- Settles O21: the payload is below 2^15, so `DAT` is left low; a wider operand is refused before the state is
looked at. -/
theorem writeCommandsSendTheWord : Obligations.WriteCommandsSendTheWord := by
  intro i op d s l hi
  obtain ⟨hexec, hcommand, hwf, hread, hplanned⟩ :
      exec i s = invoke .command (dataRefusal d) (noValue (writeCommand op d)) s ∧ isCommand i = true ∧
      i.wf = dataInRange d ∧ i ≠ .readData ∧ plannedEvents s [] i = writeEvents op d := by
    simp only [List.mem_cons, Prod.mk.injEq, List.not_mem_nil, or_false] at hi
    rcases hi with ⟨rfl, rfl⟩ | ⟨rfl, rfl⟩ <;> exact ⟨rfl, rfl, rfl, nofun, rfl⟩
  refine ⟨fun hd => ?_, fun hd => ?_⟩
  · rw [hexec, dataRefusal_tooWide hd]
    rfl
  · have hrange : dataInRange d = true := decide_eq_true hd
    refine ⟨fun hp hready hl => ?_, ?_⟩
    · rw [hexec, dataRefusal_inRange hrange, invoke_writeCommand_served hp hready hd hl]
      simp only [State.commanded, writeEvents, State.afterLines, List.append_assoc]
      rfl
    · rw [← writeEvents, ← hplanned]
      exact exec_command_stops hcommand (hwf.trans hrange) fun h => absurd h hread

/-! ## The word read (R53) -/

/-- R53: bit `j` of the word is bit `j + 1` received. -/
theorem readWordOf_getLsbD {j : Nat} (hj : j < 14) (bs : List Bit) :
    (readWordOf (valueOf bs)).getLsbD j = bs[j + 1]?.getD false := by
  have hmask : (0x3FFF : Nat).testBit j = true := by
    rw [show (0x3FFF : Nat) = 2 ^ 14 - 1 from rfl, Nat.testBit_two_pow_sub_one]
    exact decide_eq_true hj
  rw [readWordOf, BitVec.getLsbD_ofNat, Nat.testBit_and, Nat.testBit_shiftRight, hmask, valueOf_testBit,
    Nat.add_comm 1 j]
  simp [hj]

/-! ## `DAT` after a failure of `READ_DATA` (R80) -/

theorem exists_errorAt {es : List Event} {j : Nat} (h : j < (providerOps es).length) : ∃ e, errorAt j es = some e :=
  ⟨_, by rw [errorAt, List.getElem?_eq_getElem h, Option.map_some]⟩

theorem eventsBefore_prefix (j : Nat) (es : List Event) : eventsBefore j es <+: es := by
  induction es generalizing j with
  | nil => exact List.prefix_rfl
  | cons e es ih =>
    cases hop : e.providerOp with
    | none => rw [eventsBefore_cons_none hop]; exact (List.prefix_cons_inj e).2 (ih j)
    | some x =>
      cases j with
      | zero => rw [eventsBefore_zero_cons_some hop]; exact List.nil_prefix
      | succ j => rw [eventsBefore_succ_cons_some hop]; exact (List.prefix_cons_inj e).2 (ih j)

/-- A failure in the first part, or in the operation that follows it, comes after events of the first part only. -/
theorem eventsBefore_append_prefix {es es' : List Event} {e : Event} {x : Pin × ProviderOp} {j : Nat}
    (he : e.providerOp = some x) (hj : j ≤ (providerOps es).length) : eventsBefore j (es ++ e :: es') <+: es := by
  rcases hj.lt_or_eq with hlt | rfl
  · rw [eventsBefore_append_left hlt]
    exact eventsBefore_prefix j es
  · have hsplit := eventsBefore_append_right 0 es (e :: es')
    rw [Nat.add_zero, eventsBefore_zero_cons_some he, List.append_nil] at hsplit
    rw [hsplit]

theorem get_foldl_after {es : List Event} {p : Pin} (h : ∀ e ∈ es, ∀ t : PinTable, (t.after e).get p = t.get p)
    (t : PinTable) : (es.foldl PinTable.after t).get p = t.get p := by
  induction es generalizing t with
  | nil => rfl
  | cons e es ih =>
    rw [List.foldl_cons, ih fun e he => h e (List.mem_cons_of_mem _ he)]
    exact h e List.mem_cons_self t

/-- R72: no event of a receive changes the record of `DAT`. -/
theorem recvEvents_keep_dat {e : Event} (he : e ∈ recvEvents bs) (t : PinTable) :
    (t.after e).get .dat = t.get .dat := by
  simp only [recvEvents, recvSlot, List.mem_flatMap, List.mem_cons, List.not_mem_nil, or_false] at he
  obtain ⟨b, _, rfl | rfl | rfl | rfl | rfl⟩ := he <;> rfl

/-- R80: the events of `READ_DATA` up to the one that makes `DAT` an input. -/
def readOpening : List Event := sendEvents 0x04 6 ++ [.hold .tCmd, .dir .dat .dirIn]

theorem readEvents_eq (bs : List Bit) :
    readEvents bs = readOpening ++ (recvEvents bs ++ .dir .dat .dirOut :: [.hold .tCmd]) := by
  simp only [readEvents, readOpening, List.append_assoc]

theorem providerOps_readOpening_length : (providerOps readOpening).length = 19 := by
  rw [readOpening, providerOps_append, List.length_append, providerOps_sendEvents_length]
  rfl

theorem get_dat_readOpening {t : PinTable} (hclk : t.clk = drivenLow) (hacq : t.dat.acquired = true) :
    (readOpening.foldl PinTable.after t).get .dat = { acquired := true, dir := .input, level := none } := by
  rw [readOpening, List.foldl_append, sendEvents_after hclk]
  change (sentRec t.dat 0x04 6).withDir .dirIn = _
  rw [PinRec.withDir, sentRec_acquired, hacq]

/-- R80: between the two `SETDIR`s, `DAT` is an input. -/
theorem get_dat_eventsBefore_readEvents {t : PinTable} {j : Nat} (hclk : t.clk = drivenLow)
    (hacq : t.dat.acquired = true) (hb : bs.length = 16) (hj : 19 ≤ j) (hj' : j < 68) :
    ((eventsBefore j (readEvents bs)).foldl PinTable.after t).get .dat =
      { acquired := true, dir := .input, level := none } := by
  obtain ⟨k, rfl⟩ := Nat.exists_eq_add_of_le hj
  have hprefix : eventsBefore k (recvEvents bs ++ .dir .dat .dirOut :: [.hold .tCmd]) <+: recvEvents bs :=
    eventsBefore_append_prefix rfl (by rw [providerOps_recvEvents_length, hb]; omega)
  rw [readEvents_eq, ← providerOps_readOpening_length, eventsBefore_append_right, List.foldl_append,
    get_foldl_after fun e he => recvEvents_keep_dat (hprefix.subset he), get_dat_readOpening hclk hacq]

/-- Settles O22: the word is that of the bits received, and between the two `SETDIR`s `DAT` is an input. -/
theorem readDataReturnsTheWord : Obligations.ReadDataReturnsTheWord := by
  intro s bs l r hb
  refine ⟨fun hp hready hl hr => ⟨readWordOf (valueOf bs), fun j hj => readWordOf_getLsbD hj bs, ?_⟩,
    exec_command_stops rfl rfl fun _ => hb, fun j hp hready hj hj' hfail => ?_⟩
  · rw [exec_readData_served hp hready hb hl hr]
    simp only [State.commanded, readEvents, State.afterLines, List.append_assoc]
    rfl
  · obtain ⟨e, herr⟩ := exists_errorAt (es := readEvents bs) (by rwa [providerOps_readEvents_length hb])
    have ⟨hclk, hacq, _⟩ := hready
    refine ⟨e, _, exec_command_failsPrecisely hp hready rfl rfl (fun _ => hb) j e l r herr hfail, ?_⟩
    exact get_dat_eventsBefore_readEvents hclk hacq hb hj hj'

end Sys2Proof.Machine
end

section
/-! PROOFS. The session operations that begin a session and set up the lines (spec/43_session.md R88 to R90): the state
of a new session, and the states that a served `RESET` and a served `ENTER_LVP` leave, read off their events. -/

namespace Sys2Proof.Machine

variable {s : State} {l : List Bool}

/-! ## `SESSION_NEW` (R88) -/

theorem pinsDistinct_iff {c : SessionConfig} :
    c.pinsDistinct = true ↔ c.pinReset ≠ c.pinClock ∧ c.pinReset ≠ c.pinData ∧ c.pinClock ≠ c.pinData := by
  simp [SessionConfig.pinsDistinct, and_assoc]

theorem newSession_pin (c : SessionConfig) (s : State) (p : Pin) : (newSession c s).pin p = PinRec.reset := by
  cases p <;> rfl

/-- Settles O9: a `Config` of distinct pins begins a session, any other is refused. -/
theorem sessionNewStartsASession : Obligations.SessionNewStartsASession := by
  intro c s
  rcases execSessionNew_cases c s with ⟨hc, he⟩ | ⟨hc, he⟩ <;> rw [he]
  · refine ⟨fun hdistinct => ?_, fun _ => rfl⟩
    rw [pinsDistinct_iff.2 hdistinct] at hc
    cases hc
  · refine ⟨fun _ => ⟨_, rfl, rfl, rfl, newSession_pin c s, rfl, rfl, rfl, rfl, rfl, rfl, rfl⟩, fun hequal => ?_⟩
    obtain ⟨h₁, h₂, h₃⟩ := pinsDistinct_iff.1 hc
    rcases hequal with h | h | h
    exacts [absurd h h₁, absurd h h₂, absurd h h₃]

/-! ## The state after the events of an entry operation (R61, R66) -/

/-- The lazy acquire is the state after its events. -/
theorem State.claimed_eq_afterEvents (s : State) (p : Pin) :
    s.claimed p = s.afterEvents (claimEvents s p) s.env.fails s.env.reads := by
  unfold State.claimed claimEvents
  split
  · simp [State.afterEvents]
  · rfl

theorem foldl_after_claimEvents (s : State) (p : Pin) :
    (claimEvents s p).foldl PinTable.after s.pins = (s.claimed p).pins := by
  rw [State.claimed_eq_afterEvents]
  rfl

/-- R66: driving an acquired pin leaves it an output at that level. -/
theorem after_driveEvent {p : Pin} (b : Bit) (h : (s.pin p).acquired = true) :
    s.pins.after (driveEvent s p b) = s.pins.set p (PinRec.driving b) := by
  cases hd : (s.pin p).dir with
  | input =>
    rw [driveEvent, if_pos hd, PinTable.after_dir, ← State.pin_eq, PinRec.withDir_of_acquired _ h]
    cases b <;> rfl
  | output =>
    rw [driveEvent, if_neg (by simp [hd]), PinTable.after_wr, ← State.pin_eq, PinRec.withLevel_of_output b h hd]

/-- R61, R66: the records once a pin is claimed if need be and driven. -/
theorem foldl_after_drive (s : State) (p : Pin) (b : Bit) :
    (claimEvents s p ++ [driveEvent (s.claimed p) p b]).foldl PinTable.after s.pins =
      s.pins.set p (PinRec.driving b) := by
  rw [List.foldl_append, foldl_after_claimEvents, List.foldl_cons, List.foldl_nil,
    after_driveEvent b (State.claimed_pin_acquired s p), State.claimed_pins_set]

/-- R61, R62: the records once a pin is claimed if need be and its direction is set. -/
theorem foldl_after_setDir {t : PinTable} {p : Pin} (d : DirWord) (h : t.get p = s.pin p) :
    (claimEvents s p ++ [Event.dir p d]).foldl PinTable.after t = t.set p (PinRec.claimed.withDir d) := by
  cases hacq : (s.pin p).acquired with
  | true =>
    rw [claimEvents_of_acquired hacq, List.nil_append, List.foldl_cons, List.foldl_nil, PinTable.after_dir, h,
      PinRec.withDir_of_acquired d hacq]
  | false =>
    rw [claimEvents_of_not_acquired hacq, List.cons_append, List.nil_append, List.foldl_cons, List.foldl_cons,
      List.foldl_nil, PinTable.after_claim, PinTable.after_dir, PinTable.get_set, if_pos rfl, PinTable.set_set]

theorem trackedAfter_driveEvent (ps : List Pin) (s : State) (p : Pin) (b : Bit) :
    trackedAfter ps (driveEvent s p b) = ps := by
  unfold driveEvent
  split <;> rfl

theorem providerOps_claimEvents_length (s : State) (p : Pin) :
    (providerOps (claimEvents s p)).length = (claimEvents s p).length := by
  unfold claimEvents
  split <;> rfl

theorem providerOps_driveEvent_length (s : State) (p : Pin) (b : Bit) :
    (providerOps [driveEvent s p b]).length = 1 := by
  unfold driveEvent
  split <;> rfl

/-! ## `RESET` (R89) -/

theorem resetEvents_eq (s : State) :
    resetEvents s = (claimEvents s .rst ++ [driveEvent (s.claimed .rst) .rst false]) ++ [.hold .tReset] := by
  simp only [resetEvents, List.append_assoc, List.cons_append, List.nil_append]

theorem emits_sessionResetLines (s : State) : Emits sessionResetLines s ⟨⟩ (resetEvents s) := by
  rw [resetEvents_eq]
  exact emits_bind (emits_pinEnsureOutWrite s .rst false) fun t _ => emits_hold .tReset t

theorem providerOps_resetEvents_length (s : State) :
    (providerOps (resetEvents s)).length = (claimEvents s .rst).length + 1 := by
  simp only [resetEvents_eq, providerOps_append, List.length_append, providerOps_claimEvents_length,
    providerOps_driveEvent_length]
  rfl

/-- R87: `RESET` is admitted in two states. -/
theorem admits_reset_iff {st : SessionState} : admits .reset st = true ↔ st = .unpowered ∨ st = .reset := by
  cases st <;> simp [admits]

theorem exec_reset_served (hs : s.state = .unpowered ∨ s.state = .reset)
    (hl : Serves s (providerOps (resetEvents s)).length l) :
    exec .reset s =
      .next (((s.afterEvents (resetEvents s) l s.env.reads).withState .reset).addResult (.ok .unit)) := by
  have hrun : sessionReset.run s = .ok ⟨⟩ ((s.afterEvents (resetEvents s) l s.env.reads).withState .reset) := by
    rw [sessionReset_eq, op_bind_ok (emits_sessionResetLines s l hl), op_modify]
  rw [exec_reset, invoke_ok (admits_reset_iff.2 hs) (noValue_ok hrun)]

/-- R89: the events of `RESET` leave `RST` driven low, and the other records as they were. -/
theorem foldl_after_resetEvents (s : State) :
    (resetEvents s).foldl PinTable.after s.pins = s.pins.set .rst (PinRec.driving false) := by
  rw [resetEvents_eq, List.foldl_append, foldl_after_drive]
  rfl

theorem foldl_trackedAfter_resetEvents (s : State) (ps : List Pin) :
    (resetEvents s).foldl trackedAfter ps = (claimEvents s .rst).foldl trackedAfter ps := by
  simp only [resetEvents_eq, List.foldl_append, List.foldl_cons, List.foldl_nil, trackedAfter_driveEvent]
  rfl

theorem State.afterEvents_resetEvents (s : State) (l : List Bool) (r : List (List Char)) :
    s.afterEvents (resetEvents s) l r =
      { s.claimed .rst with
        trace := s.trace ++ resetEvents s
        pins := s.pins.set .rst (PinRec.driving false)
        env := { s.env with fails := l, reads := r } } := by
  rw [State.afterEvents, foldl_after_resetEvents, foldl_trackedAfter_resetEvents, State.claimed_eq_afterEvents]
  rfl

/-- Settles O25: `RESET` performs its events where it is admitted, and writes the session state after them. -/
theorem resetDrivesResetLow : Obligations.ResetDrivesResetLow := by
  intro s l
  refine ⟨fun hs => ⟨fun hl => ?_, ?_⟩, fun hu hr => ?_⟩
  · rw [← providerOps_resetEvents_length] at hl
    rw [exec_reset_served hs hl, State.afterEvents_resetEvents, resetEvents, ← List.append_assoc, State.addResult,
      State.withState_results, State.claimed_results]
    rfl
  · exact ((sessionReset_stopsPrecisely s).bind _).failsPrecisely (exec_reset s) (admits_reset_iff.2 hs)
  · have hadmit : admits .reset s.state = false :=
      Bool.eq_false_iff.2 fun h => (admits_reset_iff.1 h).elim hu hr
    rw [exec_reset, invoke_not_admitted hadmit]
    rfl

/-! ## `ENTER_LVP` (R90) -/

theorem admits_enterLvp_iff {st : SessionState} : admits .enterLvp st = true ↔ st = .reset := by
  cases st <;> simp [admits]

theorem providerOps_keyEvents_length : (providerOps keyEvents).length = 99 := by
  rw [keyEvents, providerOps_append, List.length_append, providerOps_sendEvents_length, providerOps_sendEvents_length]

/-- R90: the events of `ENTER_LVP`, by the part of the operation that emits them. -/
theorem enterEvents_eq (s : State) :
    enterEvents s = (claimEvents s .clk ++ [driveEvent (s.claimed .clk) .clk false]) ++
      ((claimEvents s .dat ++ [.dir .dat .dirOut]) ++ (keyEvents ++ [.hold .tEntry])) := by
  simp only [enterEvents, List.append_assoc]

theorem providerOps_enterEvents_length (s : State) :
    (providerOps (enterEvents s)).length = (claimEvents s .clk).length + (claimEvents s .dat).length + 101 := by
  have hdir : (providerOps [Event.dir .dat .dirOut]).length = 1 := rfl
  have hhold : (providerOps [Event.hold .tEntry]).length = 0 := rfl
  simp only [enterEvents_eq, providerOps_append, List.length_append, providerOps_claimEvents_length,
    providerOps_driveEvent_length, providerOps_keyEvents_length, hdir, hhold]
  omega

theorem foldl_trackedAfter_keyEvents (ps : List Pin) : keyEvents.foldl trackedAfter ps = ps :=
  trackedAfter_foldl ps keyEvents fun p => by simp [keyEvents, claim_not_mem_sendEvents]

/-- R50: the frame of format K leaves `DAT` low, since its last bit is 0. -/
theorem foldl_after_keyEvents {t : PinTable} (hclk : t.clk = drivenLow) :
    keyEvents.foldl PinTable.after t = { t with dat := t.dat.withLevel false } := by
  have hfirst := sendEvents_after (n := 32) (v := 0x0A12C2B2) hclk
  rw [keyEvents, List.foldl_append, hfirst, sendEvents_after (n := 1) (v := 0) (by exact hclk)]
  rfl

/-- R90: the events of `ENTER_LVP` leave both lines of the bus driven low, and `RST` as it was. -/
theorem foldl_after_enterEvents (s : State) :
    (enterEvents s).foldl PinTable.after s.pins =
      { rst := s.pins.rst, clk := PinRec.driving false, dat := PinRec.driving false } := by
  have hdat : (s.pins.set .clk (PinRec.driving false)).get .dat = s.pin .dat := rfl
  rw [enterEvents_eq, List.foldl_append, foldl_after_drive, List.foldl_append, foldl_after_setDir _ hdat,
    List.foldl_append, foldl_after_keyEvents rfl]
  rfl

theorem foldl_trackedAfter_enterEvents (s : State) (ps : List Pin) :
    (enterEvents s).foldl trackedAfter ps = (claimEvents s .clk ++ claimEvents s .dat).foldl trackedAfter ps := by
  simp only [enterEvents_eq, List.foldl_append, List.foldl_cons, List.foldl_nil, trackedAfter_driveEvent,
    foldl_trackedAfter_keyEvents]
  rfl

/-- R61: the lazy acquires of the two lines of the bus are independent. -/
theorem claimEvents_dat_claimed_clk (s : State) : claimEvents (s.claimed .clk) .dat = claimEvents s .dat := by
  refine claimEvents_congr ?_
  rw [State.pin_eq, State.pin_eq, State.claimed_pins]
  split <;> rfl

theorem State.afterEvents_enterEvents (s : State) (l : List Bool) (r : List (List Char)) :
    s.afterEvents (enterEvents s) l r =
      { (s.claimed .clk).claimed .dat with
        trace := s.trace ++ enterEvents s
        pins := { rst := s.pins.rst, clk := PinRec.driving false, dat := PinRec.driving false }
        env := { s.env with fails := l, reads := r } } := by
  rw [State.afterEvents, foldl_after_enterEvents, foldl_trackedAfter_enterEvents,
    State.claimed_eq_afterEvents (s.claimed .clk), claimEvents_dat_claimed_clk, State.claimed_eq_afterEvents s .clk,
    State.afterEvents_afterEvents]
  rfl

/-- Settles O26: `ENTER_LVP` performs its events in `Reset`, and writes the session state after them. -/
theorem enterLvpSendsTheKey : Obligations.EnterLvpSendsTheKey := by
  intro s l
  refine ⟨fun hs => ⟨fun hl => ?_, ?_⟩, fun hs => ?_⟩
  · rw [← providerOps_enterEvents_length] at hl
    rw [exec_enterLvp_served hs hl, State.afterEvents_enterEvents, enterEvents, keyEvents]
    simp only [← List.append_assoc, State.addResult, State.withState, State.claimed_results]
    rfl
  · rw [← hs]
    exact ((enterLvp_stopsPrecisely s).bind _).failsPrecisely (exec_enterLvp s) (admits_enterLvp_iff.2 hs)
  · have hadmit : admits .enterLvp s.state = false := Bool.eq_false_iff.2 fun h => hs (admits_enterLvp_iff.1 h)
    rw [exec_enterLvp, invoke_not_admitted hadmit]
    rfl

end Sys2Proof.Machine
end

section
/-! PROOFS. Admission (spec/43_session.md R87, R94): the class and the operand check of every operation, what an
operation leaves alone until its result is given, and from them the table of R87 and the rule that `Exited` is
terminal. -/

namespace Sys2Proof.Machine

variable {α : Type} {s t : State} {i : Instr}

/-! ## What the body of an operation leaves alone (R111) -/

/-- The fields that are written only at the end of an invocation, once its body has returned or raised. -/
structure BodyFrame (s t : State) : Prop where
  cfg : t.cfg = s.cfg
  err : t.err = s.err
  refused : t.refused = s.refused
  results : t.results = s.results
  host : t.host = s.host

theorem bodyFrame_composes : Composes BodyFrame where
  refl _ := ⟨rfl, rfl, rfl, rfl, rfl⟩
  trans _ _ _ h h' :=
    ⟨h'.cfg.trans h.cfg, h'.err.trans h.err, h'.refused.trans h.refused, h'.results.trans h.results,
      h'.host.trans h.host⟩

theorem PrimFrame.bodyFrame (h : PrimFrame s t) : BodyFrame s t := ⟨h.cfg, h.err, h.refused, h.results, h.host⟩

theorem bodyFrame_actions : PrimActions BodyFrame := .of_primFrame bodyFrame_composes PrimFrame.bodyFrame

theorem bodyFrame_pure (a : α) : Keeps BodyFrame (pure a : Op α) := keeps_pure bodyFrame_composes a

theorem bodyFrame_bind {β : Type} {x : Op α} {f : α → Op β} (hx : Keeps BodyFrame x)
    (hf : ∀ a, Keeps BodyFrame (f a)) : Keeps BodyFrame (x >>= f) := keeps_bind bodyFrame_composes hx hf

theorem bodyFrame_emit (e : Event) : Keeps BodyFrame (emit e) := keeps_emit bodyFrame_actions e

theorem bodyFrame_busSend (v n : Nat) : Keeps BodyFrame (busSend v n) := keeps_busSend bodyFrame_actions v n

theorem bodyFrame_commandAdmit : Keeps BodyFrame commandAdmit := by
  refine keeps_modify _ fun s => ?_
  split
  · exact ⟨rfl, rfl, rfl, rfl, rfl⟩
  · exact bodyFrame_composes.refl s

theorem bodyFrame_controlCommand (op : Nat) (d : Delay) : Keeps BodyFrame (controlCommand op d) :=
  bodyFrame_bind bodyFrame_commandAdmit fun _ => bodyFrame_bind (bodyFrame_busSend _ _) fun _ => bodyFrame_emit _

theorem bodyFrame_writeCommand (op d : Nat) : Keeps BodyFrame (writeCommand op d) :=
  bodyFrame_bind bodyFrame_commandAdmit fun _ => bodyFrame_bind (bodyFrame_busSend _ _) fun _ =>
    bodyFrame_bind (bodyFrame_emit _) fun _ => bodyFrame_bind (bodyFrame_busSend _ _) fun _ => bodyFrame_emit _

theorem bodyFrame_readCommand (op : Nat) : Keeps BodyFrame (readCommand op) := by
  rw [readCommand_eq]
  exact bodyFrame_bind bodyFrame_commandAdmit fun _ => bodyFrame_bind (bodyFrame_busSend _ _) fun _ =>
    bodyFrame_bind (bodyFrame_emit _) fun _ => keeps_receivePayload bodyFrame_actions

theorem bodyFrame_sessionReset : Keeps BodyFrame sessionReset :=
  bodyFrame_bind (keeps_pinEnsureOutWrite bodyFrame_actions _ _) fun _ => bodyFrame_bind (bodyFrame_emit _) fun _ =>
    keeps_modify _ fun _ => ⟨rfl, rfl, rfl, rfl, rfl⟩

theorem bodyFrame_enterLvp : Keeps BodyFrame enterLvp := by
  rw [enterLvp_eq]
  exact bodyFrame_bind (keeps_enterLvpLines bodyFrame_actions) fun _ =>
    keeps_modify _ fun _ => ⟨rfl, rfl, rfl, rfl, rfl⟩

/-! ### `VERIFY` (R97) -/

theorem bodyFrame_boundary : Keeps BodyFrame boundary := by
  have hdraw : Keeps BodyFrame drawIrq := by
    intro s
    rcases drawIrq_cases s with ⟨_, _, _, he⟩ | ⟨_, he⟩ <;> rw [he] <;> exact ⟨rfl, rfl, rfl, rfl, rfl⟩
  have htake : Keeps BodyFrame (do
      modify (fun s => s.withIrqPending false)
      throw .interrupted : Op Unit) :=
    bodyFrame_bind (keeps_modify _ fun _ => ⟨rfl, rfl, rfl, rfl, rfl⟩) fun _ => keeps_throw bodyFrame_composes _
  exact bodyFrame_bind hdraw fun _ => bodyFrame_bind (keeps_get bodyFrame_composes) fun _ =>
    keeps_ite (fun _ => htake) fun _ => bodyFrame_pure _

theorem bodyFrame_checkWord (i a : Nat) (v : Word) : Keeps BodyFrame (checkWord i a v) := by
  have hcompare : Keeps BodyFrame (compare i a v) := by
    refine bodyFrame_bind (keeps_get bodyFrame_composes) fun u => ?_
    cases Memory.read u.snap a with
    | none => exact keeps_throw bodyFrame_composes _
    | some e =>
      exact keeps_ite (fun _ => bodyFrame_pure _) fun _ => keeps_modify _ fun _ => ⟨rfl, rfl, rfl, rfl, rfl⟩
  exact keeps_ite (fun _ => keeps_modify _ fun _ => ⟨rfl, rfl, rfl, rfl, rfl⟩) fun _ => hcompare

theorem bodyFrame_verifyWords (i k n : Nat) : Keeps BodyFrame (verifyWords i k n) := by
  have hword : ∀ k, Keeps BodyFrame (verifyWord i k) := fun k =>
    bodyFrame_bind (keeps_get bodyFrame_composes) fun _ => bodyFrame_bind (bodyFrame_readCommand _) fun _ =>
      bodyFrame_bind (bodyFrame_checkWord _ _ _) fun _ => bodyFrame_bind bodyFrame_boundary fun _ =>
        bodyFrame_controlCommand _ _
  induction n generalizing k with
  | zero => exact bodyFrame_pure _
  | succ n ih =>
    exact bodyFrame_bind bodyFrame_boundary fun _ => bodyFrame_bind (hword k) fun _ => ih (k + 1)

theorem bodyFrame_verifyPasses (i n : Nat) : Keeps BodyFrame (verifyPasses i n) := by
  have hpass : ∀ i, Keeps BodyFrame (verifyPass i) := fun i =>
    bodyFrame_bind (bodyFrame_writeCommand _ _) fun _ => bodyFrame_bind (keeps_get bodyFrame_composes) fun _ =>
      bodyFrame_bind (bodyFrame_verifyWords i 0 _) fun _ => bodyFrame_bind bodyFrame_boundary fun _ =>
        bodyFrame_controlCommand _ _
  induction n generalizing i with
  | zero => exact bodyFrame_pure _
  | succ n ih =>
    have hboundary : Keeps BodyFrame (passBoundary i) :=
      keeps_ite (fun _ => bodyFrame_pure _) fun _ => bodyFrame_boundary
    exact bodyFrame_bind hboundary fun _ => bodyFrame_bind (hpass i) fun _ => ih (i + 1)

theorem bodyFrame_verifyAll (n : Nat) : Keeps BodyFrame (verifyAll n) :=
  bodyFrame_bind (keeps_modify _ fun _ => ⟨rfl, rfl, rfl, rfl, rfl⟩) fun _ =>
    bodyFrame_bind (bodyFrame_verifyPasses 0 n) fun _ =>
      bodyFrame_bind (keeps_get bodyFrame_composes) fun _ => bodyFrame_pure _

/-! ## The result of an invocation (R11) -/

/-- A relation that holds across the pin primitives holds across the loop of the teardown. -/
theorem teardownPins_prim {R : State → State → Prop} (hR : PrimActions R) (ps : List Pin)
    (r : List (Pin × OpError) × State) : R r.2 (teardownPins ps r).2 := by
  induction ps generalizing r with
  | nil => exact hR.refl _
  | cons p ps ih =>
    unfold teardownPins
    split
    · exact hR.trans _ _ _ (collect_keeps (keeps_pinSetDir hR p _) p r)
        (hR.trans _ _ _ (collect_keeps (keeps_pinRelease hR p) p _) (ih _))
    · exact ih r

theorem releaseReset_prim {R : State → State → Prop} (hR : PrimActions R) (s : State) : R s (releaseReset s).2 := by
  unfold releaseReset
  split
  · exact collect_keeps (keeps_pinEnsureOutWrite hR .rst true) .rst ([], s)
  · exact hR.refl s

/-- R92: the teardown is made of pin primitives and the write of the session state. -/
theorem teardown_frame (s : State) : BodyFrame s (teardown s).2 := by
  obtain ⟨hcfg, herr, href, hres, hhost⟩ := bodyFrame_composes.trans _ _ _ (releaseReset_prim bodyFrame_actions s)
    (teardownPins_prim bodyFrame_actions s.tracked (releaseReset s))
  exact ⟨hcfg, herr, href, hres, hhost⟩

/-- The host is given one result, and it is no refusal. -/
def Answered (s t : State) : Prop := ∃ r, t.results = s.results ++ [r] ∧ ∀ why, r ≠ .refused why

theorem abort_answered (e : OpError) (s : State) : Answered s (abort e s) := by
  unfold abort
  simp only
  split
  · exact ⟨.err (.op e) [], by simp, nofun⟩
  · exact ⟨.err (.op e) _, by simp [(teardown_frame _).results]; rfl, nofun⟩

theorem complete_answered {body : Op Value} (hb : Keeps BodyFrame body) (s : State) : Answered s (complete body s) := by
  have hresults := (hb s).results
  unfold complete
  cases hrun : body.run s with
  | ok v t =>
    rw [hrun, finalState] at hresults
    exact ⟨.ok v, by rw [State.addResult_results, hresults], nofun⟩
  | error e t =>
    rw [hrun, finalState] at hresults
    obtain ⟨r, hr, hno⟩ := abort_answered e t
    exact ⟨r, by rw [hr, hresults], hno⟩

theorem completeExit_answered (s : State) : Answered s (completeExit s) := by
  unfold completeExit
  simp only
  split
  · exact ⟨.ok .unit, by simp [(teardown_frame s).results], nofun⟩
  · exact ⟨.err _ [], by simp [(teardown_frame s).results]; rfl, nofun⟩

/-! ## The class and the operand check of an operation (R87, R110) -/

/-- R87: the row of the table for an operation. `LVP_KEY` goes with `SEND` (log 6); `SESSION_NEW` has no row, and the
class given to it is asked by nothing. -/
def opClass : Instr → OpClass
  | .loadConfig _ | .loadData _ | .readData | .incAddr | .resetAddr | .beginProg | .bulkErase | .rowErase => .command
  | .reset => .reset
  | .enterLvp => .enterLvp
  | .verify _ => .verify
  | .exit => .exit
  | .reverse _ _ | .sessionNew _ => .reverse
  | .interrupt => .interrupt
  | .lvpKey | .acquire _ | .setDir _ _ | .write _ _ | .read _ | .release _ | .ensureOutWrite _ _ | .send _ _
  | .recv _ => .line

/-- The table by operation is the table by class. -/
theorem admits_opClass_iff {st : SessionState} : admits (opClass i) st = true ↔ st ∈ admittedStates i := by
  cases i <;> cases st <;> simp [admits, opClass, admittedStates]

/-- R110: the operand check of an operation. -/
def operandRefusal : Instr → Option RefuseReason
  | .loadConfig d | .loadData d => dataRefusal d
  | .setDir _ d => dirRefusal d
  | .reverse v n => reverseRefusal v n
  | .sessionNew c => configRefusal c
  | _ => none

theorem operandRefusal_of_wf (h : i.wf = true) : operandRefusal i = none := by
  cases i with
  | loadConfig d => exact if_pos h
  | loadData d => exact if_pos h
  | reverse v n => exact if_pos h
  | sessionNew c => exact if_pos h
  | setDir p d =>
    cases d with
    | word d => rfl
    | other text => cases h
  | _ => rfl

/-- Every operation but `EXIT` and `SESSION_NEW` is one invocation of a body, under its class and its operand check. -/
theorem exec_eq_invoke (hx : i ≠ .exit) (hn : ∀ c, i ≠ .sessionNew c) :
    ∃ body, Keeps BodyFrame body ∧ ∀ s, exec i s = invoke (opClass i) (operandRefusal i) body s := by
  have hP := bodyFrame_actions
  have hC := bodyFrame_composes
  cases i with
  | loadConfig d => exact ⟨_, keeps_noValue hC (bodyFrame_writeCommand _ d), fun s => exec_loadConfig s d⟩
  | loadData d => exact ⟨_, keeps_noValue hC (bodyFrame_writeCommand _ d), fun s => exec_loadData s d⟩
  | readData => exact ⟨_, bodyFrame_bind (bodyFrame_readCommand _) fun _ => bodyFrame_pure _, exec_readData⟩
  | incAddr => exact ⟨_, keeps_noValue hC (bodyFrame_controlCommand _ _), exec_incAddr⟩
  | resetAddr => exact ⟨_, keeps_noValue hC (bodyFrame_controlCommand _ _), exec_resetAddr⟩
  | beginProg => exact ⟨_, keeps_noValue hC (bodyFrame_controlCommand _ _), exec_beginProg⟩
  | bulkErase => exact ⟨_, keeps_noValue hC (bodyFrame_controlCommand _ _), exec_bulkErase⟩
  | rowErase => exact ⟨_, keeps_noValue hC (bodyFrame_controlCommand _ _), exec_rowErase⟩
  | lvpKey => exact ⟨_, keeps_noValue hC (keeps_sendKey hP), exec_lvpKey⟩
  | acquire p => exact ⟨_, keeps_noValue hC (keeps_pinAcquire hP p), fun s => exec_acquire s p⟩
  | setDir p d =>
    have hbody : Keeps BodyFrame (setDirBody p d) := by
      cases d with
      | word d => exact keeps_pinSetDir hP p d
      | other text => exact bodyFrame_pure _
    exact ⟨_, keeps_noValue hC hbody, fun s => exec_setDir s p d⟩
  | write p v => exact ⟨_, keeps_noValue hC (keeps_pinWrite hP p v), fun s => exec_write s p v⟩
  | read p => exact ⟨_, bodyFrame_bind (keeps_pinRead hP p) fun _ => bodyFrame_pure _, fun s => exec_read s p⟩
  | release p => exact ⟨_, keeps_noValue hC (keeps_pinRelease hP p), fun s => exec_release s p⟩
  | ensureOutWrite p b =>
    exact ⟨_, keeps_noValue hC (keeps_pinEnsureOutWrite hP p b), fun s => exec_ensureOutWrite s p b⟩
  | reverse v n => exact ⟨_, bodyFrame_pure _, fun s => exec_reverse s v n⟩
  | send v n => exact ⟨_, keeps_noValue hC (bodyFrame_busSend v n), fun s => exec_send s v n⟩
  | recv n => exact ⟨_, bodyFrame_bind (keeps_busRecv hP n) fun _ => bodyFrame_pure _, fun s => exec_recv s n⟩
  | sessionNew c => exact absurd rfl (hn c)
  | reset => exact ⟨_, keeps_noValue hC bodyFrame_sessionReset, exec_reset⟩
  | enterLvp => exact ⟨_, keeps_noValue hC bodyFrame_enterLvp, exec_enterLvp⟩
  | exit => exact absurd rfl hx
  | verify n => exact ⟨_, bodyFrame_verifyAll n, fun s => exec_verify s n⟩
  | interrupt => exact ⟨_, keeps_throw hC _, exec_interrupt⟩

/-- Every operation but `SESSION_NEW` runs under its class and its operand check, and gives one result if it runs. -/
theorem exec_eq_guarded (hn : ∀ c, i ≠ .sessionNew c) :
    ∃ run, (∀ s, Answered s (run s)) ∧ ∀ s, exec i s = guarded (opClass i) (operandRefusal i) run s := by
  by_cases hx : i = .exit
  · subst hx
    exact ⟨completeExit, completeExit_answered, exec_exit⟩
  · obtain ⟨body, hb, hexec⟩ := exec_eq_invoke hx hn
    exact ⟨complete body, complete_answered hb, hexec⟩

/-- Settles O31: a well-formed operation passes its operand check, and its class decides the rest. -/
theorem admissionTable : Obligations.AdmissionTable := by
  intro i s hwf _ hn
  obtain ⟨run, hanswered, hexec⟩ := exec_eq_guarded hn
  rw [← admits_opClass_iff, hexec, operandRefusal_of_wf hwf, guarded]
  refine ⟨fun hs => ?_, fun hs => ?_⟩
  · rw [if_neg hs]
    rfl
  · rw [if_pos hs]
    obtain ⟨r, hr, hno⟩ := hanswered s
    exact ⟨_, r, rfl, hr, hno⟩

/-! ## `Exited` (R94) -/

/-- R87: in `Exited` the table admits `REVERSE` only. -/
theorem reverse_of_admits_exited (hn : ∀ c, i ≠ .sessionNew c) (h : admits (opClass i) .exited = true) :
    ∃ v n, i = .reverse v n := by
  cases i with
  | reverse v n => exact ⟨v, n, rfl⟩
  | sessionNew c => exact absurd rfl (hn c)
  | _ => cases h

/-- R94: in `Exited` an operation other than `SESSION_NEW` is refused, or gives a result and does nothing else. -/
theorem exec_exited (hs : s.state = .exited) (hn : ∀ c, i ≠ .sessionNew c) (h : exec i s = .next t) :
    (∃ w, t = s.refuse w) ∨ ∃ r, t = s.addResult r := by
  obtain ⟨run, _, hexec⟩ := exec_eq_guarded hn
  rcases guarded_cases (opClass i) (operandRefusal i) run s with ⟨w, _, he⟩ | ⟨_, _, he⟩ | ⟨hrange, ha, _⟩
  · rw [hexec, he] at h; cases h; exact .inl ⟨w, rfl⟩
  · rw [hexec, he] at h; cases h; exact .inl ⟨_, rfl⟩
  · rw [hs] at ha
    obtain ⟨v, n, rfl⟩ := reverse_of_admits_exited hn ha
    have hv : v < 2 ^ n := by
      by_contra hv
      exact absurd hrange (by simp [operandRefusal, reverseRefusal, reverseInRange, hv])
    rw [exec_reverse_inRange hv] at h
    cases h
    exact .inr ⟨_, rfl⟩

/-- What a step from `Exited` keeps. -/
structure ExitedFrame (s t : State) : Prop where
  state : t.state = s.state
  trace : t.trace = s.trace
  pins : t.pins = s.pins
  tracked : t.tracked = s.tracked
  snap : t.snap = s.snap
  mismatches : t.mismatches = s.mismatches
  err : t.err = s.err
  cfg : t.cfg = s.cfg
  refused : s.refused = true → t.refused = true

theorem exitedFrame_composes : Composes ExitedFrame where
  refl _ := ⟨rfl, rfl, rfl, rfl, rfl, rfl, rfl, rfl, id⟩
  trans _ _ _ h h' :=
    ⟨h'.state.trans h.state, h'.trace.trans h.trace, h'.pins.trans h.pins, h'.tracked.trans h.tracked,
      h'.snap.trans h.snap, h'.mismatches.trans h.mismatches, h'.err.trans h.err, h'.cfg.trans h.cfg,
      h'.refused ∘ h.refused⟩

theorem exitedFrame_exec (hs : s.state = .exited) (hn : ∀ c, i ≠ .sessionNew c) (h : exec i s = .next t) :
    ExitedFrame s t := by
  rcases exec_exited hs hn h with ⟨w, rfl⟩ | ⟨r, rfl⟩
  · exact ⟨rfl, rfl, rfl, rfl, rfl, rfl, rfl, rfl, fun _ => rfl⟩
  · exact ⟨rfl, rfl, rfl, rfl, rfl, rfl, rfl, rfl, id⟩

theorem exitedFrame_step (hs : s.state = .exited) (h : step s = .next t)
    (hnew : ∀ r rest c, s.host = r :: rest → r.decode = .ok (.sessionNew c) → s.irqPending = true) :
    ExitedFrame s t := by
  rcases step_cases h with ⟨_, he⟩ | ⟨_, _, rfl⟩ | ⟨r, rest, i, hq, hh, hd, he⟩ | ⟨r, rest, e, _, _, _, rfl⟩
  · have htaken : ExitedFrame s (s.withIrqPending false) := ⟨rfl, rfl, rfl, rfl, rfl, rfl, rfl, rfl, id⟩
    exact exitedFrame_composes.trans _ _ _ htaken (exitedFrame_exec hs (by simp) he)
  · exact exitedFrame_composes.refl _
  · have hn : ∀ c, i ≠ .sessionNew c := by
      rintro c rfl
      rw [hnew r rest c hh hd] at hq
      cases hq
    have hdequeued : ExitedFrame s (s.withHost rest) := ⟨rfl, rfl, rfl, rfl, rfl, rfl, rfl, rfl, id⟩
    exact exitedFrame_composes.trans _ _ _ hdequeued (exitedFrame_exec hs hn he)
  · exact ⟨rfl, rfl, rfl, rfl, rfl, rfl, rfl, rfl, fun _ => rfl⟩

/-- Settles O30: the step runs no `SESSION_NEW`, and every other operation is refused there or touches no line. -/
theorem exitedIsTerminal : Obligations.ExitedIsTerminal := by
  intro s t hs h hnew
  obtain ⟨hstate, htrace, hpins, htracked, hsnap, hm, herr, hcfg, href⟩ := exitedFrame_step hs h hnew
  exact ⟨hstate.trans hs, htrace, hpins, htracked, hsnap, hm, herr, hcfg, href⟩

end Sys2Proof.Machine
end

section
/-! PROOFS. Teardown (spec/43_session.md R92, R93): `EXIT` attempts a list of events that is fixed when it begins, and
the provider's answers decide which of them happen and which are reported as failures. -/

namespace Sys2Proof.Machine

variable {s : State} {p : Pin} {fs l : List Bool} {es es' : List Event} {pre : List (Pin × OpError)}

/-! ## Events and failures of some attempts (R93) -/

theorem eventsOf_append (h : fs.length = es.length) (es' : List Event) (gs : List Bool) :
    eventsOf (es ++ es') (fs ++ gs) = eventsOf es fs ++ eventsOf es' gs := by
  rw [eventsOf, List.zip_append h.symm, List.filterMap_append, eventsOf, eventsOf]

theorem failuresOf_append (h : fs.length = es.length) (es' : List Event) (gs : List Bool) :
    failuresOf (es ++ es') (fs ++ gs) = failuresOf es fs ++ failuresOf es' gs := by
  rw [failuresOf, List.zip_append h.symm, List.filterMap_append, failuresOf, failuresOf]

/-- The answers to two lists of attempts are the answers to each. -/
theorem exists_answers_append (h : fs.length = (es ++ es').length) :
    ∃ as bs, fs = as ++ bs ∧ as.length = es.length ∧ bs.length = es'.length := by
  rw [List.length_append] at h
  exact ⟨fs.take es.length, fs.drop es.length, (List.take_append_drop _ fs).symm, by simp [h], by simp [h]⟩

theorem mem_eventsOf {e : Event} : e ∈ eventsOf es fs ↔ (e, false) ∈ es.zip fs := by
  simp [eventsOf]

theorem mem_of_mem_eventsOf {e : Event} (h : e ∈ eventsOf es fs) : e ∈ es :=
  (List.of_mem_zip (mem_eventsOf.1 h)).1

theorem unclaim_providerOp_iff {e : Event} : e.providerOp = some (p, .unclaim) ↔ e = .unclaim p := by
  cases e <;> simp [Event.providerOp]

theorem unclaim_failed_iff :
    (p, OpError.hardwareUnavailable p .unclaim) ∈ failuresOf es fs ↔ (Event.unclaim p, true) ∈ es.zip fs := by
  simp only [failuresOf, List.mem_filterMap, Prod.exists]
  constructor
  · rintro ⟨e, b, hmem, h⟩
    cases b with
    | false => cases h
    | true =>
      obtain ⟨x, hx, hxe⟩ := Option.map_eq_some_iff.1 h
      obtain ⟨rfl, hop⟩ : x.1 = p ∧ x.2 = .unclaim := by simpa using hxe
      rwa [← unclaim_providerOp_iff.1 (show e.providerOp = some (x.1, .unclaim) by rw [hx, ← hop])]
  · intro h
    exact ⟨_, true, h, rfl⟩

/-- An attempt that is planned once either happens or fails. -/
theorem not_mem_eventsOf_iff {e : Event} (hnodup : es.Nodup) (hlen : fs.length = es.length) (he : e ∈ es) :
    e ∉ eventsOf es fs ↔ (e, true) ∈ es.zip fs := by
  have hmap : (es.zip fs).map Prod.fst = es := List.map_fst_zip hlen.ge
  have hinj : ∀ x ∈ es.zip fs, ∀ y ∈ es.zip fs, x.1 = y.1 → x = y :=
    List.inj_on_of_nodup_map (hmap.symm ▸ hnodup)
  rw [mem_eventsOf]
  refine ⟨fun hno => ?_, fun hyes hno => ?_⟩
  · obtain ⟨⟨e', b⟩, hmem, rfl⟩ := List.mem_map.1 (hmap.symm ▸ he)
    cases b with
    | false => exact absurd hmem hno
    | true => exact hmem
  · cases hinj _ hyes _ hno rfl

/-- Where every attempt succeeds, all of them happen and none fails. -/
theorem eventsOf_served (es : List Event) : eventsOf es (List.replicate es.length false) = es := by
  induction es with
  | nil => rfl
  | cons e es ih => simpa [eventsOf, List.replicate_succ] using ih

theorem failuresOf_served (es : List Event) : failuresOf es (List.replicate es.length false) = [] := by
  induction es with
  | nil => rfl
  | cons e es ih => simpa [failuresOf, List.replicate_succ] using ih

/-! ## The state after some attempts -/

/-- The state after the attempts `es`, to which the provider's answers are `fs`; `l` are the draws after them. -/
def State.attempted (s : State) (es : List Event) (fs l : List Bool) : State :=
  s.afterEvents (eventsOf es fs) l s.env.reads

theorem State.attempted_append (h : fs.length = es.length) (s : State) (es' : List Event) (gs l l' : List Bool) :
    s.attempted (es ++ es') (fs ++ gs) l = (s.attempted es fs l').attempted es' gs l := by
  rw [State.attempted, State.attempted, State.attempted, State.afterEvents_afterEvents, eventsOf_append h]
  rfl

theorem State.attempted_nil (s : State) : s.attempted [] [] s.env.fails = s := by
  simp [State.attempted, eventsOf, State.afterEvents]

section
variable (s : State) (es : List Event) (fs l : List Bool)

@[simp] theorem State.attempted_cfg : (s.attempted es fs l).cfg = s.cfg := rfl
@[simp] theorem State.attempted_snap : (s.attempted es fs l).snap = s.snap := rfl
@[simp] theorem State.attempted_mismatches : (s.attempted es fs l).mismatches = s.mismatches := rfl
@[simp] theorem State.attempted_err : (s.attempted es fs l).err = s.err := rfl
@[simp] theorem State.attempted_results : (s.attempted es fs l).results = s.results := rfl
@[simp] theorem State.attempted_fails : (s.attempted es fs l).env.fails = l := rfl
@[simp] theorem State.attempted_trace : (s.attempted es fs l).trace = s.trace ++ eventsOf es fs := rfl

end

theorem State.attempted_tracked (h : ∀ q, Event.claim q ∉ es) : (s.attempted es fs l).tracked = s.tracked :=
  trackedAfter_foldl s.tracked _ fun q hq => h q (mem_of_mem_eventsOf hq)

/-- R61, R65: events that claim no pin leave those acquired that they do not release. -/
theorem acquired_foldl_after (h : ∀ q, Event.claim q ∉ es) (t : PinTable) (p : Pin) :
    ((es.foldl PinTable.after t).get p).acquired = true ↔ (t.get p).acquired = true ∧ .unclaim p ∉ es := by
  induction es generalizing t with
  | nil => simp
  | cons e es ih =>
    have hevent : ((t.after e).get p).acquired = true ↔ (t.get p).acquired = true ∧ .unclaim p ≠ e := by
      cases e with
      | claim q => exact absurd List.mem_cons_self (h q)
      | dir q d => by_cases hq : p = q <;> simp [hq]
      | wr q b => by_cases hq : p = q <;> simp [hq, PinRec.withLevel]
      | unclaim q => by_cases hq : p = q <;> simp [hq, PinRec.reset]
      | rd | hold => simp
    rw [List.foldl_cons, ih (fun q hq => h q (List.mem_cons_of_mem _ hq)), hevent, List.mem_cons, not_or, and_assoc]

theorem State.attempted_acquired (h : ∀ q, Event.claim q ∉ es) :
    ((s.attempted es fs l).pin p).acquired = true ↔ (s.pin p).acquired = true ∧ .unclaim p ∉ eventsOf es fs := by
  rw [State.pin_eq, State.pin_eq]
  exact acquired_foldl_after (fun q hq => h q (mem_of_mem_eventsOf hq)) s.pins p

/-- Attempts that neither claim nor release a pin leave it acquired or not, as it was. -/
theorem State.attempted_acquired_kept (h : ∀ q, Event.claim q ∉ es) (hp : .unclaim p ∉ es) :
    ((s.attempted es fs l).pin p).acquired = (s.pin p).acquired := by
  rw [Bool.eq_iff_iff, State.attempted_acquired h]
  exact and_iff_left fun hmem => hp (mem_of_mem_eventsOf hmem)

/-! ## One attempt (R92) -/

/-- R92 `try … on error e`: an operation that is one provider operation is one attempt. -/
theorem collect_performs {x : Op Unit} {e : Event} {op : ProviderOp} {b : Bool} (hx : Performs x s ⟨⟩ [e])
    (hop : e.providerOp = some (p, op)) (hread : readBits [e] = []) (h : s.env.fails = b :: l) :
    collect p x (pre, s) = (pre ++ failuresOf [e] [b], s.attempted [e] [b] l) := by
  have hnone : Presents s [] s.env.reads := rfl
  cases b with
  | false =>
    have hserves : Serves s (providerOps [e]).length l := by rw [providerOps_cons_some hop]; exact h
    rw [collect, hx.served l _ hserves (hread ▸ hnone)]
    simp [failuresOf, State.attempted, eventsOf]
  | true =>
    have hfirst : FirstFailure s [e] 0 l s.env.reads :=
      .inl ⟨h, by rw [eventsBefore_zero_cons_some hop]; exact hnone⟩
    have herr : errorAt 0 [e] = some (.hardwareUnavailable p op) := by
      rw [errorAt, providerOps_cons_some hop]
      rfl
    rw [collect, hx.stopped 0 _ l _ herr hfirst, eventsBefore_zero_cons_some hop]
    simp [failuresOf, hop, State.attempted, eventsOf]

theorem performs_pinRelease_held (h : (s.pin p).acquired = true) : Performs (pinRelease p) s ⟨⟩ [.unclaim p] := by
  refine performs_of_emits rfl nofun (fun l hl => ?_) fun l hl => pinRelease_failed h hl
  rw [pinRelease_held h hl]
  cases p <;> rfl

/-! ## The loop over the tracked pins (R92) -/

theorem claim_not_mem_releaseEvents (p q : Pin) : Event.claim q ∉ releaseEvents p := by simp [releaseEvents]

/-- R92: the two attempts for one acquired pin; the second is made whatever the answer to the first. -/
theorem collect_release (hacq : (s.pin p).acquired = true) (h : s.env.fails = fs ++ l)
    (hlen : fs.length = (releaseEvents p).length) :
    collect p (pinRelease p) (collect p (pinSetDir p .dirIn) (pre, s)) =
      (pre ++ failuresOf (releaseEvents p) fs, s.attempted (releaseEvents p) fs l) := by
  obtain ⟨a, b, rfl⟩ := List.length_eq_two.1 hlen
  have hheld : ((s.attempted [.dir p .dirIn] [a] (b :: l)).pin p).acquired = true := by
    rw [State.attempted_acquired_kept (by simp) (by simp), hacq]
  rw [collect_performs (l := b :: l) (performs_pinSetDir_held .dirIn hacq) rfl rfl h,
    collect_performs (performs_pinRelease_held hheld) rfl rfl rfl, List.append_assoc,
    ← failuresOf_append rfl, ← State.attempted_append rfl]
  rfl

/-- R92: what the teardown attempts for a pin. -/
def pinPlan (s : State) (p : Pin) : List Event := if (s.pin p).acquired then releaseEvents p else []

theorem mem_pinPlan {e : Event} :
    e ∈ pinPlan s p ↔ (s.pin p).acquired = true ∧ (e = .dir p .dirIn ∨ e = .unclaim p) := by
  unfold pinPlan
  cases (s.pin p).acquired <;> simp [releaseEvents]

theorem pinPlan_nodup (s : State) (p : Pin) : (pinPlan s p).Nodup := by
  unfold pinPlan
  split <;> simp [releaseEvents]

/-- R92: what the teardown attempts for some pins. -/
def releasePlan (s : State) (ps : List Pin) : List Event := ps.flatMap (pinPlan s)

theorem mem_releasePlan {e : Event} {ps : List Pin} :
    e ∈ releasePlan s ps ↔ ∃ p ∈ ps, (s.pin p).acquired = true ∧ (e = .dir p .dirIn ∨ e = .unclaim p) := by
  simp only [releasePlan, List.mem_flatMap, mem_pinPlan]

theorem releasePlan_cons (s : State) (p : Pin) (ps : List Pin) :
    releasePlan s (p :: ps) = pinPlan s p ++ releasePlan s ps := rfl

theorem releasePlan_congr {t : State} {ps : List Pin} (h : ∀ q ∈ ps, (t.pin q).acquired = (s.pin q).acquired) :
    releasePlan t ps = releasePlan s ps :=
  List.flatMap_congr fun q hq => by rw [pinPlan, pinPlan, h q hq]

/-- R92, R93: the loop makes exactly the attempts planned when it begins, since no attempt for one pin changes whether
another is acquired. -/
theorem teardownPins_run {ps : List Pin} (hps : ps.Nodup) (h : s.env.fails = fs ++ l)
    (hlen : fs.length = (releasePlan s ps).length) :
    teardownPins ps (pre, s) =
      (pre ++ failuresOf (releasePlan s ps) fs, s.attempted (releasePlan s ps) fs l) := by
  induction ps generalizing fs pre s with
  | nil =>
    obtain rfl : fs = [] := List.eq_nil_of_length_eq_zero hlen
    obtain rfl : s.env.fails = l := h
    simp [teardownPins, releasePlan, failuresOf, State.attempted_nil]
  | cons p ps ih =>
    obtain ⟨hp, hps⟩ := List.nodup_cons.1 hps
    rw [releasePlan_cons, pinPlan] at hlen ⊢
    rw [teardownPins]
    by_cases hacq : (s.pin p).acquired = true
    · rw [if_pos hacq] at hlen
      obtain ⟨as, bs, rfl, has, hbs⟩ := exists_answers_append hlen
      rw [List.append_assoc] at h
      have hsame : releasePlan (s.attempted (releaseEvents p) as (bs ++ l)) ps = releasePlan s ps :=
        releasePlan_congr fun q hq => State.attempted_acquired_kept (claim_not_mem_releaseEvents p) (by
          rintro hmem
          obtain rfl : q = p := by simpa [releaseEvents] using hmem
          exact hp hq)
      rw [if_pos hacq, if_pos hacq, collect_release hacq h has, ih hps rfl (by rw [hsame, hbs]), hsame,
        List.append_assoc, ← failuresOf_append has, ← State.attempted_append has]
    · rw [if_neg hacq, List.nil_append] at hlen
      rw [if_neg hacq, if_neg hacq, List.nil_append, ih hps h hlen]

/-! ## The whole teardown (R92, R93) -/

/-- R92: the attempt to drive `RST` high, if it is to be made. -/
def drivePlan (s : State) : List Event :=
  if (s.pin .rst).acquired ∧ s.cfg.exitResetMode = .driveHigh then [driveEvent s .rst true] else []

theorem exitEvents_eq (s : State) : exitEvents s = drivePlan s ++ releasePlan s s.tracked := rfl

theorem driveEvent_rst_high (s : State) : driveEvent s .rst true = .dir .rst .dirHigh ∨
    driveEvent s .rst true = .wr .rst true := by
  unfold driveEvent
  split
  · exact .inl rfl
  · exact .inr rfl

theorem mem_drivePlan {e : Event} (h : e ∈ drivePlan s) : e = .dir .rst .dirHigh ∨ e = .wr .rst true := by
  unfold drivePlan at h
  split at h
  · rw [List.mem_singleton.1 h]; exact driveEvent_rst_high s
  · cases h

theorem releaseReset_run (h : s.env.fails = fs ++ l) (hlen : fs.length = (drivePlan s).length) :
    releaseReset s = (failuresOf (drivePlan s) fs, s.attempted (drivePlan s) fs l) := by
  unfold drivePlan at hlen ⊢
  unfold releaseReset
  split at hlen
  next hif =>
    obtain ⟨b, rfl⟩ := List.length_eq_one_iff.1 hlen
    obtain ⟨op, hop⟩ : ∃ op, (driveEvent s .rst true).providerOp = some (.rst, op) := by
      rcases driveEvent_rst_high s with he | he <;> rw [he] <;> exact ⟨_, rfl⟩
    have hread : readBits [driveEvent s .rst true] = [] := by
      rcases driveEvent_rst_high s with he | he <;> rw [he] <;> rfl
    rw [if_pos hif, if_pos hif, collect_performs (l := l) (performs_pinEnsureOutWrite_held true hif.1) hop hread h,
      List.nil_append]
  next hif =>
    obtain rfl : fs = [] := List.eq_nil_of_length_eq_zero hlen
    obtain rfl : s.env.fails = l := h
    rw [if_neg hif, if_neg hif, State.attempted_nil]
    rfl

theorem claim_not_mem_drivePlan (s : State) (q : Pin) : Event.claim q ∉ drivePlan s := fun h => by
  rcases mem_drivePlan h with h | h <;> cases h

theorem unclaim_not_mem_drivePlan (s : State) (q : Pin) : Event.unclaim q ∉ drivePlan s := fun h => by
  rcases mem_drivePlan h with h | h <;> cases h

/-- R61: a teardown claims no pin. -/
theorem claim_not_mem_exitEvents (s : State) (q : Pin) : Event.claim q ∉ exitEvents s := by
  rw [exitEvents_eq, List.mem_append, mem_releasePlan]
  rintro (h | ⟨p, _, _, h | h⟩)
  · exact claim_not_mem_drivePlan s q h
  · cases h
  · cases h

/-- R92, R93: the teardown makes the attempts of `EXIT`, whatever the answers, and ends in `Exited`. -/
theorem teardown_run (hnodup : s.tracked.Nodup) (h : s.env.fails = fs ++ l)
    (hlen : fs.length = (exitEvents s).length) :
    teardown s = (failuresOf (exitEvents s) fs, (s.attempted (exitEvents s) fs l).withState .exited) := by
  rw [exitEvents_eq] at hlen ⊢
  obtain ⟨as, bs, rfl, has, hbs⟩ := exists_answers_append hlen
  rw [List.append_assoc] at h
  have hsame : releasePlan (s.attempted (drivePlan s) as (bs ++ l)) s.tracked = releasePlan s s.tracked :=
    releasePlan_congr fun q _ =>
      State.attempted_acquired_kept (claim_not_mem_drivePlan s) (unclaim_not_mem_drivePlan s q)
  rw [teardown, releaseReset_run h has, teardownPins_run hnodup rfl (by rw [hsame, hbs]), hsame,
    ← failuresOf_append has, ← State.attempted_append has]

/-! ## `EXIT` (R92, R93, R107) -/

theorem exec_exit_live (hs : s.state ≠ .exited) : exec .exit s = .next (completeExit s) := by
  have ha : admits .exit s.state = true := by
    revert hs
    cases s.state <;> simp [admits]
  rw [exec_exit, guarded, if_pos ha]

/-- Every attempt of `EXIT` is planned once, as no pin is tracked twice. -/
theorem exitEvents_nodup (hnodup : s.tracked.Nodup) : (exitEvents s).Nodup := by
  have hdrive : (drivePlan s).Nodup := by
    unfold drivePlan
    split <;> simp
  have hrelease : (releasePlan s s.tracked).Nodup := by
    refine List.nodup_flatMap.2 ⟨fun p _ => pinPlan_nodup s p, hnodup.imp fun hpq e hp hq => ?_⟩
    rcases (mem_pinPlan.1 hp).2 with rfl | rfl <;> rcases (mem_pinPlan.1 hq).2 with h | h <;> cases h <;> exact hpq rfl
  rw [exitEvents_eq]
  refine hdrive.append hrelease fun e hd hr => ?_
  obtain ⟨p, _, _, hr⟩ := mem_releasePlan.1 hr
  rcases mem_drivePlan hd with rfl | rfl <;> rcases hr with h | h <;> cases h

theorem unclaim_mem_exitEvents (ht : p ∈ s.tracked) (hacq : (s.pin p).acquired = true) :
    .unclaim p ∈ exitEvents s :=
  List.mem_append_right _ (mem_releasePlan.2 ⟨p, ht, hacq, .inr rfl⟩)

/-- Settles O29: the teardown makes its attempts, and a release planned once happens or fails. -/
theorem exitAggregatesFailures : Obligations.ExitAggregatesFailures := by
  intro s fs l hs hnodup hfails hlen
  have hrun := teardown_run hnodup hfails hlen
  have htracked : (s.attempted (exitEvents s) fs l).tracked = s.tracked :=
    State.attempted_tracked (claim_not_mem_exitEvents s)
  have hreleased : ∀ p, p ∈ s.tracked → (s.pin p).acquired = true →
      (((s.attempted (exitEvents s) fs l).pin p).acquired = true ↔
        (p, OpError.hardwareUnavailable p .unclaim) ∈ failuresOf (exitEvents s) fs) := fun p ht hacq => by
    rw [State.attempted_acquired (claim_not_mem_exitEvents s), and_iff_right hacq, unclaim_failed_iff,
      not_mem_eventsOf_iff (exitEvents_nodup hnodup) hlen (unclaim_mem_exitEvents ht hacq)]
  refine ⟨completeExit s, exec_exit_live hs, completeExit_state s, ?_⟩
  unfold completeExit
  simp only [hrun]
  split
  · exact ⟨rfl, rfl, rfl, rfl, hreleased, rfl, rfl, htracked, rfl⟩
  · exact ⟨by simp, by simp, by simp, by simp, fun p ht hacq => by simpa using hreleased p ht hacq, by simp, by simp,
      by simp [htracked], by simp⟩

/-- R92: where the provider serves `EXIT`, all its attempts happen. -/
theorem exec_exit_served (hs : s.state ≠ .exited) (hnodup : s.tracked.Nodup) (hl : Serves s (exitEvents s).length l) :
    exec .exit s = .next
      (((s.afterLines (exitEvents s) ((exitEvents s).foldl PinTable.after s.pins) l s.env.reads).withState
        .exited).addResult (.ok .unit)) := by
  have hrun := teardown_run hnodup hl List.length_replicate
  rw [failuresOf_served, State.attempted, eventsOf_served,
    State.afterEvents_eq _ _ _ _ (claim_not_mem_exitEvents s)] at hrun
  rw [exec_exit_live hs, completeExit, hrun, if_pos rfl]

/-- R92: the events of `EXIT` leave no pin acquired, as every acquired pin is tracked. -/
theorem not_acquired_after_exitEvents (htracked : ∀ p, (s.pin p).acquired = true → p ∈ s.tracked) (p : Pin) :
    (((exitEvents s).foldl PinTable.after s.pins).get p).acquired = false := by
  rw [Bool.eq_false_iff, ne_eq, acquired_foldl_after (claim_not_mem_exitEvents s), ← State.pin_eq]
  rintro ⟨hacq, hkept⟩
  exact hkept (unclaim_mem_exitEvents (htracked p hacq) hacq)

theorem PinTable.eq_of_get {t t' : PinTable} (h : ∀ p, t.get p = t'.get p) : t = t' := by
  obtain ⟨rst, clk, dat⟩ := t
  obtain ⟨rst', clk', dat'⟩ := t'
  obtain rfl : rst = rst' := h .rst
  obtain rfl : clk = clk' := h .clk
  obtain rfl : dat = dat' := h .dat
  rfl

/-- Settles O28: all attempts happen, and by the records' invariant a pin that is not acquired has the record of R16. -/
theorem exitReleasesEveryPin : Obligations.ExitReleasesEveryPin := by
  intro s l hs hinv hl
  have hexec := exec_exit_served hs hinv.trackedOnce hl
  have hreset : ∀ p, ((exitEvents s).foldl PinTable.after s.pins).get p = PinRec.reset := fun p => by
    have hsound := (exec_actions recordsInv_actions .exit nofun hexec hinv).pinsSound p
    rw [State.addResult_pin, State.withState_pin, State.afterLines_pin] at hsound
    exact hsound.2 (not_acquired_after_exitEvents hinv.acquiredTracked p)
  have hpins : (exitEvents s).foldl PinTable.after s.pins =
      { rst := PinRec.reset, clk := PinRec.reset, dat := PinRec.reset } :=
    PinTable.eq_of_get fun p => by rw [hreset]; cases p <;> rfl
  rw [hexec, hpins]
  rfl

end Sys2Proof.Machine
end

section
/-! PROOFS. A run of `VERIFY` as a list of commands (spec/44_verification.md R97, spec/60_exceptions.md R114): the
passes are the commands of `verifySteps` with a boundary before each. -/

namespace Sys2Proof.Machine

variable {α β : Type} {s t : State}

/-! ## The commands of a run, in order (R97) -/

/-- R97: a command of `VERIFY`, with the record or the comparison that follows a read. -/
def VerifyStep.command : VerifyStep → Op Unit
  | .load => loadConfig 0
  | .read i k => do
    let a := (← get).cfg.verifyBase + k
    let v ← readData
    checkWord i a v
  | .inc => incAddr
  | .reset => resetAddr

/-- R114: commands with a boundary before each. -/
def runSteps : List VerifyStep → Op Unit
  | [] => pure ()
  | x :: xs => do
    boundary
    x.command
    runSteps xs

theorem runSteps_append (xs ys : List VerifyStep) :
    runSteps (xs ++ ys) = runSteps xs >>= fun _ => runSteps ys := by
  induction xs with
  | nil => exact (pure_bind PUnit.unit fun _ => runSteps ys).symm
  | cons x xs ih => simp only [List.cons_append, runSteps, ih, bind_assoc]

/-- R97: the commands for some words of pass `i`. -/
def wordSteps (i : Nat) (ks : List Nat) : List VerifyStep := ks.flatMap fun k => [.read i k, .inc]

/-- R97: the commands of pass `i` over `c` words. -/
def passSteps (c i : Nat) : List VerifyStep := [.load] ++ wordSteps i (List.range c) ++ [.reset]

theorem verifySteps_eq (n c : Nat) : verifySteps n c = (List.range n).flatMap (passSteps c) := rfl

theorem verifyWords_eq (i k n : Nat) : verifyWords i k n = runSteps (wordSteps i (List.range' k n)) := by
  induction n generalizing k with
  | zero => rfl
  | succ n ih =>
    have hcons : wordSteps i (List.range' k (n + 1)) = .read i k :: .inc :: wordSteps i (List.range' (k + 1) n) := by
      simp [wordSteps, List.range'_succ]
    rw [verifyWords, ih, hcons]
    simp only [runSteps, verifyWord, VerifyStep.command, bind_assoc]

theorem keeps_cfg_boundary : Keeps (fun s t => t.cfg = s.cfg) boundary := keeps_boundary cfgKept_actions

/-- Two operations that begin with the same part run alike as soon as their rests do, under the same parameters. -/
theorem run_bind_congr {x : Op α} {f g : α → Op β} (hx : Keeps (fun s t => t.cfg = s.cfg) x)
    (h : ∀ a t, t.cfg = s.cfg → (f a).run t = (g a).run t) : (x >>= f).run s = (x >>= g).run s := by
  have hcfg := hx s
  rw [op_bind, op_bind]
  cases hrun : x.run s with
  | ok a t => rw [hrun] at hcfg; exact h a t hcfg
  | error e t => rfl

/-- R97: pass `i` and what follows it, after its first command. -/
theorem verifyPass_bind_run (i : Nat) (f : Unit → Op β) :
    (verifyPass i >>= f).run s = (do
      VerifyStep.load.command
      runSteps (wordSteps i (List.range s.cfg.verifyCount) ++ [.reset])
      f ⟨⟩ : Op β).run s := by
  rw [verifyPass, bind_assoc]
  refine run_bind_congr (keeps_writeCommand cfgKept_actions.toLineActions 0x00 0) fun _ t hcfg => ?_
  rw [bind_assoc, op_bind_ok (op_get t), hcfg, verifyWords_eq, ← List.range_eq_range', runSteps_append]
  simp only [runSteps, VerifyStep.command, bind_assoc, pure_bind]

theorem boundary_verifyPass_bind_run (i : Nat) (f : Unit → Op β) :
    (do boundary; verifyPass i; f ⟨⟩ : Op β).run s = (runSteps (passSteps s.cfg.verifyCount i) >>= f).run s := by
  simp only [passSteps, List.cons_append, List.nil_append, runSteps, bind_assoc]
  refine run_bind_congr keeps_cfg_boundary fun _ t hcfg => ?_
  rw [← hcfg]
  exact verifyPass_bind_run i f

/-- R97, R114: passes with a boundary before each are their commands with a boundary before each. -/
theorem boundary_verifyPasses_run (i n : Nat) :
    (do boundary; verifyPass i; verifyPasses (i + 1) n : Op Unit).run s =
      (runSteps ((List.range' i (n + 1)).flatMap (passSteps s.cfg.verifyCount))).run s := by
  induction n generalizing i s with
  | zero => simpa [verifyPasses, List.range'_one] using boundary_verifyPass_bind_run (s := s) i pure
  | succ n ih =>
    have hrest : (do boundary; verifyPass i; verifyPasses (i + 1) (n + 1) : Op Unit).run s = (do
        boundary
        verifyPass i
        runSteps ((List.range' (i + 1) (n + 1)).flatMap (passSteps s.cfg.verifyCount)) : Op Unit).run s := by
      refine run_bind_congr keeps_cfg_boundary fun _ t ht => ?_
      refine run_bind_congr (keeps_verifyPass cfgKept_actions i) fun _ u hu => ?_
      rw [← ht, ← hu]
      exact ih (i + 1)
    refine hrest.trans ?_
    rw [boundary_verifyPass_bind_run i fun _ => runSteps _, ← runSteps_append, List.range'_succ (s := i),
      List.flatMap_cons]

/-! ## Boundaries (R114) -/

section
variable {q : List Bool} (h : s.irqPending = false)
include h

theorem boundary_undisturbed (hq : s.env.irqs = false :: q) : boundary.run s = .ok ⟨⟩ (s.withIrqs q) := by
  have hdraw : drawIrq.run s = .ok false (s.withIrqs q) := by simp only [drawIrq, EStateM.run, hq]
  rw [boundary, op_bind_ok hdraw, op_bind_ok (op_get _), if_neg (by simp [h]), op_pure]

theorem boundary_disturbed (hq : s.env.irqs = true :: q) : boundary.run s = .error .interrupted (s.withIrqs q) := by
  have hdraw : drawIrq.run s = .ok true (s.withIrqs q) := by simp only [drawIrq, EStateM.run, hq]
  have htaken : (s.withIrqs q).withIrqPending false = s.withIrqs q := by
    simp [State.withIrqPending, State.withIrqs, ← h]
  rw [boundary, op_bind_ok hdraw, op_bind_ok (op_get _), if_pos (by simp), op_bind_ok (op_modify _ _), op_throw, htaken]

end

/-- R91: the first command is admitted in both programming states alike. -/
theorem loadConfig_run_programming (hp : Programming s) (d : Nat) :
    (loadConfig d).run s = (loadConfig d).run (s.withState .programmingMode) := by
  rw [loadConfig, writeCommand, op_bind_ok (commandAdmit_programming hp),
    op_bind_ok (commandAdmit_programming (s := s.withState .programmingMode) (.inr rfl))]
  rfl

/-- R97, R114: a run of at least one pass is its commands with a boundary before each, where no request comes before the
first. -/
theorem verifyPasses_run (hp : Programming s) (h : s.irqPending = false) (n : Nat) :
    (verifyPasses 0 (n + 1)).run s = (runSteps (verifySteps (n + 1) s.cfg.verifyCount)).run
      ((s.withState .programmingMode).withIrqs (false :: s.env.irqs)) := by
  have hboundary : boundary.run ((s.withState .programmingMode).withIrqs (false :: s.env.irqs)) =
      .ok ⟨⟩ (s.withState .programmingMode) := boundary_undisturbed h rfl
  rw [verifySteps_eq, List.range_eq_range']
  refine Eq.trans ?_ ((op_bind_ok hboundary).symm.trans (boundary_verifyPasses_run 0 n))
  simp only [verifyPasses, passBoundary, if_pos, pure_bind, verifyPass, bind_assoc]
  rw [op_bind, op_bind, loadConfig_run_programming hp]

end Sys2Proof.Machine
end

section
/-! PROOFS. What the commands of a `VERIFY` leave (spec/44_verification.md R97 to R99, spec/60_exceptions.md R111): each
performs its events in `ProgrammingMode`, and the state after some of them is fixed by their list. -/

namespace Sys2Proof.Machine

variable {α : Type} {s t : State} {B : Nat → Nat → List Bit} {steps : List VerifyStep} {x : VerifyStep} {i k : Nat}

/-! ## The events of one command -/

theorem claim_not_mem_controlEvents (op : Nat) (d : Delay) (p : Pin) : Event.claim p ∉ controlEvents op d := by
  simp [controlEvents, claim_not_mem_sendEvents]

theorem claim_not_mem_writeEvents (op d : Nat) (p : Pin) : Event.claim p ∉ writeEvents op d := by
  simp [writeEvents, claim_not_mem_sendEvents]

theorem claim_not_mem_readEvents (bs : List Bit) (p : Pin) : Event.claim p ∉ readEvents bs := by
  simp [readEvents, claim_not_mem_sendEvents, recvEvents, recvSlot]

theorem claim_not_mem_events (B : Nat → Nat → List Bit) (x : VerifyStep) (p : Pin) : Event.claim p ∉ x.events B := by
  cases x with
  | load => exact claim_not_mem_writeEvents 0x00 0 p
  | read i k => exact claim_not_mem_readEvents (B i k) p
  | inc | reset => exact claim_not_mem_controlEvents _ .tCmd p

theorem readBits_sendEvents (v n : Nat) : readBits (sendEvents v n) = [] := by
  refine List.filterMap_eq_nil_iff.2 fun e he => ?_
  simp only [sendEvents, sendSlot, List.mem_flatMap, List.mem_cons, List.not_mem_nil, or_false] at he
  obtain ⟨k, _, rfl | rfl | rfl | rfl | rfl⟩ := he <;> rfl

theorem readBits_recvEvents (bs : List Bit) : readBits (recvEvents bs) = bs := by
  induction bs with
  | nil => rfl
  | cons b bs ih =>
    rw [recvEvents, List.flatMap_cons, readBits_append, ← recvEvents, ih]
    rfl

theorem readBits_controlEvents (op : Nat) (d : Delay) : readBits (controlEvents op d) = [] := by
  rw [controlEvents, readBits_append, readBits_sendEvents]
  rfl

theorem readBits_writeEvents (op d : Nat) : readBits (writeEvents op d) = [] := by
  simp only [writeEvents, readBits_append, readBits_sendEvents]
  rfl

theorem readBits_readEvents (bs : List Bit) : readBits (readEvents bs) = bs := by
  simp only [readEvents, readBits_append, readBits_sendEvents, readBits_recvEvents]
  simp [readBits]

section
variable {ps : PinTable} (hclk : ps.clk = drivenLow)
include hclk

theorem controlEvents_after (op : Nat) (d : Delay) :
    (controlEvents op d).foldl PinTable.after ps = { ps with dat := sentRec ps.dat op 6 } := by
  rw [controlEvents, List.foldl_append, sendEvents_after hclk]
  rfl

theorem writeEvents_after (op d : Nat) :
    (writeEvents op d).foldl PinTable.after ps = { ps with dat := sentRec (sentRec ps.dat op 6) (2 * d) 16 } := by
  simp only [writeEvents, List.foldl_append, sendEvents_after hclk, List.foldl_cons, List.foldl_nil,
    PinTable.after_hold]
  rw [sendEvents_after (ps := { ps with dat := sentRec ps.dat op 6 }) hclk]

theorem readEvents_after (bs : List Bit) (hacq : ps.dat.acquired = true) :
    (readEvents bs).foldl PinTable.after ps =
      { ps with dat := { acquired := true, dir := .output, level := none } } := by
  simp only [readEvents, List.foldl_append, sendEvents_after hclk, List.foldl_cons, List.foldl_nil, PinTable.after_hold,
    PinTable.after_dir, PinTable.set_dat, PinTable.get_dat]
  rw [recvEvents_after (ps := { ps with dat := (sentRec ps.dat 0x04 6).withDir .dirIn }) hclk]
  simp [PinRec.withDir, sentRec_acquired, hacq]

end

/-! ## The commands in `ProgrammingMode` -/

/-- A command that stops precisely, and that leaves its events and their pins when it is served, performs its events. -/
theorem performs_of_lines {x : Op α} {a : α} {es : List Event} (ht : t.state = .programmingMode)
    (hclaim : ∀ p, Event.claim p ∉ es) (hstop : StopsPrecisely x t es .programmingMode)
    (hserved : ∀ l r, x.run (t.afterLines [] t.pins (List.replicate (providerOps es).length false ++ l)
      ((readBits es).map bitContent ++ r)) =
        .ok a ((t.withState .programmingMode).afterLines ([] ++ es) (es.foldl PinTable.after t.pins) l r)) :
    Performs x t a es where
  served l r hl hr := by
    have hrun := hserved l r
    have hstate : t.withState .programmingMode = t := by rw [← ht]; rfl
    rwa [← hl, ← hr, State.afterLines_nil, hstate, List.nil_append, ← State.afterEvents_eq _ _ _ _ hclaim] at hrun
  stopped := by rw [← ht] at hstop; exact hstop

section
variable (ht : t.state = .programmingMode) (hready : SendReady t)
include ht hready

theorem performs_controlCommand (op : Nat) (d : Delay) : Performs (controlCommand op d) t ⟨⟩ (controlEvents op d) := by
  have ⟨hclk, hacq, hout⟩ := hready
  refine performs_of_lines ht (claim_not_mem_controlEvents op d)
    (controlCommand_stopsPrecisely (.inr ht) hready op d) fun l r => ?_
  rw [providerOps_controlEvents_length, readBits_controlEvents, controlEvents_after hclk]
  exact controlCommand_lines (.inr ht) hclk hacq hout

theorem performs_writeCommand (op d : Nat) : Performs (writeCommand op d) t ⟨⟩ (writeEvents op d) := by
  have ⟨hclk, hacq, hout⟩ := hready
  refine performs_of_lines ht (claim_not_mem_writeEvents op d)
    (writeCommand_stopsPrecisely (.inr ht) hready op d) fun l r => ?_
  rw [providerOps_writeEvents_length, readBits_writeEvents, writeEvents_after hclk]
  exact writeCommand_lines (.inr ht) hclk hacq hout

theorem performs_readData {bs : List Bit} (hb : bs.length = 16) :
    Performs readData t (readWordOf (valueOf bs)) (readEvents bs) := by
  have ⟨hclk, hacq, hout⟩ := hready
  refine performs_of_lines ht (claim_not_mem_readEvents bs)
    (readCommand_stopsPrecisely (.inr ht) hready hb) fun l r => ?_
  rw [providerOps_readEvents_length hb, readBits_readEvents, readEvents_after hclk bs hacq]
  exact readCommand_lines hb (.inr ht) hclk hacq hout

end

/-! ## The snapshot (R98) -/

/-- R98: the snapshot after a command: a read of pass 0 is recorded. -/
def VerifyStep.recorded (base : Nat) (B : Nat → Nat → List Bit) (m : Memory) : VerifyStep → Memory
  | .read i k => if i = 0 then Memory.write m (base + k) (wordRead B i k) else m
  | .load | .inc | .reset => m

/-- R98: the snapshot after some commands, from the empty one. -/
def snapAfter (base : Nat) (B : Nat → Nat → List Bit) (steps : List VerifyStep) : Memory :=
  steps.foldl (VerifyStep.recorded base B) []

theorem snapAfter_concat (base : Nat) (steps : List VerifyStep) (x : VerifyStep) :
    snapAfter base B (steps ++ [x]) = x.recorded base B (snapAfter base B steps) := List.foldl_concat ..

theorem wf_snapAfter (base : Nat) (steps : List VerifyStep) : Memory.wf (snapAfter base B steps) = true := by
  induction steps using List.reverseRecOn with
  | nil => rfl
  | append_singleton steps x ih =>
    rw [snapAfter_concat]
    cases x with
    | read i k =>
      simp only [VerifyStep.recorded]
      split
      · exact Memory.wf_write _ _ _ ih
      · exact ih
    | load | inc | reset => exact ih

theorem snapOf_concat_other {m : Memory} {base : Nat} (h : SnapOf m base B steps) (hx : ∀ k, x ≠ .read 0 k) :
    SnapOf m base B (steps ++ [x]) := by
  intro a w
  simp only [h a w, List.mem_append, List.mem_singleton, fun k => (hx k).symm, or_false]

theorem snapOf_write {m : Memory} {base : Nat} (hm : Memory.wf m = true) (h : SnapOf m base B steps) (k : Nat) :
    SnapOf (Memory.write m (base + k) (wordRead B 0 k)) base B (steps ++ [.read 0 k]) := by
  intro a w
  rw [Memory.read_write _ _ _ _ hm]
  simp only [List.mem_append, List.mem_singleton, VerifyStep.read.injEq, true_and]
  split
  next ha =>
    subst ha
    constructor
    · rintro ⟨⟩
      exact ⟨k, .inr rfl, rfl, rfl⟩
    · rintro ⟨k', _, hk, rfl⟩
      rw [Nat.add_left_cancel hk]
  next ha =>
    rw [h a w]
    refine exists_congr fun k' => and_congr_left fun ⟨hk, _⟩ => ?_
    have hne : k' ≠ k := by rintro rfl; exact ha hk
    simp [hne]

/-- R98: the snapshot holds the words of pass 0 and no other. -/
theorem snapOf_snapAfter (base : Nat) (steps : List VerifyStep) : SnapOf (snapAfter base B steps) base B steps := by
  induction steps using List.reverseRecOn with
  | nil => simp [SnapOf, snapAfter]
  | append_singleton steps x ih =>
    rw [snapAfter_concat]
    cases x with
    | read i k =>
      simp only [VerifyStep.recorded]
      split
      next hi => subst hi; exact snapOf_write (wf_snapAfter base steps) ih k
      next hi => exact snapOf_concat_other ih fun k' h => hi (VerifyStep.read.inj h).1
    | load | inc | reset => exact snapOf_concat_other ih nofun

end Sys2Proof.Machine
end

section
/-! PROOFS. A run of `VERIFY`, served or stopped (spec/44_verification.md R97 to R101, spec/60_exceptions.md R111,
R114): the state after some whole commands, what the next command makes of it, and from them the claims on a whole run,
on an interrupt at a boundary and on a failure inside a command. -/

namespace Sys2Proof.Machine

variable {s : State} {B : Nat → Nat → List Bit} {steps xs : List VerifyStep} {x : VerifyStep} {i k n : Nat}
  {es : List Event} {l q : List Bool} {r : List (List Char)}

/-! ## The state after some commands -/

/-- R98, R99: `State.inVerify` with the snapshot that the commands have left. -/
def State.afterSteps (s : State) (B : Nat → Nat → List Bit) (steps : List VerifyStep) (es : List Event) (l : List Bool)
    (r : List (List Char)) (q : List Bool) : State :=
  s.inVerify B steps (snapAfter s.cfg.verifyBase B steps) es l r q

theorem State.afterSteps_nil (s : State) (B : Nat → Nat → List Bit) (q : List Bool) :
    s.afterSteps B [] [] s.env.fails s.env.reads q =
      (((s.withSnap []).withMismatches []).withState .programmingMode).withIrqs q := by
  simp [State.afterSteps, State.inVerify, State.withSnap, State.withMismatches, State.withState, State.withIrqs,
    verifyReports, snapAfter]

theorem State.afterSteps_afterEvents {es' : List Event} (h : ∀ p, Event.claim p ∉ es') (l' : List Bool)
    (r' : List (List Char)) :
    (s.afterSteps B steps es l r q).afterEvents es' l' r' = s.afterSteps B steps (es ++ es') l' r' q := by
  rw [State.afterEvents_eq _ _ _ _ h]
  simp [State.afterSteps, State.inVerify, State.afterLines]

theorem verifyEvents_cons (B : Nat → Nat → List Bit) (x : VerifyStep) (xs : List VerifyStep) :
    verifyEvents B (x :: xs) = x.events B ++ verifyEvents B xs := List.flatMap_cons

theorem verifyEvents_append (B : Nat → Nat → List Bit) (steps xs : List VerifyStep) :
    verifyEvents B (steps ++ xs) = verifyEvents B steps ++ verifyEvents B xs := List.flatMap_append

theorem verifyEvents_concat (B : Nat → Nat → List Bit) (steps : List VerifyStep) (x : VerifyStep) :
    verifyEvents B (steps ++ [x]) = verifyEvents B steps ++ x.events B := by simp [verifyEvents]

theorem verifyReports_concat (base : Nat) (B : Nat → Nat → List Bit) (steps : List VerifyStep) (x : VerifyStep) :
    verifyReports base B (steps ++ [x]) = verifyReports base B steps ++ x.reports base B := by simp [verifyReports]

/-! ## The pins after some commands (R71, R80) -/

/-- The table with another level of `DAT`. -/
def PinTable.withDatLevel (ps : PinTable) (v : Option Bit) : PinTable := { ps with dat := { ps.dat with level := v } }

/-- R71, R80: the level of `DAT` after a command; a read leaves an output of no known level. -/
def VerifyStep.datLevel : VerifyStep → Option Bit
  | .read _ _ => none
  | .load | .inc | .reset => some false

/-- The level of `DAT` after some commands, from the level `v`. -/
def datLevelAfter (v : Option Bit) (steps : List VerifyStep) : Option Bit := steps.foldl (fun _ x => x.datLevel) v

section
variable {ps : PinTable} (hclk : ps.clk = drivenLow) (hacq : ps.dat.acquired = true) (hout : ps.dat.dir = .output)
include hclk hacq hout

theorem events_after (x : VerifyStep) : (x.events B).foldl PinTable.after ps = ps.withDatLevel x.datLevel := by
  cases x with
  | load =>
    rw [VerifyStep.events, writeEvents_after hclk, sentRec_low (by decide) (by decide), sentRec_acquired, sentRec_dir]
    rfl
  | read i k =>
    rw [VerifyStep.events, readEvents_after hclk _ hacq, ← hacq, ← hout]
    rfl
  | inc | reset =>
    rw [VerifyStep.events, controlEvents_after hclk, sentRec_low (by decide) (by decide)]
    rfl

/-- The commands of a run change no record but that of `DAT`, and there only the level. -/
theorem verifyEvents_after (steps : List VerifyStep) :
    (verifyEvents B steps).foldl PinTable.after ps = ps.withDatLevel (datLevelAfter ps.dat.level steps) := by
  induction steps generalizing ps with
  | nil => rfl
  | cons x steps ih =>
    rw [verifyEvents_cons, List.foldl_append, events_after hclk hacq hout,
      ih (ps := ps.withDatLevel x.datLevel) hclk hacq hout]
    rfl

end

theorem sendReady_afterSteps (h : SendReady s) : SendReady (s.afterSteps B steps (verifyEvents B steps) l r q) := by
  obtain ⟨hclk, hacq, hout⟩ := h
  simp only [SendReady, State.pin_eq, State.afterSteps, State.inVerify, verifyEvents_after hclk hacq hout]
  exact ⟨hclk, hacq, hout⟩

/-! ## One command (R97 to R99) -/

/-- R99: a read of a later pass comes after the read of pass 0 at the same word. -/
def ReadBefore (steps : List VerifyStep) : VerifyStep → Prop
  | .read i k => i ≠ 0 → .read 0 k ∈ steps
  | .load | .inc | .reset => True

/-- R98, R99: the word of pass 0 is recorded, and the word of a later pass is compared with it. -/
theorem checkWord_run (h : ReadBefore steps (.read i k)) :
    (checkWord i (s.cfg.verifyBase + k) (wordRead B i k)).run (s.afterSteps B steps es l r q) =
      .ok ⟨⟩ (s.afterSteps B (steps ++ [.read i k]) es l r q) := by
  unfold checkWord
  split
  next hi =>
    simp only [record, op_modify, State.withSnap, State.afterSteps, State.inVerify, snapAfter_concat,
      verifyReports_concat, VerifyStep.recorded, VerifyStep.reports, hi, true_or, if_pos, List.append_nil]
  next hi =>
    have hread : Memory.read (s.afterSteps B steps es l r q).snap (s.cfg.verifyBase + k) = some (wordRead B 0 k) :=
      (snapOf_snapAfter _ _ _ _).2 ⟨k, h hi, rfl, rfl⟩
    rw [compare, op_bind_ok (op_get _), hread]
    simp only [State.afterSteps, State.inVerify, snapAfter_concat, verifyReports_concat, VerifyStep.recorded,
      VerifyStep.reports, hi, false_or, if_false]
    by_cases heq : wordRead B 0 k = wordRead B i k
    · rw [if_pos heq, if_pos heq.symm, List.append_nil, op_pure]
    · rw [if_neg heq, if_neg (Ne.symm heq), op_modify]
      rfl

/-- A command that reads nothing leaves the snapshot and the reports as they are. -/
theorem State.afterSteps_concat_other (hx : ∀ i k, x ≠ .read i k) :
    s.afterSteps B (steps ++ [x]) es l r q = s.afterSteps B steps es l r q := by
  simp only [State.afterSteps, State.inVerify, snapAfter_concat, verifyReports_concat]
  cases x with
  | read i k => exact absurd rfl (hx i k)
  | load | inc | reset => simp only [VerifyStep.recorded, VerifyStep.reports, List.append_nil]

theorem performs_command {t : State} (ht : t.state = .programmingMode) (hready : SendReady t)
    (hx : ∀ i k, x ≠ .read i k) : Performs x.command t ⟨⟩ (x.events B) := by
  cases x with
  | load => exact performs_writeCommand ht hready 0x00 0
  | read i k => exact absurd rfl (hx i k)
  | inc | reset => exact performs_controlCommand ht hready _ .tCmd

theorem read_command_run (i k : Nat) (t : State) :
    (VerifyStep.read i k).command.run t = (readData >>= checkWord i (t.cfg.verifyBase + k)).run t :=
  op_bind_ok (op_get t)

section
variable (hrun : VerifyRun s B)
include hrun

theorem performs_read (i k : Nat) :
    Performs readData (s.afterSteps B steps (verifyEvents B steps) l r q) (wordRead B i k)
      ((VerifyStep.read i k).events B) :=
  performs_readData rfl (sendReady_afterSteps hrun.ready) (hrun.width i k)

/-- R97 to R99: a command that the provider serves ends whole. -/
theorem command_served (h : ReadBefore steps x) :
    x.command.run (s.afterSteps B steps (verifyEvents B steps)
        (List.replicate (providerOps (x.events B)).length false ++ l) ((readBits (x.events B)).map bitContent ++ r) q) =
      .ok ⟨⟩ (s.afterSteps B (steps ++ [x]) (verifyEvents B (steps ++ [x])) l r q) := by
  rw [verifyEvents_concat]
  by_cases hx : ∀ i k, x ≠ .read i k
  · rw [(performs_command rfl (sendReady_afterSteps hrun.ready) hx).served l r rfl rfl,
      State.afterSteps_afterEvents (claim_not_mem_events B x), State.afterSteps_concat_other hx]
  · obtain ⟨i, k, rfl⟩ : ∃ i k, x = .read i k := by simpa using hx
    rw [read_command_run, op_bind_ok ((performs_read hrun i k).served l r rfl rfl),
      State.afterSteps_afterEvents (claim_not_mem_events B (.read i k))]
    exact checkWord_run (s := s) h

/-- R101, R111: a command in which a provider operation fails stops there, with nothing recorded. -/
theorem command_stopped {j : Nat} {e : OpError} {l' : List Bool} {r' : List (List Char)}
    (he : errorAt j (x.events B) = some e)
    (hfail : FirstFailure (s.afterSteps B steps (verifyEvents B steps) l' r' q) (x.events B) j l r) :
    x.command.run (s.afterSteps B steps (verifyEvents B steps) l' r' q) =
      .error e (s.afterSteps B steps (verifyEvents B steps ++ eventsBefore j (x.events B)) l r q) := by
  have hclaim : ∀ p, Event.claim p ∉ eventsBefore j (x.events B) :=
    fun p hp => claim_not_mem_events B x p ((eventsBefore_prefix j _).subset hp)
  rw [← State.afterSteps_afterEvents (l := l') (r := r') hclaim]
  by_cases hx : ∀ i k, x ≠ .read i k
  · exact (performs_command rfl (sendReady_afterSteps hrun.ready) hx).stopped j e l r he hfail
  · obtain ⟨i, k, rfl⟩ : ∃ i k, x = .read i k := by simpa using hx
    rw [read_command_run]
    exact op_bind_error ((performs_read hrun i k).stopped j e l r he hfail)

end

/-! ## Some commands (R97, R114) -/

theorem boundary_afterSteps (hq : s.irqPending = false) :
    boundary.run (s.afterSteps B steps es l r (false :: q)) = .ok ⟨⟩ (s.afterSteps B steps es l r q) :=
  boundary_undisturbed (s := s.afterSteps B steps es l r (false :: q)) hq rfl

/-- R99: every read of a later pass comes after the read of pass 0 at the same word. -/
def ReadsBefore (steps : List VerifyStep) : Prop :=
  ∀ done x rest, steps = done ++ x :: rest → ReadBefore done x

theorem runSteps_served (hrun : VerifyRun s B) (hq : s.irqPending = false) (h : ReadsBefore (steps ++ xs)) :
    (runSteps xs).run (s.afterSteps B steps (verifyEvents B steps)
        (List.replicate (providerOps (verifyEvents B xs)).length false ++ l)
        ((readBits (verifyEvents B xs)).map bitContent ++ r) (List.replicate xs.length false ++ q)) =
      .ok ⟨⟩ (s.afterSteps B (steps ++ xs) (verifyEvents B (steps ++ xs)) l r q) := by
  induction xs generalizing steps with
  | nil => rw [List.append_nil]; rfl
  | cons x xs ih =>
    have hsplit : steps ++ x :: xs = steps ++ [x] ++ xs := by simp
    rw [runSteps, List.length_cons, List.replicate_succ, List.cons_append, op_bind_ok (boundary_afterSteps hq),
      verifyEvents_cons, providerOps_append, List.length_append, replicate_add_append, readBits_append, List.map_append,
      List.append_assoc, hsplit]
    refine (op_bind_ok (command_served hrun (h steps x xs rfl))).trans (ih ?_)
    rwa [← hsplit]

theorem read_mem_passSteps {c j : Nat} : VerifyStep.read i k ∈ passSteps c j ↔ i = j ∧ k < c := by
  simp [passSteps, wordSteps, and_comm]

theorem read_mem_verifySteps {c : Nat} : VerifyStep.read i k ∈ verifySteps n c ↔ i < n ∧ k < c := by
  simp [verifySteps_eq, read_mem_passSteps]

/-- R97: pass 0 is over before the first read of a later pass. -/
theorem readsBefore_verifySteps (n c : Nat) : ReadsBefore (verifySteps n c) := by
  intro done x rest hsteps
  cases x with
  | load | inc | reset => trivial
  | read i k =>
    intro hi
    obtain ⟨hn, hk⟩ : i < n ∧ k < c := read_mem_verifySteps.1 (by simp [hsteps])
    obtain ⟨m, rfl⟩ := Nat.exists_eq_succ_of_ne_zero (Nat.ne_zero_of_lt hn)
    rw [verifySteps_eq, List.range_succ_eq_map, List.flatMap_cons] at hsteps
    have hmem : VerifyStep.read 0 k ∈ passSteps c 0 := read_mem_passSteps.2 ⟨rfl, hk⟩
    rcases List.append_eq_append_iff.1 hsteps with ⟨later, rfl, _⟩ | ⟨_ | ⟨y, ys⟩, hpass, hrest⟩
    · exact List.mem_append_left _ hmem
    · rwa [hpass, List.append_nil] at hmem
    · obtain ⟨rfl, _⟩ := List.cons.inj hrest
      exact absurd (read_mem_passSteps.1 (hpass ▸ List.mem_append_right done List.mem_cons_self)).1 hi

theorem ReadsBefore.of_append (h : ReadsBefore (steps ++ xs)) : ReadsBefore steps := fun done x rest hsteps =>
  h done x (rest ++ xs) (by rw [hsteps, List.append_assoc, List.cons_append])

/-! ## The invocation (R96) -/

theorem admits_verify (h : Programming s) : admits .verify s.state = true := by
  rcases h with h | h <;> rw [h] <;> rfl

section
variable {t : State} (hp : Programming s)
include hp

theorem exec_verify_ok (h : (verifyPasses 0 n).run ((s.withSnap []).withMismatches []) = .ok ⟨⟩ t) :
    exec (.verify n) s = .next (t.addResult (.ok (.reports t.mismatches))) := by
  rw [exec_verify]
  refine invoke_ok (admits_verify hp) ?_
  rw [verifyAll, op_bind_ok (op_modify _ _), op_bind_ok h, op_bind_ok (op_get t), op_pure]

theorem exec_verify_error {e : OpError} (h : (verifyPasses 0 n).run ((s.withSnap []).withMismatches []) = .error e t) :
    exec (.verify n) s = .next (abort e t) := by
  rw [exec_verify]
  refine invoke_error (admits_verify hp) ?_
  rw [verifyAll, op_bind_ok (op_modify _ _), op_bind_error h]

theorem verifyPasses_afterSteps (hq : s.irqPending = false) (hn : n ≠ 0) :
    (verifyPasses 0 n).run ((s.withSnap []).withMismatches []) = (runSteps (verifySteps n s.cfg.verifyCount)).run
      (s.afterSteps B [] (verifyEvents B []) s.env.fails s.env.reads (false :: s.env.irqs)) := by
  obtain ⟨m, rfl⟩ := Nat.exists_eq_succ_of_ne_zero hn
  rw [show verifyEvents B [] = [] from rfl, State.afterSteps_nil]
  exact verifyPasses_run (s := (s.withSnap []).withMismatches []) hp hq m

end

/-- Settles O33: without a pass, only the snapshot and the reports are written. -/
theorem verifyZeroClears : Obligations.VerifyZeroClears := fun _ hp => exec_verify_ok (n := 0) hp rfl

/-! ## A whole run (R97 to R100) -/

theorem verifySteps_succ (n c : Nat) :
    verifySteps (n + 1) c = verifySteps n c ++ ([.load] ++ wordSteps n (List.range c)) ++ [.reset] := by
  simp [verifySteps_eq, List.range_succ, passSteps]

theorem exec_verify_served (hn : n ≠ 0) (hrun : VerifyRun s B) (hserved : VerifyServed s n B l r q) :
    exec (.verify n) s = .next
      ((s.afterSteps B (verifySteps n s.cfg.verifyCount) (verifyEvents B (verifySteps n s.cfg.verifyCount)) l r
        q).addResult (.ok (.reports (verifyReports s.cfg.verifyBase B (verifySteps n s.cfg.verifyCount))))) := by
  obtain ⟨hl, hr, hq, hirqs⟩ := hserved
  have hlen : (verifySteps n s.cfg.verifyCount).length - 1 + 1 = (verifySteps n s.cfg.verifyCount).length := by
    obtain ⟨m, rfl⟩ := Nat.exists_eq_succ_of_ne_zero hn
    simp [verifySteps_succ, Nat.add_assoc]
  refine exec_verify_ok hrun.programming ?_
  rw [verifyPasses_afterSteps hrun.programming hq hn, hl, hr, hirqs, ← List.cons_append, ← List.replicate_succ, hlen]
  exact runSteps_served (steps := []) hrun hq (readsBefore_verifySteps n _)

/-- Settles O34: a run of some passes is its commands, each served in turn; a run of none only clears. -/
theorem verifyComparesWithPassZero : Obligations.VerifyComparesWithPassZero := by
  intro s n B l q r hrun hserved
  refine ⟨snapAfter s.cfg.verifyBase B (verifySteps n s.cfg.verifyCount), snapOf_snapAfter _ _, wf_snapAfter _ _, ?_⟩
  cases n with
  | zero =>
    obtain ⟨hl, hr, _, hq⟩ := hserved
    obtain rfl : s.env.fails = l := hl
    obtain rfl : s.env.reads = r := hr
    obtain rfl : s.env.irqs = q := hq
    rw [verifyZeroClears s hrun.programming]
    simp [verifySteps, verifyEvents, verifyReports, snapAfter]
  | succ n =>
    obtain ⟨hclk, hacq, hout⟩ := hrun.ready
    rw [exec_verify_served n.succ_ne_zero hrun hserved, if_neg n.succ_ne_zero, if_neg n.succ_ne_zero]
    simp only [State.afterSteps, State.inVerify, verifyEvents_after hclk hacq hout]
    rw [verifySteps_succ, datLevelAfter, List.foldl_concat]
    rfl

/-! ## A run that stops (R101, R111, R114) -/

/-- A run stops where the command after some whole commands does, or the boundary before it. -/
theorem exec_verify_stopped {e : OpError} {t : State} {done rest : List VerifyStep} (hrun : VerifyRun s B)
    (hsteps : verifySteps n s.cfg.verifyCount = done ++ x :: rest)
    (hl : Serves s (providerOps (verifyEvents B done)).length l) (hr : Presents s (readBits (verifyEvents B done)) r)
    (hq : s.irqPending = false) (hirqs : false :: s.env.irqs = List.replicate done.length false ++ q)
    (hstop : (runSteps (x :: rest)).run (s.afterSteps B done (verifyEvents B done) l r q) = .error e t) :
    exec (.verify n) s = .next (abort e t) := by
  have hn : n ≠ 0 := by rintro rfl; simp [verifySteps] at hsteps
  have hbefore : ReadsBefore done := (hsteps ▸ readsBefore_verifySteps n s.cfg.verifyCount).of_append
  refine exec_verify_error hrun.programming ?_
  rw [verifyPasses_afterSteps hrun.programming hq hn, hsteps, runSteps_append, hl, hr, hirqs]
  exact (op_bind_ok (runSteps_served (steps := []) hrun hq hbefore)).trans hstop

/-- R111: the abort path keeps what `VERIFY` has recorded. -/
theorem abort_comparatorKept (e : OpError) (s : State) :
    (abort e s).snap = s.snap ∧ (abort e s).mismatches = s.mismatches :=
  have h := abort_keeps comparatorKept_actions e s
  ⟨h.snap, h.mismatches⟩

theorem exists_eq_take_append {α : Type} {xs : List α} {m : Nat} (h : m < xs.length) :
    ∃ x rest, xs = xs.take m ++ x :: rest ∧ xs.take (m + 1) = xs.take m ++ [x] :=
  ⟨xs[m], xs.drop (m + 1), by rw [← List.drop_eq_getElem_cons h, List.take_append_drop],
    List.take_succ_eq_append_getElem h⟩

/-- Settles O36: the boundary after the served commands takes the request. -/
theorem verifyStopsAtInterrupt : Obligations.VerifyStopsAtInterrupt := by
  rintro s n m B l q r done hrun rfl hm hl hr ⟨hq, hirqs⟩
  obtain ⟨x, rest, hsteps, _⟩ := exists_eq_take_append hm
  refine ⟨snapAfter s.cfg.verifyBase B _, snapOf_snapAfter _ _, wf_snapAfter _ _, ?_, abort_comparatorKept _ _⟩
  refine exec_verify_stopped (q := true :: q) hrun hsteps hl hr hq ?_ ?_
  · rw [hirqs, List.length_take_of_le hm.le, List.replicate_succ, List.cons_append]
  · exact op_bind_error (boundary_disturbed hq rfl)

/-- Settles O37: the commands before the failing one are served, and that one stops at its own first failure. -/
theorem verifyStopsAtFailure : Obligations.VerifyStopsAtFailure := by
  rintro s n j c B l q r e es done hrun rfl rfl hj hj' he hfail ⟨hq, hirqs⟩
  have hc : c < (verifySteps n s.cfg.verifyCount).length := by
    by_contra hc
    rw [List.take_of_length_le (by omega)] at hj hj'
    omega
  obtain ⟨x, rest, hsteps, htake⟩ := exists_eq_take_append hc
  have hes : verifyEvents B (verifySteps n s.cfg.verifyCount) =
      verifyEvents B ((verifySteps n s.cfg.verifyCount).take c) ++ (x.events B ++ verifyEvents B rest) := by
    rw [← verifyEvents_cons, ← verifyEvents_append, ← hsteps]
  rw [htake, verifyEvents_concat, providerOps_append, List.length_append] at hj'
  obtain ⟨k, rfl⟩ := Nat.exists_eq_add_of_le hj
  have hk : k < (providerOps (x.events B)).length := by omega
  rw [hes, errorAt_append_right, errorAt_append_left hk] at he
  rw [hes] at hfail
  obtain ⟨l', r', hl, hr, hfail⟩ := hfail.append_right
  refine ⟨snapAfter s.cfg.verifyBase B _, snapOf_snapAfter _ _, wf_snapAfter _ _, ?_, abort_comparatorKept _ _⟩
  rw [hes, eventsBefore_append_right, eventsBefore_append_left hk]
  refine exec_verify_stopped (q := false :: q) hrun hsteps hl hr hq ?_ ?_
  · rw [hirqs, List.length_take_of_le hc.le, List.append_cons, ← List.replicate_succ', List.replicate_succ,
      List.cons_append]
  · rw [runSteps, op_bind_ok (boundary_afterSteps hq)]
    exact op_bind_error (command_stopped hrun he (hfail.append_left hk))

end Sys2Proof.Machine
end

section
/-! PROOFS. The reports of a whole run of `VERIFY` in the words read (spec/44_verification.md R102). -/

namespace Sys2Proof.Machine

variable {α : Type} {B : Nat → Nat → List Bit} {n c i j k : Nat}

/-! ## Lists built over a range -/

theorem length_flatMap_range_le {f : Nat → List α} {m : Nat} (h : ∀ i, (f i).length ≤ m) (n : Nat) :
    ((List.range n).flatMap f).length ≤ n * m := by
  induction n with
  | zero => exact Nat.zero_le _
  | succ n ih =>
    rw [List.range_succ, List.flatMap_append, List.flatMap_singleton, List.length_append, Nat.succ_mul]
    exact Nat.add_le_add ih (h n)

theorem flatMap_range_eq_single {f : Nat → List α} (hj : j < n) (h : ∀ i < n, i ≠ j → f i = []) :
    (List.range n).flatMap f = f j := by
  induction n with
  | zero => exact absurd hj (Nat.not_lt_zero j)
  | succ n ih =>
    rw [List.range_succ, List.flatMap_append, List.flatMap_singleton]
    rcases Nat.lt_succ_iff_lt_or_eq.1 hj with hlt | rfl
    · rw [ih hlt fun i hi => h i (Nat.lt_succ_of_lt hi), h n n.lt_succ_self hlt.ne', List.append_nil]
    · rw [List.flatMap_eq_nil_iff.2 fun i hi => h i (Nat.lt_succ_of_lt (List.mem_range.1 hi)) (List.mem_range.1 hi).ne,
        List.nil_append]

/-! ## The reports by pass and by word (R99) -/

/-- R99: the report of word `k` of pass `i`, if there is one. -/
def reportAt (base : Nat) (B : Nat → Nat → List Bit) (i k : Nat) : List Mismatch :=
  (VerifyStep.read i k).reports base B

/-- R99: the reports of pass `i` over `c` words. -/
def passReports (base c : Nat) (B : Nat → Nat → List Bit) (i : Nat) : List Mismatch :=
  (List.range c).flatMap (reportAt base B i)

theorem verifyReports_passSteps (base : Nat) (B : Nat → Nat → List Bit) (c i : Nat) :
    verifyReports base B (passSteps c i) = passReports base c B i := by
  simp only [verifyReports, passSteps, wordSteps, List.flatMap_append, List.flatMap_assoc, List.flatMap_cons,
    List.flatMap_nil, VerifyStep.reports, List.append_nil, List.nil_append]
  rfl

theorem verifyReports_verifySteps (base : Nat) (B : Nat → Nat → List Bit) (n c : Nat) :
    verifyReports base B (verifySteps n c) = (List.range n).flatMap (passReports base c B) := by
  rw [verifyReports, verifySteps_eq, List.flatMap_assoc]
  exact congrArg (List.flatMap · (List.range n)) (funext fun i => verifyReports_passSteps base B c i)

variable {base : Nat}

theorem reportAt_of_eq (h : wordRead B i k = wordRead B 0 k) : reportAt base B i k = [] := if_pos (.inr h)

theorem reportAt_of_ne (hi : 1 ≤ i) (h : wordRead B i k ≠ wordRead B 0 k) :
    reportAt base B i k = [⟨i, base + k, wordRead B 0 k, wordRead B i k⟩] :=
  if_neg (not_or.2 ⟨Nat.one_le_iff_ne_zero.1 hi, h⟩)

theorem reportAt_eq_toList (base : Nat) (B : Nat → Nat → List Bit) (i k : Nat) :
    reportAt base B i k =
      (if 1 ≤ i ∧ wordRead B i k ≠ wordRead B 0 k then some (Mismatch.mk i (base + k) (wordRead B 0 k) (wordRead B i k))
        else none).toList := by
  split
  next h => exact reportAt_of_ne h.1 h.2
  next h => exact if_pos (by simpa [Nat.one_le_iff_ne_zero, or_iff_not_imp_left] using h)

/-- R102: the reports of a pass as the list of the words that differ from pass 0. -/
theorem passReports_eq_filterMap (base c : Nat) (B : Nat → Nat → List Bit) (i : Nat) :
    passReports base c B i = (List.range c).filterMap (fun k =>
      if 1 ≤ i ∧ wordRead B i k ≠ wordRead B 0 k then some ⟨i, base + k, wordRead B 0 k, wordRead B i k⟩
      else none) := by
  rw [List.filterMap_eq_flatMap_toList]
  exact congrArg (List.flatMap · (List.range c)) (funext fun k => reportAt_eq_toList base B i k)

theorem passReports_length_le (base c : Nat) (B : Nat → Nat → List Bit) (i : Nat) :
    (passReports base c B i).length ≤ c := by
  refine (length_flatMap_range_le (fun k => ?_) c).trans_eq c.mul_one
  rw [reportAt_eq_toList]
  exact Option.length_toList_le

theorem passReports_of_eq (h : ∀ k < c, wordRead B i k = wordRead B 0 k) : passReports base c B i = [] :=
  List.flatMap_eq_nil_iff.2 fun k hk => reportAt_of_eq (h k (List.mem_range.1 hk))

theorem passReports_of_ne (hi : 1 ≤ i) (hk : k < c) (hne : wordRead B i k ≠ wordRead B 0 k)
    (h : ∀ m < c, m ≠ k → wordRead B i m = wordRead B 0 m) :
    passReports base c B i = [⟨i, base + k, wordRead B 0 k, wordRead B i k⟩] := by
  rw [passReports, flatMap_range_eq_single hk fun m hm hmk => reportAt_of_eq (h m hm hmk), reportAt_of_ne hi hne]

/-- R99: pass 0 is compared with nothing, so the reports are those of the later passes. -/
theorem verifyReports_later (base : Nat) (B : Nat → Nat → List Bit) (n c : Nat) :
    verifyReports base B (verifySteps n c) = (List.range (n - 1)).flatMap fun i => passReports base c B (i + 1) := by
  rw [verifyReports_verifySteps]
  cases n with
  | zero => rfl
  | succ n =>
    rw [List.range_succ_eq_map, List.flatMap_cons, passReports_of_eq fun _ _ => rfl, List.nil_append, List.flatMap_map]
    rfl

/-- Settles O35: the list is read off the commands, and each named case leaves one word or none in every pass. -/
theorem verifyOutcomes : Obligations.VerifyOutcomes := by
  intro s n B l q r hrun hserved
  obtain ⟨m, _, _, hexec⟩ := verifyComparesWithPassZero s n B l q r hrun hserved
  refine ⟨_, _, hexec, rfl, rfl, rfl, ?_, ?_, fun hsame => ?_, fun j k hj hjn hk hne hsame => ?_,
    fun k w hk hw hlater hsame => ?_⟩
  · rw [verifyReports_verifySteps]
    exact congrArg (List.flatMap · (List.range n)) (funext fun i => passReports_eq_filterMap _ _ B i)
  · rw [verifyReports_later]
    exact length_flatMap_range_le (fun i => passReports_length_le _ _ B (i + 1)) _
  · rw [verifyReports_verifySteps]
    exact List.flatMap_eq_nil_iff.2 fun i hi => passReports_of_eq fun k => hsame i k (List.mem_range.1 hi)
  · rw [verifyReports_verifySteps, flatMap_range_eq_single hjn fun i hi hij =>
      passReports_of_eq fun k' hk' => hsame i k' hi hk' (by simp [hij])]
    exact passReports_of_ne hj hk hne fun k' hk' hkk => hsame j k' hjn hk' (by simp [hkk])
  · rw [verifyReports_later, List.map_eq_flatMap]
    refine List.flatMap_congr fun i hi => ?_
    have hin : i + 1 < n := by have := List.mem_range.1 hi; omega
    have hword : wordRead B (i + 1) k = w := hlater (i + 1) (by omega) hin
    rw [passReports_of_ne (by omega) hk (hword ▸ hw) fun k' hk' => hsame (i + 1) k' hin hk', hword]

end Sys2Proof.Machine
end

section
/-! PROOFS. The abort path (spec/60_exceptions.md R111) against `EXIT` of the same state (spec/43_session.md R92): the
teardown does not look at the error record, so both make the same attempts; from it the abort by `INTERRUPT` (R109). -/

namespace Sys2Proof.Machine

variable {α β : Type} {s : State}

/-! ## Operations that do not look at the error record -/

/-- R24: the state with another error record. -/
def State.withErr (s : State) (o : Option SessionError) : State := { s with err := o }

@[simp] theorem State.withErr_env (s : State) (o : Option SessionError) : (s.withErr o).env = s.env := rfl

@[simp] theorem State.withErr_cfg (s : State) (o : Option SessionError) : (s.withErr o).cfg = s.cfg := rfl

@[simp] theorem State.withErr_pin (s : State) (o : Option SessionError) (p : Pin) : (s.withErr o).pin p = s.pin p := by
  cases p <;> rfl

theorem State.recordErr_eq_withErr (s : State) (e : SessionError) :
    s.recordErr e = s.withErr (some (s.err.getD e)) := by
  unfold State.recordErr
  split
  next h => rw [h]; rfl
  next h => rw [h, Option.getD_some, ← h]; rfl

/-- The result of an operation with its final state changed. -/
def mapFinal (g : State → State) : EStateM.Result OpError State α → EStateM.Result OpError State α
  | .ok a t => .ok a (g t)
  | .error e t => .error e (g t)

/-- The operation runs alike whatever the error record is, and leaves it as it is. -/
def ErrBlind (x : Op α) : Prop := ∀ s o, x.run (s.withErr o) = mapFinal (·.withErr o) (x.run s)

theorem errBlind_bind {x : Op α} {f : α → Op β} (hx : ErrBlind x) (hf : ∀ a, ErrBlind (f a)) : ErrBlind (x >>= f) := by
  intro s o
  rw [op_bind, op_bind, hx s o]
  cases x.run s with
  | ok a t => exact hf a t o
  | error e t => rfl

theorem errBlind_pure (a : α) : ErrBlind (pure a : Op α) := fun _ _ => rfl

theorem errBlind_throw (e : OpError) : ErrBlind (throw e : Op α) := fun _ _ => rfl

theorem errBlind_modify {g : State → State} (h : ∀ s o, g (s.withErr o) = (g s).withErr o) :
    ErrBlind (modify g : Op Unit) := fun s o => by
  rw [op_modify, op_modify, h]
  rfl

theorem errBlind_emit (e : Event) : ErrBlind (emit e) := errBlind_modify fun _ _ => rfl

/-- Reading the state and going on, where the rest depends on no error record that was read. -/
theorem errBlind_get_bind {f : State → Op α} (hf : ∀ s o, f (s.withErr o) = f s) (hb : ∀ s, ErrBlind (f s)) :
    ErrBlind ((get : Op State) >>= f) := fun s o => by
  rw [op_bind_ok (op_get _), op_bind_ok (op_get _), hf]
  exact hb s s o

theorem errBlind_ite {c : Prop} [Decidable c] {x y : Op α} (hx : ErrBlind x) (hy : ErrBlind y) :
    ErrBlind (if c then x else y) := by
  split
  · exact hx
  · exact hy

/-! ## The pin primitives of a teardown (R61 to R66) -/

theorem errBlind_drawFail : ErrBlind drawFail := by
  intro s o
  simp only [drawFail, EStateM.run, State.withErr_env]
  cases s.env.fails <;> rfl

theorem errBlind_provider (p : Pin) (op : ProviderOp) : ErrBlind (provider p op) :=
  errBlind_bind errBlind_drawFail fun _ => errBlind_ite (errBlind_throw _) (errBlind_pure _)

theorem State.withErr_setPin (s : State) (o : Option SessionError) (p : Pin) (r : PinRec) :
    (s.withErr o).setPin p r = (s.setPin p r).withErr o := by cases p <;> rfl

theorem errBlind_pinAcquire (p : Pin) : ErrBlind (pinAcquire p) := by
  have hclaim : ErrBlind (modify fun s : State => (s.setPin p PinRec.claimed).track p) :=
    errBlind_modify fun s o => by rw [State.withErr_setPin]; rfl
  exact errBlind_get_bind (fun s o => by rw [State.withErr_pin]) fun _ => errBlind_ite (errBlind_pure _)
    (errBlind_bind (errBlind_provider p _) fun _ => errBlind_bind (errBlind_emit _) fun _ => hclaim)

/-- A change of one pin record by what it holds. -/
theorem errBlind_modifyPin (p : Pin) (g : PinRec → PinRec) :
    ErrBlind (modify fun s : State => s.setPin p (g (s.pin p))) :=
  errBlind_modify fun s o => by rw [State.withErr_pin, State.withErr_setPin]

theorem errBlind_pinSetDir (p : Pin) (d : DirWord) : ErrBlind (pinSetDir p d) :=
  errBlind_bind (errBlind_pinAcquire p) fun _ => errBlind_bind (errBlind_provider p _) fun _ =>
    errBlind_bind (errBlind_emit _) fun _ => errBlind_modifyPin p (·.withDir d)

theorem errBlind_pinWrite (p : Pin) (v : Int) : ErrBlind (pinWrite p v) := by
  refine errBlind_bind (errBlind_pinAcquire p) fun _ => ?_
  cases pinValueBit v with
  | none => exact errBlind_throw _
  | some b =>
    exact errBlind_get_bind (fun s o => by rw [State.withErr_pin]) fun _ => errBlind_ite (errBlind_throw _)
      (errBlind_bind (errBlind_provider p _) fun _ => errBlind_bind (errBlind_emit _) fun _ =>
        errBlind_modifyPin p (·.withLevel b))

theorem errBlind_pinRelease (p : Pin) : ErrBlind (pinRelease p) :=
  errBlind_get_bind (fun s o => by rw [State.withErr_pin]) fun _ => errBlind_ite
    (errBlind_bind (errBlind_provider p _) fun _ => errBlind_bind (errBlind_emit _) fun _ =>
      errBlind_modifyPin p fun _ => PinRec.reset) (errBlind_pure _)

theorem errBlind_pinEnsureOutWrite (p : Pin) (b : Bit) : ErrBlind (pinEnsureOutWrite p b) :=
  errBlind_bind (errBlind_pinAcquire p) fun _ => errBlind_get_bind (fun s o => by rw [State.withErr_pin]) fun _ =>
    errBlind_ite (errBlind_pinSetDir p _) (errBlind_pinWrite p _)

/-! ## The teardown (R92) -/

theorem collect_withErr {x : Op Unit} (hx : ErrBlind x) (p : Pin) (r : List (Pin × OpError) × State)
    (o : Option SessionError) : collect p x (r.map id (·.withErr o)) = (collect p x r).map id (·.withErr o) := by
  simp only [collect, Prod.map_snd, Prod.map_fst, hx r.2 o]
  cases x.run r.2 <;> rfl

theorem teardownPins_withErr (ps : List Pin) (r : List (Pin × OpError) × State) (o : Option SessionError) :
    teardownPins ps (r.map id (·.withErr o)) = (teardownPins ps r).map id (·.withErr o) := by
  induction ps generalizing r with
  | nil => rfl
  | cons p ps ih =>
    simp only [teardownPins, Prod.map_snd, State.withErr_pin, collect_withErr (errBlind_pinSetDir p _),
      collect_withErr (errBlind_pinRelease p), ih]
    split <;> rfl

theorem releaseReset_withErr (s : State) (o : Option SessionError) :
    releaseReset (s.withErr o) = (releaseReset s).map id (·.withErr o) := by
  simp only [releaseReset, State.withErr_pin, State.withErr_cfg]
  split
  · exact collect_withErr (errBlind_pinEnsureOutWrite .rst true) .rst ([], s) o
  · rfl

/-- R92: the teardown makes the same attempts whatever the error record is. -/
theorem teardown_withErr (s : State) (o : Option SessionError) :
    teardown (s.withErr o) = (teardown s).map id (·.withErr o) := by
  simp only [teardown, releaseReset_withErr, teardownPins_withErr]
  rfl

/-! ## The abort path and `EXIT` (R111) -/

/-- R92, R107: `EXIT` is the teardown, a record of its failures where there are any, and its result. -/
theorem completeExit_eq (s : State) : completeExit s =
    { (teardown s).2 with
      err := if (teardown s).1 = [] then s.err else some (s.err.getD (.teardownFailure (teardown s).1))
      results := s.results ++
        [if (teardown s).1 = [] then .ok .unit else .err (.teardownFailure (teardown s).1) []] } := by
  have hframe := teardown_frame s
  simp only [completeExit]
  split
  · rw [← hframe.err, ← hframe.results]
    rfl
  · rw [State.recordErr_eq_withErr, hframe.err, ← hframe.results]
    rfl

theorem abort_exited (e : OpError) (hs : s.state = .exited) :
    abort e s = { s with err := some (s.err.getD (.op e)), results := s.results ++ [.err (.op e) []] } := by
  rw [abort, if_pos (by rwa [State.recordErr_state]), State.recordErr_eq_withErr]
  rfl

/-- R111: from a live state, the abort path leaves what `EXIT` leaves, but for the error record and the result. -/
theorem abort_live (e : OpError) (hs : s.state ≠ .exited) :
    abort e s =
      { completeExit s with
        err := some (s.err.getD (.op e))
        results := s.results ++ [.err (.op e) (teardown s).1] } := by
  rw [abort, if_neg (by rwa [State.recordErr_state]), State.recordErr_eq_withErr, teardown_withErr, completeExit_eq,
    ← (teardown_frame s).results]
  rfl

/-- Settles O40: the teardown of the abort path is that of `EXIT`, which looks at no error record. -/
theorem abortRunsTeardown : Obligations.AbortRunsTeardown := by
  intro e s
  refine ⟨abort_exited e, fun hs => ⟨completeExit s, (teardown s).1, exec_exit_live hs, completeExit_state s, ?_, ?_,
    abort_live e hs⟩⟩ <;> rw [completeExit_eq]

/-! ## `INTERRUPT` between operations (R109, R114) -/

theorem exec_interrupt_live (hs : s.state ≠ .exited) : exec .interrupt s = .next (abort .interrupted s) := by
  have ha : admits .interrupt s.state = true := by
    revert hs
    cases s.state <;> simp [admits]
  rw [exec_interrupt, invoke_error ha (op_throw _ s)]

/-- Settles O39: the abort by `INTERRUPT` leaves what `EXIT` leaves, with the failures of the same attempts. -/
theorem interruptAbortsTheSession : Obligations.InterruptAbortsTheSession := by
  intro s l
  refine ⟨exec_interrupt_live, fun fs hs hnodup hfails hlen => ?_, fun hs hinv hl => ?_, fun hs => ?_⟩
  · obtain ⟨t, ht, hst, hl, htrace, _, _, hpins, hsnap, hm, htracked, hcfg⟩ :=
      exitAggregatesFailures s fs l hs hnodup hfails hlen
    obtain rfl : completeExit s = t := by rw [exec_exit_live hs] at ht; cases ht; rfl
    have hfailures : (teardown s).1 = failuresOf (exitEvents s) fs := by rw [teardown_run hnodup hfails hlen]
    rw [exec_interrupt_live hs, abort_live _ hs, hfailures]
    exact ⟨_, rfl, hst, hl, htrace, rfl, rfl, htracked, hsnap, hm, hcfg, hpins⟩
  · have hexit := exitReleasesEveryPin s l hs hinv hl
    rw [exec_exit_live hs] at hexit
    have hfailures : (teardown s).1 = [] := by
      rw [teardown_run hinv.trackedOnce hl List.length_replicate, failuresOf_served]
    rw [exec_interrupt_live hs, abort_live _ hs, Host.Outcome.next.inj hexit, hfailures]
  · rw [exec_interrupt, invoke_not_admitted (by rw [hs]; rfl)]
    rfl

end Sys2Proof.Machine
end

section
/-! PROOFS. How an invocation ends (spec/60_exceptions.md R110 to R114): refused, returned or with an error, and what
each end writes to the error record and the refusal mark; with it the refusals by operand and the step that takes a
pending interrupt. -/

namespace Sys2Proof.Machine

variable {s t : State} {i : Instr}

/-! ## A pending interrupt (R114) -/

/-- Settles O6: the step looks at the pending request first. -/
theorem stepTakesPendingInterrupt : Obligations.StepTakesPendingInterrupt := fun s hq =>
  ⟨by rw [step, if_pos hq]; rfl, rfl⟩

/-! ## Refusals by operand (R110) -/

theorem invoke_refused (c : OpClass) (w : RefuseReason) (body : Op Value) (s : State) :
    invoke c (some w) body s = .next (s.refuse w) := rfl

/-- Settles O32: the operand check of each of these operations answers its reason, before the session state is looked
at. -/
theorem operandRefusals : Obligations.OperandRefusals := fun s =>
  ⟨fun _ _ hv => exec_reverse_tooWide hv s,
    fun d hd =>
      ⟨by rw [exec_loadConfig, dataRefusal_tooWide hd, invoke_refused]; rfl,
        by rw [exec_loadData, dataRefusal_tooWide hd, invoke_refused]; rfl⟩,
    fun p text => by rw [exec_setDir, dirRefusal, invoke_refused]; rfl,
    fun c hc => (sessionNewStartsASession c s).2 hc⟩

/-! ## The error record and the refusal mark (R24, R112) -/

/-- R10, R110, R111: the three ends of an invocation other than a successful `SESSION_NEW`. -/
inductive Ended (s t : State) : Prop where
  | refused (why : RefuseReason) (ht : t = s.refuse why)
  | returned (v : Value) (herr : t.err = s.err) (href : t.refused = s.refused) (hres : t.results = s.results ++ [.ok v])
  | raised (e : SessionError) (f : List (Pin × OpError)) (herr : t.err = some (s.err.getD e))
      (href : t.refused = s.refused) (hres : t.results = s.results ++ [.err e f])

/-- R111: the abort path records its error unless one was recorded before, and gives it as the result. -/
theorem abort_ended {u : State} (e : OpError) (hu : BodyFrame s u) : Ended s (abort e u) := by
  obtain ⟨_, herr, href, hres, _⟩ := hu
  by_cases hs : u.state = .exited
  · rw [abort_exited e hs, herr, hres]
    exact .raised (.op e) [] rfl href rfl
  · rw [abort_live e hs, completeExit_eq, herr, hres]
    exact .raised (.op e) (teardown u).1 rfl ((teardown_frame u).refused.trans href) rfl

theorem completeExit_ended (s : State) : Ended s (completeExit s) := by
  have href := (teardown_frame s).refused
  rw [completeExit_eq]
  by_cases hfs : (teardown s).1 = []
  · rw [if_pos hfs, if_pos hfs]
    exact .returned .unit rfl href rfl
  · rw [if_neg hfs, if_neg hfs]
    exact .raised _ [] rfl href rfl

theorem complete_ended {body : Op Value} (hb : Keeps BodyFrame body) (s : State) : Ended s (complete body s) := by
  have hu := hb s
  unfold complete
  cases hrun : body.run s with
  | ok v u =>
    rw [hrun] at hu
    obtain ⟨_, herr, href, hres, _⟩ := hu
    exact .returned v herr href (congrArg (· ++ [OpResult.ok v]) hres)
  | error e u =>
    rw [hrun] at hu
    exact abort_ended e hu

theorem guarded_ended {c : OpClass} {bad : Option RefuseReason} {run : State → State} (hrun : Ended s (run s))
    (h : guarded c bad run s = .next t) : Ended s t := by
  rcases guarded_cases c bad run s with ⟨w, _, he⟩ | ⟨_, _, he⟩ | ⟨_, _, he⟩ <;> rw [he] at h <;> cases h
  · exact .refused w rfl
  · exact .refused _ rfl
  · exact hrun

/-- Every operation but a successful `SESSION_NEW` has one of the three ends. -/
theorem exec_ended (hnew : ∀ c, i = .sessionNew c → c.pinsDistinct = false) (h : exec i s = .next t) : Ended s t := by
  by_cases hn : ∃ c, i = .sessionNew c
  · obtain ⟨c, rfl⟩ := hn
    rcases execSessionNew_cases c s with ⟨_, he⟩ | ⟨hc, _⟩
    · rw [he] at h
      cases h
      exact .refused _ rfl
    · rw [hnew c rfl] at hc
      cases hc
  · by_cases hx : i = .exit
    · subst hx
      rw [exec_exit] at h
      exact guarded_ended (completeExit_ended s) h
    · obtain ⟨body, hb, hexec⟩ := exec_eq_invoke hx fun c hc => hn ⟨c, hc⟩
      rw [hexec, invoke] at h
      exact guarded_ended (complete_ended hb s) h

/-- Settles O43: only an error writes the error record, and only a refusal the mark. -/
theorem errorWrittenOnce : Obligations.ErrorWrittenOnce := by
  intro i s t hnew h
  cases exec_ended hnew h with
  | refused why ht =>
    subst ht
    exact ⟨fun _ => id, fun e hs => by simp [hs], by simp⟩
  | returned v herr href hres =>
    rw [herr, href, hres]
    exact ⟨fun _ => id, fun e hs => by simp [hs], by simp⟩
  | raised e f herr href hres =>
    rw [herr, href, hres]
    exact ⟨fun e' hs => by rw [hs]; rfl, fun e' hs => by simp [hs], by simp⟩

end Sys2Proof.Machine
end

section
/-! PROOFS. Which errors an operation can raise from a given state (spec/60_exceptions.md R103 to R108), said once for
each shared operation: `E` is any predicate that holds of the errors named in its hypotheses. -/

namespace Sys2Proof.Machine

variable {α β : Type} {s t : State} {E : OpError → Prop} {p : Pin}

/-! ## Errors from a state -/

/-- Every error the operation raises from the state satisfies the predicate. -/
def RaisesAt (s : State) (E : OpError → Prop) (x : Op α) : Prop := ∀ e t, x.run s = .error e t → E e

theorem raisesAt_of_ok {x : Op α} {a : α} (h : x.run s = .ok a t) : RaisesAt s E x := by
  intro e u he
  rw [h] at he
  cases he

theorem raisesAt_of_error {x : Op α} {e : OpError} (h : x.run s = .error e t) (he : E e) : RaisesAt s E x := by
  intro e' u he'
  rw [h] at he'
  cases he'
  exact he

theorem RaisesAt.congr {x y : Op α} (h : RaisesAt t E y) (hxy : x.run s = y.run t) : RaisesAt s E x :=
  fun e u he => h e u (hxy ▸ he)

theorem raisesAt_bind {x : Op α} {f : α → Op β} (hx : RaisesAt s E x)
    (hf : ∀ a t, x.run s = .ok a t → RaisesAt t E (f a)) : RaisesAt s E (x >>= f) := by
  intro e u he
  rw [op_bind] at he
  cases hrun : x.run s with
  | ok a t => rw [hrun] at he; exact hf a t hrun e u he
  | error e' t => rw [hrun] at he; cases he; exact hx _ _ hrun

theorem raisesAt_ok_bind {x : Op α} {f : α → Op β} {a : α} (hx : x.run s = .ok a t) (hf : RaisesAt t E (f a)) :
    RaisesAt s E (x >>= f) := hf.congr (op_bind_ok hx)

theorem raisesAt_pure (a : α) : RaisesAt s E (pure a : Op α) := raisesAt_of_ok rfl

theorem raisesAt_emit (e : Event) : RaisesAt s E (emit e) := raisesAt_of_ok rfl

theorem raisesAt_noValue {x : Op Unit} (hx : RaisesAt s E x) : RaisesAt s E (noValue x) :=
  raisesAt_bind hx fun _ _ _ => raisesAt_pure _

/-! ## Pin primitives (R61 to R66) -/

theorem raisesAt_provider {op : ProviderOp} (h : E (.hardwareUnavailable p op)) : RaisesAt s E (provider p op) := by
  obtain ⟨u, _, he | he⟩ := provider_cases p op s
  · exact raisesAt_of_ok he
  · exact raisesAt_of_error he h

theorem raisesAt_pinAcquire (h : (s.pin p).acquired = false → E (.hardwareUnavailable p .claim)) :
    RaisesAt s E (pinAcquire p) := by
  rcases pinAcquire_cases p s with ⟨_, he⟩ | ⟨hacq, u, _, he | he⟩
  · exact raisesAt_of_ok he
  · exact raisesAt_of_ok he
  · exact raisesAt_of_error he (h hacq)

/-- On an acquired pin there is nothing to claim. -/
theorem false_of_acquired {P : Prop} (hacq : (s.pin p).acquired = true) : (s.pin p).acquired = false → P := fun h => by
  rw [hacq] at h
  cases h

/-- R61: the record of a pin once the lazy acquire has returned. -/
theorem pinAcquire_pin {a : Unit} (h : (pinAcquire p).run s = .ok a t) :
    t.pin p = if (s.pin p).acquired then s.pin p else PinRec.claimed := by
  rw [State.pin_eq, pinAcquire_returns h, State.claimed_pins]
  split
  · rw [State.pin_eq]
  · rw [PinTable.get_set, if_pos rfl]

section
variable (hclaim : (s.pin p).acquired = false → E (.hardwareUnavailable p .claim))
include hclaim

theorem raisesAt_pinSetDir (d : DirWord) (hdir : E (.hardwareUnavailable p .direction)) :
    RaisesAt s E (pinSetDir p d) :=
  raisesAt_bind (raisesAt_pinAcquire hclaim) fun _ _ _ => raisesAt_bind (raisesAt_provider hdir) fun _ _ _ =>
    raisesAt_bind (raisesAt_emit _) fun _ _ _ => raisesAt_of_ok (op_modify _ _)

theorem raisesAt_pinWrite {v : Int} (hbit : pinValueBit v = none → E (.invalidPinValue v))
    (hinput : ¬((s.pin p).acquired = true ∧ (s.pin p).dir = .output) → E (.preconditionViolation p .writeToInput))
    (hvalue : E (.hardwareUnavailable p .value)) : RaisesAt s E (pinWrite p v) := by
  refine raisesAt_bind (raisesAt_pinAcquire hclaim) fun _ t ht => ?_
  cases hv : pinValueBit v with
  | none => exact raisesAt_of_error (op_throw _ t) (hbit hv)
  | some b =>
    refine raisesAt_ok_bind (op_get t) ?_
    split
    next hin =>
      refine raisesAt_of_error (op_throw _ t) (hinput ?_)
      rintro ⟨hacq, hout⟩
      rw [pinAcquire_pin ht, if_pos hacq, hout] at hin
      cases hin
    next =>
      exact raisesAt_bind (raisesAt_provider hvalue) fun _ _ _ => raisesAt_bind (raisesAt_emit _) fun _ _ _ =>
        raisesAt_of_ok (op_modify _ _)

theorem raisesAt_pinRead
    (houtput : (s.pin p).acquired = true → (s.pin p).dir = .output → E (.preconditionViolation p .readOfOutput))
    (hvalue : E (.hardwareUnavailable p .value)) : RaisesAt s E (pinRead p) := by
  refine raisesAt_bind (raisesAt_pinAcquire hclaim) fun _ t ht => raisesAt_ok_bind (op_get t) ?_
  split
  next hout =>
    refine raisesAt_of_error (op_throw _ t) ?_
    rw [pinAcquire_pin ht] at hout
    split at hout
    next hacq => exact houtput hacq hout
    next => cases hout
  next =>
    have hdraw : ∀ u, RaisesAt u E drawContent := fun u => by
      rcases drawContent_cases u with ⟨_, _, _, he⟩ | ⟨_, he⟩ <;> exact raisesAt_of_ok he
    refine raisesAt_bind (raisesAt_provider hvalue) fun _ u _ => raisesAt_bind (hdraw u) fun c v _ => ?_
    cases contentBit c with
    | none => exact raisesAt_of_error (op_throw _ v) hvalue
    | some b => exact raisesAt_bind (raisesAt_emit _) fun _ _ _ => raisesAt_pure b

/-- R66: the primitive writes an output only, and only a bit. -/
theorem raisesAt_pinEnsureOutWrite (b : Bit) (hdir : E (.hardwareUnavailable p .direction))
    (hvalue : E (.hardwareUnavailable p .value)) : RaisesAt s E (pinEnsureOutWrite p b) := by
  refine raisesAt_bind (raisesAt_pinAcquire hclaim) fun _ t ht => raisesAt_ok_bind (op_get t) ?_
  have hacq : (t.pin p).acquired = true := pinAcquire_acquires ht
  split
  next => exact raisesAt_pinSetDir (false_of_acquired hacq) _ hdir
  next hin =>
    have hout : (t.pin p).dir = .output := by cases hd : (t.pin p).dir <;> simp_all
    refine raisesAt_pinWrite (false_of_acquired hacq) (fun hv => ?_) (fun hno => absurd ⟨hacq, hout⟩ hno) hvalue
    rw [pinValueBit_bit] at hv
    cases hv

end

theorem raisesAt_pinRelease (h : E (.hardwareUnavailable p .unclaim)) : RaisesAt s E (pinRelease p) := by
  refine raisesAt_ok_bind (op_get s) ?_
  split
  · exact raisesAt_bind (raisesAt_provider h) fun _ _ _ => raisesAt_bind (raisesAt_emit _) fun _ _ _ =>
      raisesAt_of_ok (op_modify _ _)
  · exact raisesAt_pure _

theorem raisesAt_pinWrite_output {v : Int} {b : Bit} (hv : pinValueBit v = some b) (hacq : (s.pin p).acquired = true)
    (hout : (s.pin p).dir = .output) (hvalue : E (.hardwareUnavailable p .value)) : RaisesAt s E (pinWrite p v) :=
  raisesAt_pinWrite (false_of_acquired hacq) (fun hnone => by rw [hv] at hnone; cases hnone)
    (fun hno => absurd ⟨hacq, hout⟩ hno) hvalue

/-! ## Transport (R71, R72) -/

section
variable (hdat : E (.hardwareUnavailable .dat .value)) (hclk : E (.hardwareUnavailable .clk .value))
include hdat hclk

theorem raisesAt_sendBits (h : BusDriven s) (n v : Nat) : RaisesAt s E (sendBits n v) := by
  induction n generalizing s v with
  | zero => exact raisesAt_pure _
  | succ n ih =>
    have hwrite : ∀ {t : State}, BusDriven t → ∀ b : Bit, RaisesAt t E (pinWrite .clk (if b then 1 else 0)) :=
      fun ht b => raisesAt_pinWrite_output (pinValueBit_bit b) (ht .clk (by simp)).1 (ht .clk (by simp)).2 hclk
    have hd := h .dat (by simp)
    refine raisesAt_bind (raisesAt_pinWrite_output (pinValueBit_and_one v) hd.1 hd.2 hdat) fun _ t ht => ?_
    refine raisesAt_bind (hwrite (h.pinWrite ht) true) fun _ u hu => raisesAt_ok_bind (op_emit _ u) ?_
    have hbus := ((h.pinWrite ht).pinWrite hu).emit (.hold .tHalf)
    refine raisesAt_bind (hwrite hbus false) fun _ w hw => raisesAt_ok_bind (op_emit _ w) ?_
    exact ih ((hbus.pinWrite hw).emit _) _

theorem raisesAt_recvBits (h : BusSampled s) (n k acc : Nat) : RaisesAt s E (recvBits n k acc) := by
  induction k generalizing s acc with
  | zero => exact raisesAt_pure _
  | succ k ih =>
    have hwrite : ∀ {t : State}, BusSampled t → ∀ b : Bit, RaisesAt t E (pinWrite .clk (if b then 1 else 0)) :=
      fun ht b => raisesAt_pinWrite_output (pinValueBit_bit b) ht.1.1 ht.1.2 hclk
    refine raisesAt_bind (hwrite h true) fun _ t ht => raisesAt_ok_bind (op_emit _ t) ?_
    have h : BusSampled (t.emit (.hold .tHalf)) := (h.pinWrite ht).congr rfl
    have hread : RaisesAt (t.emit (.hold .tHalf)) E (pinRead .dat) :=
      raisesAt_pinRead (false_of_acquired h.2.1) (fun _ hout => by rw [h.2.2] at hout; cases hout) hdat
    refine raisesAt_bind hread fun b u hu => ?_
    refine raisesAt_bind (hwrite (h.pinRead hu) false) fun _ w hw => raisesAt_ok_bind (op_emit _ w) ?_
    exact ih (s := w.emit (.hold .tHalf)) (((h.pinRead hu).pinWrite hw).congr rfl) _

theorem raisesAt_busRecv (n : Nat)
    (hclock : s.pin .clk ≠ drivenLow → E (.preconditionViolation .clk .recvClockNotLowOutput))
    (hdata : ¬((s.pin .dat).acquired = true ∧ (s.pin .dat).dir = .input) →
      E (.preconditionViolation .dat .recvDataNotInput)) : RaisesAt s E (busRecv n) := by
  by_cases hc : s.pin .clk = drivenLow
  · by_cases hd : (s.pin .dat).acquired = true ∧ (s.pin .dat).dir = .input
    · have hbus : BusSampled s := ⟨by simp [hc, drivenLow], hd⟩
      refine (raisesAt_recvBits hdat hclk hbus n n 0).congr ?_
      rw [busRecv, op_bind_ok (op_get s), if_pos (PinRec.lowOutput_iff.2 hc), if_pos (PinRec.isInput_iff.2 hd)]
    · exact raisesAt_of_error (busRecv_data hc hd) (hdata hd)
  · exact raisesAt_of_error (busRecv_clock hc) (hclock hc)

end

/-- R71, R104, R108: the predicate holds of the errors of a `SEND` from the state: the two lines can fail, and where the
pins are not ready a precondition can. -/
structure SendErrors (s : State) (E : OpError → Prop) : Prop where
  dat : E (.hardwareUnavailable .dat .value)
  clk : E (.hardwareUnavailable .clk .value)
  clock : ¬SendReady s → E (.preconditionViolation .clk .sendClockNotLowOutput)
  data : ¬SendReady s → E (.preconditionViolation .dat .sendDataNotOutput)

theorem SendErrors.congr (h : SendErrors s E) (hst : SendReady s → SendReady t) : SendErrors t E :=
  ⟨h.dat, h.clk, h.clock ∘ mt hst, h.data ∘ mt hst⟩

theorem raisesAt_busSend (h : SendErrors s E) (v n : Nat) : RaisesAt s E (busSend v n) := by
  by_cases hc : s.pin .clk = drivenLow
  · by_cases hd : (s.pin .dat).acquired = true ∧ (s.pin .dat).dir = .output
    · have hready : SendReady s := ⟨hc, hd⟩
      exact (raisesAt_sendBits h.dat h.clk hready.busDriven n v).congr (busSend_ready hready)
    · exact raisesAt_of_error (busSend_data hc hd) (h.data fun hready => hd hready.2)
  · exact raisesAt_of_error (busSend_clock hc) (h.clock fun hready => hc hready.1)

theorem raisesAt_sendKey (h : SendErrors s E) : RaisesAt s E sendKey :=
  raisesAt_bind (raisesAt_busSend h _ _) fun _ _ ht =>
    raisesAt_busSend (h.congr fun _ => (busSend_returns ht).1) _ _

/-! ## Commands (R76) -/

/-- R91: the admission of a command changes no pin. -/
theorem commandAdmit_returns {a : Unit} (h : commandAdmit.run s = .ok a t) : SendReady s → SendReady t := by
  cases h
  dsimp only
  split <;> exact id

/-- R76: every command sends its opcode first, and its lines are then ready for the rest. -/
theorem raisesAt_opcode {f : Unit → Op α} (h : SendErrors s E) (op : Nat)
    (hf : ∀ t, SendReady t → RaisesAt t E (f ⟨⟩)) :
    RaisesAt s E (commandAdmit >>= fun _ => busSend op Config.opcodeBits >>= f) := by
  refine raisesAt_bind (raisesAt_of_ok (op_modify _ s)) fun _ t ht => ?_
  have ht : SendErrors t E := h.congr (commandAdmit_returns ht)
  exact raisesAt_bind (raisesAt_busSend ht _ _) fun _ u hu => hf u (busSend_returns hu).1

theorem raisesAt_controlCommand (h : SendErrors s E) (op : Nat) (d : Delay) : RaisesAt s E (controlCommand op d) :=
  raisesAt_opcode h op fun _ _ => raisesAt_emit _

theorem raisesAt_writeCommand (h : SendErrors s E) (op d : Nat) : RaisesAt s E (writeCommand op d) :=
  raisesAt_opcode h op fun t ht => raisesAt_ok_bind (op_emit _ t) <|
    raisesAt_bind (raisesAt_busSend (s := t.emit (.hold .tCmd)) (h.congr fun _ => ht) _ _) fun _ _ _ => raisesAt_emit _

/-- R80: with `DAT` turned to the target, the preconditions of the receive hold. -/
theorem raisesAt_receivePayload (hdat : E (.hardwareUnavailable .dat .value))
    (hclk : E (.hardwareUnavailable .clk .value)) (hdir : E (.hardwareUnavailable .dat .direction))
    (hready : SendReady s) : RaisesAt s E receivePayload := by
  obtain ⟨hlow, hacq, _⟩ := hready
  refine raisesAt_bind (raisesAt_pinSetDir (false_of_acquired hacq) _ hdir) fun _ t ht => ?_
  have hpins := pinSetDir_returns ht
  have hin : t.pin .dat = PinRec.claimed.withDir .dirIn := by rw [State.pin_eq, hpins]; rfl
  have hlow : t.pin .clk = drivenLow := by rw [State.pin_eq, hpins]; exact hlow
  refine raisesAt_bind (raisesAt_busRecv hdat hclk _ (fun hno => absurd hlow hno)
    (fun hno => absurd (by rw [hin]; exact ⟨rfl, rfl⟩) hno)) fun _ u hu => ?_
  have hheld : (u.pin .dat).acquired = true := by rw [State.pin_eq, busRecv_returns hu, ← State.pin_eq, hin]; rfl
  exact raisesAt_bind (raisesAt_pinSetDir (false_of_acquired hheld) _ hdir) fun _ _ _ =>
    raisesAt_bind (raisesAt_emit _) fun _ _ _ => raisesAt_pure _

theorem raisesAt_readCommand (h : SendErrors s E) (hdir : E (.hardwareUnavailable .dat .direction)) (op : Nat) :
    RaisesAt s E (readCommand op) :=
  raisesAt_opcode h op fun t ht => raisesAt_ok_bind (op_emit _ t) <|
    raisesAt_receivePayload (s := t.emit (.hold .tCmd)) h.dat h.clk hdir ht

/-! ## Entry operations (R89, R90) -/

theorem raisesAt_sessionReset (hclaim : E (.hardwareUnavailable .rst .claim))
    (hdir : E (.hardwareUnavailable .rst .direction)) (hvalue : E (.hardwareUnavailable .rst .value)) :
    RaisesAt s E sessionReset :=
  raisesAt_bind (raisesAt_pinEnsureOutWrite (fun _ => hclaim) _ hdir hvalue) fun _ _ _ =>
    raisesAt_bind (raisesAt_emit _) fun _ _ _ => raisesAt_of_ok (op_modify _ _)

/-- R90: the lines are ready for the key once they are set up. -/
theorem raisesAt_enterLvp (h : ∀ p op, p ∈ [Pin.clk, .dat] → op ∈ [ProviderOp.claim, .direction, .value] →
    E (.hardwareUnavailable p op)) : RaisesAt s E enterLvp := by
  have hunavailable : ∀ p ∈ [Pin.clk, .dat], E (.hardwareUnavailable p .claim) ∧ E (.hardwareUnavailable p .direction) ∧
      E (.hardwareUnavailable p .value) := fun p hp => ⟨h p _ hp (by simp), h p _ hp (by simp), h p _ hp (by simp)⟩
  obtain ⟨cclaim, cdir, cvalue⟩ := hunavailable .clk (by simp)
  obtain ⟨dclaim, ddir, dvalue⟩ := hunavailable .dat (by simp)
  refine raisesAt_bind (raisesAt_pinEnsureOutWrite (fun _ => cclaim) _ cdir cvalue) fun _ t ht => ?_
  refine raisesAt_bind (raisesAt_pinSetDir (fun _ => dclaim) _ ddir) fun _ u hu => ?_
  have hready : SendReady u := sendReady_of_entry ht hu
  have hsend : SendErrors u E := ⟨dvalue, cvalue, fun hno => absurd hready hno, fun hno => absurd hready hno⟩
  exact raisesAt_bind (raisesAt_sendKey hsend) fun _ _ _ =>
    raisesAt_bind (raisesAt_emit _) fun _ _ _ => raisesAt_of_ok (op_modify _ _)

end Sys2Proof.Machine
end

section
/-! PROOFS. Which errors a run of `VERIFY` can raise (spec/44_verification.md R97 to R99, spec/60_exceptions.md R108,
R114): after every command the lines are ready for the next, and pass 0 has recorded every word that a later pass
compares. -/

namespace Sys2Proof.Machine

variable {s t u : State} {E : OpError → Prop} {base : Nat} {steps xs : List VerifyStep} {x : VerifyStep}

/-! ## Boundaries (R114) -/

/-- R114: a boundary draws once, then returns or takes the request; nothing else has changed. -/
theorem boundary_cases (s : State) : ∃ u, (u = s.drawnOnce ∨ ∃ l, u = s.withIrqs l) ∧
    (boundary.run s = .ok ⟨⟩ u ∨ boundary.run s = .error .interrupted (u.withIrqPending false)) := by
  obtain ⟨b, u, hu, hd⟩ : ∃ b u, (u = s.drawnOnce ∨ ∃ l, u = s.withIrqs l) ∧ drawIrq.run s = .ok b u := by
    rcases drawIrq_cases s with ⟨b, l, _, hd⟩ | ⟨_, hd⟩
    · exact ⟨b, _, .inr ⟨l, rfl⟩, hd⟩
    · exact ⟨_, _, .inl rfl, hd⟩
  refine ⟨u, hu, ?_⟩
  rw [boundary, op_bind_ok hd, op_bind_ok (op_get u)]
  split
  · exact .inr rfl
  · exact .inl rfl

theorem raisesAt_boundary (h : E .interrupted) : RaisesAt s E boundary := by
  obtain ⟨u, _, he | he⟩ := boundary_cases s
  · exact raisesAt_of_ok he
  · exact raisesAt_of_error he h

/-! ## The state between commands -/

/-- R71, R98: the lines are ready, the range begins where the session's does, and the words that pass 0 has read are in
the snapshot. -/
structure Recording (base : Nat) (steps : List VerifyStep) (t : State) : Prop where
  ready : SendReady t
  cfg : t.cfg.verifyBase = base
  wf : Memory.wf t.snap = true
  recorded : ∀ k, .read 0 k ∈ steps → ∃ w, Memory.read t.snap (base + k) = some w

theorem Recording.congr (h : Recording base steps t) (hready : SendReady u) (hcfg : u.cfg = t.cfg)
    (hsnap : u.snap = t.snap) : Recording base steps u :=
  ⟨hready, hcfg ▸ h.cfg, hsnap ▸ h.wf, hsnap ▸ h.recorded⟩

theorem Recording.boundary {a : Unit} (h : Recording base steps t) (hb : boundary.run t = .ok a u) :
    Recording base steps u := by
  obtain ⟨w, hw, he | he⟩ := boundary_cases t <;> rw [he] at hb <;> cases hb
  rcases hw with rfl | ⟨l, rfl⟩ <;> exact h.congr h.ready rfl rfl

/-- A command that is no read of pass 0 adds no word to be found. -/
theorem Recording.concat (h : Recording base steps t) (hx : ∀ k, x ≠ .read 0 k) : Recording base (steps ++ [x]) t :=
  { h with recorded := fun k hk => h.recorded k (by simpa [(hx k).symm] using hk) }

/-- R98: the word of pass 0 is found from then on. -/
theorem Recording.record (h : Recording base steps t) (k : Nat) (v : Word) :
    Recording base (steps ++ [.read 0 k]) (t.withSnap (Memory.write t.snap (base + k) v)) where
  ready := h.ready
  cfg := h.cfg
  wf := Memory.wf_write _ _ _ h.wf
  recorded k' hk := by
    rw [State.withSnap_snap, Memory.read_write _ _ _ _ h.wf]
    split
    · exact ⟨v, rfl⟩
    next hne =>
      have hkk : k' ≠ k := by rintro rfl; exact hne rfl
      exact h.recorded k' (by simpa [hkk] using hk)

/-! ## One command (R97 to R99) -/

theorem controlCommand_returns {op : Nat} {d : Delay} {a : Unit} (h : (controlCommand op d).run s = .ok a t) :
    SendReady t := by
  obtain ⟨_, v, _, h⟩ := op_bind_returns h
  obtain ⟨_, w, hw, h⟩ := op_bind_returns h
  cases h
  exact (busSend_returns hw).1

theorem writeCommand_returns {op d : Nat} {a : Unit} (h : (writeCommand op d).run s = .ok a t) : SendReady t := by
  obtain ⟨_, v, _, h⟩ := op_bind_returns h
  obtain ⟨_, w, _, h⟩ := op_bind_returns h
  rw [op_bind_ok (op_emit _ w)] at h
  obtain ⟨_, y, hy, h⟩ := op_bind_returns h
  cases h
  exact (busSend_returns hy).1

theorem readCommand_returns {op : Nat} {v : Word} (h : (readCommand op).run s = .ok v t) : SendReady t := by
  rw [readCommand_eq] at h
  obtain ⟨_, w, _, h⟩ := op_bind_returns h
  obtain ⟨_, y, hy, h⟩ := op_bind_returns h
  rw [op_bind_ok (op_emit _ y)] at h
  obtain ⟨hlow, _⟩ := (busSend_returns hy).1
  have hpins := receivePayload_returns h
  refine ⟨?_, ?_, ?_⟩ <;> rw [State.pin_eq, hpins]
  · exact hlow
  · rfl
  · rfl

/-- The commands of the lines leave the parameters and the snapshot as they are. -/
theorem Recording.lines {α : Type} {y : Op α} {a : α} (h : Recording base steps t)
    (hkeeps : ∀ {R : State → State → Prop}, LineActions R → Keeps R y) (hrun : y.run t = .ok a u)
    (hready : SendReady u) : Recording base steps u :=
  h.congr hready ((hkeeps cfgKept_actions.toLineActions).returns _ _ _ hrun)
    ((hkeeps comparatorKept_actions).returns _ _ _ hrun).snap

/-- R99: a comparison that returns writes no more than a report. -/
theorem compare_returns {i a : Nat} {v : Word} {b : Unit} (h : (compare i a v).run t = .ok b u) :
    u = t ∨ ∃ ms, u = t.withMismatches ms := by
  rw [compare, op_bind_ok (op_get t)] at h
  cases hread : Memory.read t.snap a with
  | none => rw [hread] at h; cases h
  | some e =>
    simp only [hread] at h
    split at h <;> cases h
    · exact .inl rfl
    · exact .inr ⟨_, rfl⟩

theorem Recording.checkWord {i k : Nat} {v : Word} {a : Unit} (h : Recording base steps t)
    (hrun : (checkWord i (base + k) v).run t = .ok a u) : Recording base (steps ++ [.read i k]) u := by
  unfold Sys2Proof.Machine.checkWord at hrun
  split at hrun
  next hi =>
    subst hi
    cases hrun
    exact h.record k v
  next hi =>
    have hconcat : Recording base (steps ++ [.read i k]) t := h.concat fun k' hk => hi (VerifyStep.read.inj hk).1
    rcases compare_returns hrun with rfl | ⟨ms, rfl⟩
    · exact hconcat
    · exact hconcat.congr hconcat.ready rfl rfl

theorem Recording.command {a : Unit} (h : Recording base steps t) (hrun : x.command.run t = .ok a u) :
    Recording base (steps ++ [x]) u := by
  cases x with
  | load =>
    exact (h.lines (fun hR => keeps_writeCommand hR _ _) hrun (writeCommand_returns hrun)).concat nofun
  | read i k =>
    rw [read_command_run, h.cfg] at hrun
    obtain ⟨v, w, hw, hrun⟩ := op_bind_returns hrun
    exact (h.lines (fun hR => keeps_readCommand hR _) hw (readCommand_returns hw)).checkWord hrun
  | inc | reset =>
    exact (h.lines (fun hR => keeps_controlCommand hR _ _) hrun (controlCommand_returns hrun)).concat nofun

/-- R99: a word of a later pass is compared with a recorded one. -/
theorem raisesAt_checkWord {i k : Nat} (h : Recording base steps t) (hbefore : ReadBefore steps (.read i k))
    (v : Word) : RaisesAt t E (checkWord i (base + k) v) := by
  unfold checkWord
  split
  · exact raisesAt_of_ok (op_modify _ t)
  next hi =>
    obtain ⟨w, hw⟩ := h.recorded k (hbefore hi)
    refine raisesAt_ok_bind (op_get t) ?_
    rw [hw]
    dsimp only
    split
    · exact raisesAt_pure _
    · exact raisesAt_of_ok (op_modify _ t)

/-! ## The errors of a run (R97, R114) -/

/-- R97, R114: a run of at least one pass is its first command, and then the others with a boundary before each. -/
theorem verifyPasses_succ_run (n : Nat) : ∃ rest, verifySteps (n + 1) s.cfg.verifyCount = .load :: rest ∧
    (verifyPasses 0 (n + 1)).run s = (VerifyStep.load.command >>= fun _ => runSteps rest).run s := by
  refine ⟨wordSteps 0 (List.range s.cfg.verifyCount) ++ [.reset] ++
    (List.range' 1 n).flatMap (passSteps s.cfg.verifyCount), ?_, ?_⟩
  · rw [verifySteps_eq, List.range_eq_range', List.range'_succ, List.flatMap_cons]
    rfl
  · have hlater : (verifyPass 0 >>= fun _ => verifyPasses 1 n).run s =
        (verifyPass 0 >>= fun _ => runSteps ((List.range' 1 n).flatMap (passSteps s.cfg.verifyCount))).run s := by
      refine run_bind_congr (keeps_verifyPass cfgKept_actions 0) fun _ t ht => ?_
      rw [← ht]
      cases n with
      | zero => rfl
      | succ n => exact boundary_verifyPasses_run 1 n
    refine hlater.trans ?_
    rw [verifyPass_bind_run, runSteps_append (wordSteps 0 (List.range s.cfg.verifyCount) ++ [VerifyStep.reset])]

section
variable (hsend : SendErrors s E) (hdir : E (.hardwareUnavailable .dat .direction)) (hirq : E .interrupted)
include hsend hdir

theorem raisesAt_command (h : Recording base steps t) (hbefore : ReadBefore steps x) : RaisesAt t E x.command := by
  have hsend : SendErrors t E := hsend.congr fun _ => h.ready
  cases x with
  | load => exact raisesAt_writeCommand hsend _ _
  | read i k =>
    refine RaisesAt.congr ?_ (read_command_run i k t)
    rw [h.cfg]
    refine raisesAt_bind (raisesAt_readCommand hsend hdir _) fun v u hu => ?_
    exact raisesAt_checkWord (h.lines (fun hR => keeps_readCommand hR _) hu (readCommand_returns hu)) hbefore v
  | inc | reset => exact raisesAt_controlCommand hsend _ _

include hirq

theorem raisesAt_runSteps (h : Recording base steps t) (hbefore : ReadsBefore (steps ++ xs)) :
    RaisesAt t E (runSteps xs) := by
  induction xs generalizing steps t with
  | nil => exact raisesAt_pure _
  | cons x xs ih =>
    refine raisesAt_bind (raisesAt_boundary hirq) fun _ u hu => ?_
    refine raisesAt_bind (raisesAt_command hsend hdir (h.boundary hu) (hbefore steps x xs rfl)) fun _ w hw => ?_
    exact ih ((h.boundary hu).command hw) (by rwa [List.append_assoc])

theorem raisesAt_verifyPasses (hempty : s.snap = []) (n : Nat) : RaisesAt s E (verifyPasses 0 n) := by
  cases n with
  | zero => exact raisesAt_pure _
  | succ n =>
    obtain ⟨rest, hsteps, hrun⟩ := verifyPasses_succ_run (s := s) n
    refine RaisesAt.congr (raisesAt_bind (raisesAt_writeCommand hsend _ _) fun _ t ht => ?_) hrun
    have hsnap : t.snap = [] := ((keeps_writeCommand comparatorKept_actions _ _).returns _ _ _ ht).snap.trans hempty
    have hfirst : Recording t.cfg.verifyBase [.load] t :=
      ⟨writeCommand_returns ht, rfl, by rw [hsnap]; rfl, by simp⟩
    have hbefore := readsBefore_verifySteps (n + 1) s.cfg.verifyCount
    rw [hsteps] at hbefore
    exact raisesAt_runSteps hsend hdir hirq hfirst hbefore

theorem raisesAt_verifyAll (n : Nat) : RaisesAt s E (verifyAll n) := by
  refine raisesAt_ok_bind (op_modify _ s) (raisesAt_bind ?_ fun _ u _ => raisesAt_ok_bind (op_get u) (raisesAt_pure _))
  exact raisesAt_verifyPasses (s := (s.withSnap []).withMismatches []) (hsend.congr id) hdir hirq rfl n

end

end Sys2Proof.Machine
end

section
/-! PROOFS. Where an error of each kind can come from (spec/60_exceptions.md R103 to R109): the errors that the body of
each operation can raise, those that a teardown collects, and that the pins of the entry invariant (spec/10_state.md
R27) leave no precondition to fail. -/

namespace Sys2Proof.Machine

variable {s t : State} {i : Instr}

/-! ## The errors of each operation -/

/-- R104 to R109: the errors that an operation other than `EXIT` can raise when it is invoked in the state. -/
inductive Raisable (i : Instr) (s : State) : OpError → Prop where
  | unavailable {p : Pin} {op : ProviderOp} (h : (p, op) ∈ raisableOps i) : Raisable i s (.hardwareUnavailable p op)
  | noBit {p : Pin} {v : Int} (hi : i = .write p v) (hv : pinValueBit v = none) : Raisable i s (.invalidPinValue v)
  | writeInput {p : Pin} {v : Int} (hi : i = .write p v) : Raisable i s (.preconditionViolation p .writeToInput)
  | readOutput {p : Pin} (hi : i = .read p) : Raisable i s (.preconditionViolation p .readOfOutput)
  | sendClock (hi : Sends i) (hs : ¬SendReady s) : Raisable i s (.preconditionViolation .clk .sendClockNotLowOutput)
  | sendData (hi : Sends i) (hs : ¬SendReady s) : Raisable i s (.preconditionViolation .dat .sendDataNotOutput)
  | recvClock {n : Nat} (hi : i = .recv n) : Raisable i s (.preconditionViolation .clk .recvClockNotLowOutput)
  | recvData {n : Nat} (hi : i = .recv n) : Raisable i s (.preconditionViolation .dat .recvDataNotInput)
  | interrupted (hi : i = .interrupt ∨ ∃ n, i = .verify n) : Raisable i s .interrupted

/-- R71, R108: an operation that sends can raise every error of a `SEND` from the state it starts in. -/
theorem sendErrors_of_sends (hi : Sends i) (hops : [(Pin.dat, ProviderOp.value), (.clk, .value)] ⊆ raisableOps i) :
    SendErrors s (Raisable i s) :=
  ⟨.unavailable (hops (by simp)), .unavailable (hops (by simp)), .sendClock hi, .sendData hi⟩

theorem sendErrors_of_command (hi : isCommand i = true) : SendErrors s (Raisable i s) := by
  refine sendErrors_of_sends (.inl hi) ?_
  cases i with
  | loadConfig | loadData | readData | incAddr | resetAddr | beginProg | bulkErase | rowErase => simp [raisableOps]
  | _ => cases hi

/-- Every operation but `EXIT` and `SESSION_NEW` is one invocation of a body that raises no error but its own. -/
theorem exec_eq_raisable (hx : i ≠ .exit) (hn : ∀ c, i ≠ .sessionNew c) :
    ∃ body, (∀ s, RaisesAt s (Raisable i s) body) ∧ ∀ s, exec i s = invoke (opClass i) (operandRefusal i) body s := by
  cases i with
  | loadConfig d | loadData d =>
    exact ⟨_, fun s => raisesAt_noValue (raisesAt_writeCommand (sendErrors_of_command rfl) _ d), fun _ => rfl⟩
  | readData =>
    have hread : ∀ s, RaisesAt s (Raisable .readData s) (readCommand 0x04) := fun s =>
      raisesAt_readCommand (sendErrors_of_command rfl) (.unavailable (by simp [raisableOps])) _
    exact ⟨_, fun s => raisesAt_bind (hread s) fun _ _ _ => raisesAt_pure _, exec_readData⟩
  | incAddr | resetAddr | beginProg | bulkErase | rowErase =>
    exact ⟨_, fun s => raisesAt_noValue (raisesAt_controlCommand (sendErrors_of_command rfl) _ _), fun _ => rfl⟩
  | lvpKey =>
    have hsend : ∀ s, SendErrors s (Raisable .lvpKey s) := fun s =>
      sendErrors_of_sends (.inr (.inl rfl)) (List.Subset.refl _)
    exact ⟨_, fun s => raisesAt_noValue (raisesAt_sendKey (hsend s)), exec_lvpKey⟩
  | acquire p =>
    exact ⟨_, fun s => raisesAt_noValue (raisesAt_pinAcquire fun _ => .unavailable (by simp [raisableOps])),
      fun s => exec_acquire s p⟩
  | setDir p d =>
    refine ⟨_, fun s => raisesAt_noValue ?_, fun s => exec_setDir s p d⟩
    cases d with
    | word d =>
      exact raisesAt_pinSetDir (fun _ => .unavailable (by simp [raisableOps])) d (.unavailable (by simp [raisableOps]))
    | other text => exact raisesAt_pure _
  | write p v =>
    refine ⟨_, fun s => raisesAt_noValue ?_, fun s => exec_write s p v⟩
    exact raisesAt_pinWrite (fun _ => .unavailable (by simp [raisableOps])) (.noBit rfl) (fun _ => .writeInput rfl)
      (.unavailable (by simp [raisableOps]))
  | read p =>
    refine ⟨_, fun s => raisesAt_bind ?_ fun _ _ _ => raisesAt_pure _, fun s => exec_read s p⟩
    exact raisesAt_pinRead (fun _ => .unavailable (by simp [raisableOps])) (fun _ _ => .readOutput rfl)
      (.unavailable (by simp [raisableOps]))
  | release p =>
    exact ⟨_, fun s => raisesAt_noValue (raisesAt_pinRelease (.unavailable (by simp [raisableOps]))),
      fun s => exec_release s p⟩
  | ensureOutWrite p b =>
    refine ⟨_, fun s => raisesAt_noValue ?_, fun s => exec_ensureOutWrite s p b⟩
    exact raisesAt_pinEnsureOutWrite (fun _ => .unavailable (by simp [raisableOps])) b
      (.unavailable (by simp [raisableOps])) (.unavailable (by simp [raisableOps]))
  | reverse v n => exact ⟨_, fun s => raisesAt_pure _, fun s => exec_reverse s v n⟩
  | send v n =>
    have hsend : ∀ s, SendErrors s (Raisable (.send v n) s) := fun s =>
      sendErrors_of_sends (.inr (.inr (.inl ⟨v, n, rfl⟩))) (List.Subset.refl _)
    exact ⟨_, fun s => raisesAt_noValue (raisesAt_busSend (hsend s) v n), fun s => exec_send s v n⟩
  | recv n =>
    refine ⟨_, fun s => raisesAt_bind ?_ fun _ _ _ => raisesAt_pure _, fun s => exec_recv s n⟩
    exact raisesAt_busRecv (.unavailable (by simp [raisableOps])) (.unavailable (by simp [raisableOps])) n
      (fun _ => .recvClock rfl) fun _ => .recvData rfl
  | sessionNew c => exact absurd rfl (hn c)
  | reset =>
    refine ⟨_, fun s => raisesAt_noValue ?_, exec_reset⟩
    exact raisesAt_sessionReset (.unavailable (by simp [raisableOps])) (.unavailable (by simp [raisableOps]))
      (.unavailable (by simp [raisableOps]))
  | enterLvp =>
    refine ⟨_, fun s => raisesAt_noValue (raisesAt_enterLvp fun p op hp hop => .unavailable ?_), exec_enterLvp⟩
    simp only [List.mem_cons, List.not_mem_nil, or_false] at hp hop
    rcases hp with rfl | rfl <;> rcases hop with rfl | rfl | rfl <;> simp [raisableOps]
  | exit => exact absurd rfl hx
  | verify n =>
    have hsend : ∀ s, SendErrors s (Raisable (.verify n) s) := fun s =>
      sendErrors_of_sends (.inr (.inr (.inr ⟨n, rfl⟩))) (by simp [raisableOps])
    refine ⟨_, fun s => ?_, fun s => exec_verify s n⟩
    exact raisesAt_verifyAll (hsend s) (.unavailable (by simp [raisableOps])) (.interrupted (.inr ⟨n, rfl⟩)) n
  | interrupt => exact ⟨_, fun s => raisesAt_of_error (op_throw _ s) (.interrupted (.inl rfl)), exec_interrupt⟩

/-! ## The failures of a teardown (R93, R107) -/

/-- R104: every failure collected is a provider failure of its own pin. -/
def PinFailures (fs : List (Pin × OpError)) : Prop := ∀ x ∈ fs, ∃ op, x.2 = .hardwareUnavailable x.1 op

theorem collect_pinFailures {x : Op Unit} {p : Pin} {r : List (Pin × OpError) × State} (hr : PinFailures r.1)
    (hx : RaisesAt r.2 (fun e => ∃ op, e = .hardwareUnavailable p op) x) : PinFailures (collect p x r).1 := by
  unfold collect
  cases hrun : x.run r.2 with
  | ok a t => exact hr
  | error e t =>
    intro y hy
    rcases List.mem_append.1 hy with hy | hy
    · exact hr y hy
    · rw [List.mem_singleton.1 hy]
      exact hx e t hrun

theorem teardownPins_pinFailures (ps : List Pin) {r : List (Pin × OpError) × State} (hr : PinFailures r.1) :
    PinFailures (teardownPins ps r).1 := by
  induction ps generalizing r with
  | nil => exact hr
  | cons p ps ih =>
    unfold teardownPins
    split
    · refine ih (collect_pinFailures (collect_pinFailures hr ?_) (raisesAt_pinRelease ⟨_, rfl⟩))
      exact raisesAt_pinSetDir (fun _ => ⟨_, rfl⟩) _ ⟨_, rfl⟩
    · exact ih hr

theorem teardown_pinFailures (s : State) : PinFailures (teardown s).1 := by
  refine teardownPins_pinFailures s.tracked ?_
  have hnone : PinFailures [] := by simp [PinFailures]
  unfold releaseReset
  split
  · exact collect_pinFailures hnone (raisesAt_pinEnsureOutWrite (fun _ => ⟨_, rfl⟩) _ ⟨_, rfl⟩ ⟨_, rfl⟩)
  · exact hnone

/-! ## The error of an invocation (R111) -/

/-- One result follows the results before it, so it is known from the results after it. -/
theorem result_eq {rs rs' : List OpResult} {r r' : OpResult} (h : rs ++ [r] = rs' ++ [r']) : r = r' :=
  List.singleton_inj.1 (List.append_inj' h rfl).2

theorem abort_result (e : OpError) (u : State) :
    ∃ f, PinFailures f ∧ (abort e u).results = u.results ++ [.err (.op e) f] := by
  by_cases hs : u.state = .exited
  · exact ⟨[], by simp [PinFailures], by rw [abort_exited e hs]⟩
  · exact ⟨_, teardown_pinFailures u, by rw [abort_live e hs]⟩

/-- R107, R111: where the result of an invocation is an error, `EXIT` has collected failures, or an admitted body has
raised it and the abort path has collected the rest. -/
inductive ErrorFrom (i : Instr) (s : State) (f : List (Pin × OpError)) : SessionError → Prop where
  | exit (hi : i = .exit) (hf : f = []) (hne : (teardown s).1 ≠ []) : ErrorFrom i s f (.teardownFailure (teardown s).1)
  | body {e : OpError} (ha : admits (opClass i) s.state = true) (he : Raisable i s e) (hf : PinFailures f) :
    ErrorFrom i s f (.op e)

/-- An invocation that ends with an error was admitted. -/
theorem guarded_error {c : OpClass} {bad : Option RefuseReason} {run : State → State} {e : SessionError}
    {f : List (Pin × OpError)} (h : guarded c bad run s = .next t) (hres : t.results = s.results ++ [.err e f]) :
    admits c s.state = true ∧ t = run s := by
  rcases guarded_cases c bad run s with ⟨w, _, he⟩ | ⟨_, _, he⟩ | ⟨_, ha, he⟩ <;> rw [he] at h <;> cases h
  · cases result_eq hres
  · cases result_eq hres
  · exact ⟨ha, rfl⟩

section
variable {e : SessionError} {f : List (Pin × OpError)}

theorem exec_exit_errorFrom (h : exec .exit s = .next t) (hres : t.results = s.results ++ [.err e f]) :
    ErrorFrom .exit s f e := by
  rw [exec_exit] at h
  obtain ⟨_, rfl⟩ := guarded_error h hres
  rw [completeExit_eq] at hres
  have hresult := result_eq hres
  split at hresult
  next => cases hresult
  next hne => cases hresult; exact .exit rfl rfl hne

theorem exec_body_errorFrom (hx : i ≠ .exit) (hn : ∀ c, i ≠ .sessionNew c) (h : exec i s = .next t)
    (hres : t.results = s.results ++ [.err e f]) : ErrorFrom i s f e := by
  obtain ⟨body, hraises, hexec⟩ := exec_eq_raisable hx hn
  rw [hexec, invoke] at h
  obtain ⟨ha, rfl⟩ := guarded_error h hres
  unfold complete at hres
  cases hrun : body.run s with
  | ok v u => rw [hrun] at hres; cases result_eq hres
  | error o u =>
    obtain ⟨g, hg, habort⟩ := abort_result o u
    rw [hrun] at hres
    cases result_eq (habort.symm.trans hres)
    exact .body ha (hraises s o u hrun) hg

theorem exec_errorFrom (h : exec i s = .next t) (hres : t.results = s.results ++ [.err e f]) : ErrorFrom i s f e := by
  by_cases hn : ∃ c, i = .sessionNew c
  · obtain ⟨c, rfl⟩ := hn
    rcases execSessionNew_cases c s with ⟨_, he⟩ | ⟨_, he⟩ <;> rw [he] at h <;> cases h <;> cases result_eq hres
  · by_cases hx : i = .exit
    · subst hx
      exact exec_exit_errorFrom h hres
    · exact exec_body_errorFrom hx (fun c hc => hn ⟨c, hc⟩) h hres

end

theorem pinValueBit_eq_none {v : Int} (h : pinValueBit v = none) : v ≠ 0 ∧ v ≠ 1 := by
  constructor <;> rintro rfl <;> cases h

/-- Settles O41: the result is read off `EXIT` or off the errors that the body can raise. -/
theorem errorOrigins : Obligations.ErrorOrigins := by
  intro i s t e f h hres
  cases exec_errorFrom h hres with
  | exit hi hf hne =>
    refine ⟨nofun, nofun, nofun, nofun, nofun, fun fs hfs => ?_, by simp [hf]⟩
    cases hfs
    exact ⟨hi, hne, teardown_pinFailures s⟩
  | body _ he hf =>
    refine ⟨?_, ?_, ?_, ?_, ?_, nofun, hf⟩
    · rintro v ⟨⟩
      cases he with
      | noBit hi hv => exact ⟨(pinValueBit_eq_none hv).1, (pinValueBit_eq_none hv).2, _, hi⟩
    · rintro ⟨⟩
      cases he with
      | interrupted hi => exact hi
    · rintro p op ⟨⟩
      cases he with
      | unavailable hmem => exact hmem
    · rintro p c ⟨⟩
      cases he with
      | writeInput hi => exact ⟨_, hi⟩
      | readOutput hi => exact hi
      | sendClock hi _ | sendData hi _ => exact ⟨rfl, hi⟩
      | recvClock hi | recvData hi => exact ⟨rfl, _, hi⟩
    · rintro a ⟨⟩
      cases he

/-! ## The entry invariant leaves no precondition to fail (R27, R108) -/

/-- R27: an admitted operation that sends, other than the direct ones, finds its pins ready. -/
theorem sendReady_of_entryInv (hinv : EntryInv s) (herr : s.err = none)
    (hi : isCommand i = true ∨ ∃ n, i = .verify n) (ha : admits (opClass i) s.state = true) : SendReady s := by
  have hclass : opClass i = .command ∨ opClass i = .verify := by
    rcases hi with hi | ⟨n, rfl⟩
    · cases i with
      | loadConfig | loadData | readData | incAddr | resetAddr | beginProg | bulkErase | rowErase => exact .inl rfl
      | _ => cases hi
    · exact .inr rfl
  exact ((hinv herr).2 (programming_of_admits hclass ha)).2

/-- R108: of the session operations, the commands and `VERIFY`, those that send are the last two. -/
theorem command_or_verify_of_sends
    (hi : i = .reset ∨ i = .enterLvp ∨ i = .exit ∨ isCommand i = true ∨ ∃ n, i = .verify n) (hsends : Sends i) :
    isCommand i = true ∨ ∃ n, i = .verify n := by
  have hnot : ∀ j ∈ [Instr.reset, .enterLvp, .exit], ¬Sends j := by simp [Sends, isCommand]
  rcases hi with rfl | rfl | rfl | hi
  · exact absurd hsends (hnot _ (by simp))
  · exact absurd hsends (hnot _ (by simp))
  · exact absurd hsends (hnot _ (by simp))
  · exact hi

/-- Settles O42: the only preconditions of these operations are those of their first `SEND`, whose pins are ready. -/
theorem noPreconditionFault : Obligations.NoPreconditionFault := by
  intro i s t hinv herr hi h
  refine ⟨fun p c f hres => ?_, fun a f hres => ?_⟩
  · cases exec_errorFrom h hres with
    | body ha he _ =>
      cases he with
      | sendClock hsends hnot | sendData hsends hnot =>
        exact hnot (sendReady_of_entryInv hinv herr (command_or_verify_of_sends hi hsends) ha)
      | writeInput hw | readOutput hw | recvClock hw | recvData hw =>
        subst hw
        simp [isCommand] at hi
  · cases exec_errorFrom h hres with
    | body _ he _ => cases he

end Sys2Proof.Machine
end

section
/-! PROOFS. No operation and no step stops the machine (spec/70_reset_and_hazards.md R135,
spec/93_implementation_defined.md Part 1): every operation answers a next state with one result, which tells how the
operation ended; with it the state after reset (R123). -/

namespace Sys2Proof.Machine

variable {s t : State} {i : Instr}

/-! ## The state after reset (R123) -/

/-- Settles O8: each field of the reset state is written out in its definition. -/
theorem resetStateFields : Obligations.ResetStateFields :=
  ⟨rfl, rfl, fun p => by cases p <;> rfl, rfl, rfl, rfl, rfl, rfl, rfl, rfl⟩

/-! ## Every operation and every step answers a next state -/

theorem guarded_next (c : OpClass) (bad : Option RefuseReason) (run : State → State) (s : State) :
    ∃ t, guarded c bad run s = .next t := by
  rcases guarded_cases c bad run s with ⟨w, _, he⟩ | ⟨_, _, he⟩ | ⟨_, _, he⟩
  exacts [⟨_, he⟩, ⟨_, he⟩, ⟨_, he⟩]

theorem exec_next (i : Instr) (s : State) : ∃ t, exec i s = .next t := by
  by_cases hn : ∃ c, i = .sessionNew c
  · obtain ⟨c, rfl⟩ := hn
    rcases execSessionNew_cases c s with ⟨_, he⟩ | ⟨_, he⟩
    exacts [⟨_, he⟩, ⟨_, he⟩]
  · obtain ⟨run, _, hexec⟩ := exec_eq_guarded fun c hc => hn ⟨c, hc⟩
    rw [hexec]
    exact guarded_next _ _ run s

/-- Settles O56: a step takes the interrupt, idles, runs an operation, or refuses a request that is none. -/
theorem everyStepGoesOn : Obligations.EveryStepGoesOn := by
  intro s
  cases hq : s.irqPending with
  | true =>
    rw [(stepTakesPendingInterrupt s hq).1]
    exact exec_next .interrupt _
  | false =>
    cases hh : s.host with
    | nil => exact ⟨s, step_idle hq hh⟩
    | cons r rest =>
      cases hd : r.decode with
      | ok i =>
        rw [step_decoded hq hh hd]
        exact exec_next i _
      | error e => exact ⟨_, step_undecodable hq hh hd⟩

/-! ## What the result tells (R10, R110, R111) -/

/-- R92, R111: an operation that returns enters `Exited` only as `EXIT`, since the abort path gives an error. -/
theorem exited_of_returned {v : Value} (hn : ∀ c, i ≠ .sessionNew c) (h : exec i s = .next t)
    (hres : t.results = s.results ++ [.ok v]) (ht : t.state = .exited) : i = .exit ∨ s.state = .exited := by
  obtain ⟨_, _, _, _, hexited, _⟩ := sessionStateMovesForward i s t hn h
  rcases hexited ht with hs | hi | ⟨e, u, habort⟩
  · exact .inr hs
  · exact .inl hi
  · rw [h] at habort
    cases habort
    obtain ⟨f, _, hf⟩ := abort_result e u
    rw [hf] at hres
    cases result_eq hres

/-- R111, R92: an operation that gives an error is `EXIT` or has taken the abort path, and ends in `Exited`. -/
theorem exited_of_raised {e : SessionError} {f : List (Pin × OpError)} (hn : ∀ c, i ≠ .sessionNew c)
    (h : exec i s = .next t) (hres : t.results = s.results ++ [.err e f]) :
    t.state = .exited ∧ (i = .exit ∨ ∃ o u, e = .op o ∧ t = abort o u) := by
  by_cases hx : i = .exit
  · subst hx
    rcases exec_exit_cases h with ⟨w, rfl⟩ | ht
    · cases result_eq hres
    · exact ⟨ht, .inl rfl⟩
  · rcases exec_ends hx hn h with ⟨w, rfl⟩ | ⟨o, u, rfl⟩ | ⟨v, u, rfl, _⟩
    · cases result_eq hres
    · obtain ⟨g, _, hg⟩ := abort_result o u
      rw [hg] at hres
      cases result_eq hres
      exact ⟨abort_state o u, .inr ⟨o, u, rfl, rfl⟩⟩
    · cases result_eq hres

/-- Settles O44: `SESSION_NEW` begins a session or is refused, and every other operation has one of three ends. -/
theorem everyOperationEnds : Obligations.EveryOperationEnds := by
  intro i s
  by_cases hnew : ∃ c, i = .sessionNew c
  · obtain ⟨c, rfl⟩ := hnew
    rcases execSessionNew_cases c s with ⟨_, h⟩ | ⟨_, h⟩
    · exact ⟨_, .refused .pinsNotDistinct, h, rfl, fun _ _ => rfl, nofun, nofun⟩
    · exact ⟨_, .ok .unit, h, rfl, nofun, fun _ _ hn => absurd rfl (hn c), nofun⟩
  · have hn : ∀ c, i ≠ .sessionNew c := fun c hc => hnew ⟨c, hc⟩
    obtain ⟨t, h⟩ := exec_next i s
    cases exec_ended (fun c hc => absurd hc (hn c)) h with
    | refused why ht =>
      subst ht
      exact ⟨_, .refused why, h, rfl, fun _ _ => rfl, nofun, nofun⟩
    | returned v herr href hres =>
      exact ⟨t, .ok v, h, hres, nofun, fun _ _ _ => ⟨herr, href, exited_of_returned hn h hres⟩, nofun⟩
    | raised e f herr href hres =>
      obtain ⟨ht, habort⟩ := exited_of_raised hn h hres
      refine ⟨t, .err e f, h, hres, nofun, nofun, fun e' f' he => ?_⟩
      cases he
      exact ⟨ht, herr, habort⟩

end Sys2Proof.Machine
end

section
/-! PROOFS. The reset line while no session operation drives it (spec/70_reset_and_hazards.md R132): the record of a pin
and the events on its line, said once for each primitive on another pin and composed along the operations of the bus. -/

namespace Sys2Proof.Machine

variable {α β : Type} {s t : State} {p q : Pin}

/-! ## A line that is left alone -/

/-- From one state to the other the record of the pin has not changed, and no event on its line has happened. -/
def LineHeld (q : Pin) (s t : State) : Prop :=
  t.pin q = s.pin q ∧ ∃ evs, t.trace = s.trace ++ evs ∧ ∀ e, e ∈ evs → ∀ x, Event.providerOp e = some x → x.1 ≠ q

theorem lineHeld_of_same (hpin : t.pin q = s.pin q) (htrace : t.trace = s.trace) : LineHeld q s t :=
  ⟨hpin, [], by rw [htrace, List.append_nil], nofun⟩

theorem lineHeld_composes (q : Pin) : Composes (LineHeld q) where
  refl _ := lineHeld_of_same rfl rfl
  trans := by
    rintro s t u ⟨hst, es, hes, hoff⟩ ⟨htu, es', hes', hoff'⟩
    refine ⟨htu.trans hst, es ++ es', by rw [hes', hes, List.append_assoc], fun e he => ?_⟩
    rcases List.mem_append.1 he with he | he
    · exact hoff e he
    · exact hoff' e he

theorem lineHeld_emit {e : Event} (s : State) (he : ∀ x, e.providerOp = some x → x.1 ≠ q) :
    LineHeld q s (s.emit e) := by
  refine ⟨by simp, [e], rfl, fun e' he' => ?_⟩
  rw [List.mem_singleton.1 he']
  exact he

/-! ## Operations that leave a line alone -/

theorem held_bind {x : Op α} {f : α → Op β} (hx : Keeps (LineHeld q) x) (hf : ∀ a, Keeps (LineHeld q) (f a)) :
    Keeps (LineHeld q) (x >>= f) := keeps_bind (lineHeld_composes q) hx hf

theorem held_pure (a : α) : Keeps (LineHeld q) (pure a : Op α) := keeps_pure (lineHeld_composes q) a

theorem held_throw (e : OpError) : Keeps (LineHeld q) (throw e : Op α) := keeps_throw (lineHeld_composes q) e

theorem held_get : Keeps (LineHeld q) (get : Op State) := keeps_get (lineHeld_composes q)

theorem held_modify {f : State → State} (hpin : ∀ s, (f s).pin q = s.pin q) (htrace : ∀ s, (f s).trace = s.trace) :
    Keeps (LineHeld q) (modify f) := keeps_modify f fun s => lineHeld_of_same (hpin s) (htrace s)

theorem held_hold (d : Delay) : Keeps (LineHeld q) (emit (.hold d)) := fun s => lineHeld_emit s nofun

/-- R67: a provider operation that has not been performed has touched no line. -/
theorem held_provider (p : Pin) (op : ProviderOp) : Keeps (LineHeld q) (provider p op) := by
  intro s
  obtain ⟨u, hu, hrun⟩ := provider_cases p op s
  have hheld : LineHeld q s u := by
    refine lineHeld_of_same (drawn_pin hu q) ?_
    rcases hu with rfl | ⟨l, rfl⟩ <;> rfl
  rcases hrun with h | h <;> rw [h] <;> exact hheld

theorem held_drawContent : Keeps (LineHeld q) drawContent := by
  intro s
  rcases drawContent_cases s with ⟨_, _, _, h⟩ | ⟨_, h⟩ <;> rw [h] <;> exact lineHeld_of_same (by simp [finalState]) rfl

/-- R114: a boundary between two commands touches no line. -/
theorem held_boundary : Keeps (LineHeld q) boundary := by
  intro s
  obtain ⟨u, hu, hrun⟩ := boundary_cases s
  have hheld : LineHeld q s u := by
    rcases hu with rfl | ⟨l, rfl⟩ <;> exact lineHeld_of_same (by simp) rfl
  rcases hrun with h | h <;> rw [h]
  · exact hheld
  · exact (lineHeld_composes q).trans _ _ _ hheld (lineHeld_of_same (by simp [finalState]) rfl)

/-! ## Primitives on another pin (R61 to R66) -/

section
variable (hp : p ≠ q)
include hp

/-- R11: an event on the line of another pin. -/
theorem held_event {e : Event} {op : ProviderOp} (he : e.providerOp = some (p, op)) : Keeps (LineHeld q) (emit e) :=
  fun s => lineHeld_emit s fun x hx => by
    rw [he] at hx
    cases hx
    exact hp

theorem held_setPin (g : PinRec → PinRec) : Keeps (LineHeld q) (modify fun s => s.setPin p (g (s.pin p))) :=
  held_modify (by simp [hp.symm]) (by simp)

theorem held_pinAcquire : Keeps (LineHeld q) (pinAcquire p) := by
  refine held_bind held_get fun _ => keeps_ite (fun _ => held_pure _) fun _ => ?_
  exact held_bind (held_provider p .claim) fun _ => held_bind (held_event hp rfl) fun _ =>
    held_modify (by simp [hp.symm]) (by simp)

theorem held_pinSetDir (d : DirWord) : Keeps (LineHeld q) (pinSetDir p d) :=
  held_bind (held_pinAcquire hp) fun _ => held_bind (held_provider p .direction) fun _ =>
    held_bind (held_event hp rfl) fun _ => held_setPin hp (·.withDir d)

theorem held_pinWrite (v : Int) : Keeps (LineHeld q) (pinWrite p v) := by
  refine held_bind (held_pinAcquire hp) fun _ => ?_
  cases pinValueBit v with
  | none => exact held_throw _
  | some b =>
    exact held_bind held_get fun _ => keeps_ite (fun _ => held_throw _) fun _ =>
      held_bind (held_provider p .value) fun _ => held_bind (held_event hp rfl) fun _ =>
        held_setPin hp (·.withLevel b)

theorem held_pinRead : Keeps (LineHeld q) (pinRead p) := by
  refine held_bind (held_pinAcquire hp) fun _ => held_bind held_get fun _ => ?_
  refine keeps_ite (fun _ => held_throw _) fun _ => ?_
  refine held_bind (held_provider p .value) fun _ => held_bind held_drawContent fun c => ?_
  cases contentBit c with
  | none => exact held_throw _
  | some b => exact held_bind (held_event hp rfl) fun _ => held_pure b

theorem held_pinEnsureOutWrite (b : Bit) : Keeps (LineHeld q) (pinEnsureOutWrite p b) :=
  held_bind (held_pinAcquire hp) fun _ => held_bind held_get fun _ =>
    keeps_ite (fun _ => held_pinSetDir hp _) fun _ => held_pinWrite hp _

end

/-! ## The bus (R71, R72, R90) -/

/-- R132: what an operation of the bus keeps of the reset line. -/
abbrev ResetHeld : State → State → Prop := LineHeld .rst

theorem clk_ne_rst : Pin.clk ≠ .rst := nofun

theorem dat_ne_rst : Pin.dat ≠ .rst := nofun

theorem resetHeld_sendBits (n v : Nat) : Keeps ResetHeld (sendBits n v) := by
  induction n generalizing v with
  | zero => exact held_pure _
  | succ n ih =>
    refine held_bind (held_pinWrite dat_ne_rst _) fun _ => held_bind (held_pinWrite clk_ne_rst _) fun _ => ?_
    exact held_bind (held_hold _) fun _ => held_bind (held_pinWrite clk_ne_rst _) fun _ =>
      held_bind (held_hold _) fun _ => ih _

theorem resetHeld_busSend (v n : Nat) : Keeps ResetHeld (busSend v n) :=
  held_bind held_get fun _ => keeps_ite
    (fun _ => keeps_ite (fun _ => resetHeld_sendBits n v) fun _ => held_throw _) fun _ => held_throw _

theorem resetHeld_recvBits (n k acc : Nat) : Keeps ResetHeld (recvBits n k acc) := by
  induction k generalizing acc with
  | zero => exact held_pure _
  | succ k ih =>
    refine held_bind (held_pinWrite clk_ne_rst _) fun _ => held_bind (held_hold _) fun _ => ?_
    exact held_bind (held_pinRead dat_ne_rst) fun _ => held_bind (held_pinWrite clk_ne_rst _) fun _ =>
      held_bind (held_hold _) fun _ => ih _

theorem resetHeld_busRecv (n : Nat) : Keeps ResetHeld (busRecv n) :=
  held_bind held_get fun _ => keeps_ite
    (fun _ => keeps_ite (fun _ => resetHeld_recvBits n n 0) fun _ => held_throw _) fun _ => held_throw _

theorem resetHeld_sendKey : Keeps ResetHeld sendKey :=
  held_bind (resetHeld_busSend _ _) fun _ => resetHeld_busSend _ _

theorem resetHeld_enterLvp : Keeps ResetHeld enterLvp :=
  held_bind (held_pinEnsureOutWrite clk_ne_rst false) fun _ => held_bind (held_pinSetDir dat_ne_rst .dirOut) fun _ =>
    held_bind resetHeld_sendKey fun _ => held_bind (held_hold _) fun _ => held_modify (by simp) fun _ => rfl

/-! ## Commands and `VERIFY` (R76, R97) -/

theorem resetHeld_commandAdmit : Keeps ResetHeld commandAdmit :=
  held_modify (fun s => by split <;> simp) fun s => by split <;> rfl

theorem resetHeld_controlCommand (op : Nat) (d : Delay) : Keeps ResetHeld (controlCommand op d) :=
  held_bind resetHeld_commandAdmit fun _ => held_bind (resetHeld_busSend _ _) fun _ => held_hold d

theorem resetHeld_writeCommand (op d : Nat) : Keeps ResetHeld (writeCommand op d) :=
  held_bind resetHeld_commandAdmit fun _ => held_bind (resetHeld_busSend _ _) fun _ =>
    held_bind (held_hold _) fun _ => held_bind (resetHeld_busSend _ _) fun _ => held_hold _

theorem resetHeld_readCommand (op : Nat) : Keeps ResetHeld (readCommand op) :=
  held_bind resetHeld_commandAdmit fun _ => held_bind (resetHeld_busSend _ _) fun _ => held_bind (held_hold _) fun _ =>
    held_bind (held_pinSetDir dat_ne_rst .dirIn) fun _ => held_bind (resetHeld_busRecv _) fun _ =>
      held_bind (held_pinSetDir dat_ne_rst .dirOut) fun _ => held_bind (held_hold _) fun _ => held_pure _

theorem held_checkWord (i a : Nat) (v : Word) : Keeps (LineHeld q) (checkWord i a v) := by
  refine keeps_ite (fun _ => held_modify (by simp) fun _ => rfl) fun _ => held_bind held_get fun u => ?_
  cases Memory.read u.snap a with
  | none => exact held_throw _
  | some e => exact keeps_ite (fun _ => held_pure _) fun _ => held_modify (by simp) fun _ => rfl

theorem resetHeld_verifyWords (i k n : Nat) : Keeps ResetHeld (verifyWords i k n) := by
  have hword : ∀ k, Keeps ResetHeld (verifyWord i k) := fun k =>
    held_bind held_get fun _ => held_bind (resetHeld_readCommand _) fun v => held_bind (held_checkWord i _ v) fun _ =>
      held_bind held_boundary fun _ => resetHeld_controlCommand _ _
  induction n generalizing k with
  | zero => exact held_pure _
  | succ n ih => exact held_bind held_boundary fun _ => held_bind (hword k) fun _ => ih (k + 1)

theorem resetHeld_verifyPass (i : Nat) : Keeps ResetHeld (verifyPass i) :=
  held_bind (resetHeld_writeCommand _ _) fun _ => held_bind held_get fun _ =>
    held_bind (resetHeld_verifyWords i 0 _) fun _ => held_bind held_boundary fun _ => resetHeld_controlCommand _ _

theorem resetHeld_verifyPasses (i n : Nat) : Keeps ResetHeld (verifyPasses i n) := by
  induction n generalizing i with
  | zero => exact held_pure _
  | succ n ih =>
    have hboundary : Keeps ResetHeld (passBoundary i) := keeps_ite (fun _ => held_pure _) fun _ => held_boundary
    exact held_bind hboundary fun _ => held_bind (resetHeld_verifyPass i) fun _ => ih (i + 1)

theorem resetHeld_verifyAll (n : Nat) : Keeps ResetHeld (verifyAll n) :=
  held_bind (held_modify (by simp) fun _ => rfl) fun _ => held_bind (resetHeld_verifyPasses 0 n) fun _ =>
    held_bind held_get fun _ => held_pure _

/-! ## The invocation (R110, R111) -/

theorem held_noValue {x : Op Unit} (hx : Keeps (LineHeld q) x) : Keeps (LineHeld q) (noValue x) :=
  keeps_noValue (lineHeld_composes q) hx

/-- A refusal touches no line, and a body that raises an error ends in `Exited`. -/
theorem exec_lineHeld {i : Instr} {c : OpClass} {bad : Option RefuseReason} {body : Op Value}
    (hexec : exec i s = invoke c bad body s) (hb : Keeps (LineHeld q) body) (h : exec i s = .next t)
    (ht : t.state ≠ .exited) : LineHeld q s t := by
  have hrefuse : ∀ w, LineHeld q s (s.refuse w) := fun w => lineHeld_of_same (by simp) rfl
  rcases guarded_cases c bad (complete body) s with ⟨w, _, he⟩ | ⟨_, _, he⟩ | ⟨_, _, he⟩ <;>
    rw [hexec, invoke, he] at h <;> cases h
  · exact hrefuse w
  · exact hrefuse _
  · have hbody := hb s
    unfold complete at ht ⊢
    cases hrun : body.run s with
    | ok v u =>
      rw [hrun] at hbody
      exact (lineHeld_composes q).trans s u _ hbody (lineHeld_of_same (by simp) rfl)
    | error e u =>
      rw [hrun] at ht
      exact absurd (abort_state e u) ht

theorem exec_command_resetHeld {i : Instr} (hi : isCommand i = true) (h : exec i s = .next t)
    (ht : t.state ≠ .exited) : ResetHeld s t := by
  have hcontrol : ∀ op d, Keeps ResetHeld (noValue (controlCommand op d)) := fun op d =>
    held_noValue (resetHeld_controlCommand op d)
  cases i with
  | loadConfig d => exact exec_lineHeld (exec_loadConfig s d) (held_noValue (resetHeld_writeCommand _ d)) h ht
  | loadData d => exact exec_lineHeld (exec_loadData s d) (held_noValue (resetHeld_writeCommand _ d)) h ht
  | readData => exact exec_lineHeld (exec_readData s) (held_bind (resetHeld_readCommand _) fun _ => held_pure _) h ht
  | incAddr => exact exec_lineHeld (exec_incAddr s) (hcontrol _ _) h ht
  | resetAddr => exact exec_lineHeld (exec_resetAddr s) (hcontrol _ _) h ht
  | beginProg => exact exec_lineHeld (exec_beginProg s) (hcontrol _ _) h ht
  | bulkErase => exact exec_lineHeld (exec_bulkErase s) (hcontrol _ _) h ht
  | rowErase => exact exec_lineHeld (exec_rowErase s) (hcontrol _ _) h ht
  | _ => cases hi

/-- Settles O49: the body of each of these operations keeps the reset line, whether it returns or raises. -/
theorem resetLineHeld : Obligations.ResetLineHeld := by
  intro i s t hi h ht
  rcases hi with rfl | rfl | hi | ⟨n, rfl⟩ | ⟨v, n, rfl⟩ | ⟨n, rfl⟩
  · exact exec_lineHeld (exec_enterLvp s) (held_noValue resetHeld_enterLvp) h ht
  · exact exec_lineHeld (exec_lvpKey s) (held_noValue resetHeld_sendKey) h ht
  · exact exec_command_resetHeld hi h ht
  · exact exec_lineHeld (exec_verify s n) (resetHeld_verifyAll n) h ht
  · exact exec_lineHeld (exec_send s v n) (held_noValue (resetHeld_busSend v n)) h ht
  · exact exec_lineHeld (exec_recv s n) (held_bind (resetHeld_busRecv n) fun _ => held_pure _) h ht

end Sys2Proof.Machine
end

section
/-! PROOFS. The number of events of an operation and the lower bound on its time (spec/70_reset_and_hazards.md R134,
spec/41_bit_transport.md R74, spec/44_verification.md R97): the two measures add up along a list of events, so that each
row of the table is the sum of its slots, pin events and holds. -/

namespace Sys2Proof.Machine

variable {α : Type} {sec : Seconds} {c : SessionConfig} {s : State} {es es' : List Event} {m n : Nat} {τ τ' : NNReal}

/-! ## The measures of a list of events -/

/-- R134: the events are `n` in number, and their holds last `τ` seconds. -/
def Measures (sec : Seconds) (c : SessionConfig) (es : List Event) (n : Nat) (τ : NNReal) : Prop :=
  es.length = n ∧ holdTotal sec c es = τ

theorem holdTotal_append (es es' : List Event) :
    holdTotal sec c (es ++ es') = holdTotal sec c es + holdTotal sec c es' := by
  induction es with
  | nil => simp [holdTotal]
  | cons e es ih => rw [List.cons_append, holdTotal, holdTotal, ih, add_assoc]

/-- The same measures, written in another way. -/
theorem Measures.of_eq (h : Measures sec c es m τ) (hn : m = n) (hτ : τ = τ') : Measures sec c es n τ' := by
  rw [← hn, ← hτ]
  exact h

theorem measures_nil : Measures sec c [] 0 0 := ⟨rfl, rfl⟩

theorem measures_single (e : Event) : Measures sec c [e] 1 (eventTime sec c e) := ⟨rfl, add_zero _⟩

theorem Measures.append (h : Measures sec c es m τ) (h' : Measures sec c es' n τ') :
    Measures sec c (es ++ es') (m + n) (τ + τ') := by
  obtain ⟨hlen, htime⟩ := h
  obtain ⟨hlen', htime'⟩ := h'
  exact ⟨by rw [List.length_append, hlen, hlen'], by rw [holdTotal_append, htime, htime']⟩

/-- Parts with the same measures. -/
theorem measures_flatMap {f : α → List Event} (h : ∀ x, Measures sec c (f x) m τ) (xs : List α) :
    Measures sec c (xs.flatMap f) (xs.length * m) (xs.length * τ) := by
  induction xs with
  | nil => exact measures_nil.of_eq (by simp) (by simp)
  | cons x xs ih =>
    rw [List.flatMap_cons]
    refine ((h x).append ih).of_eq ?_ ?_
    · rw [List.length_cons]
      ring
    · rw [List.length_cons]
      push_cast
      ring

/-! ## Transport (R71, R72, R74) -/

theorem measures_sendSlot (b : Bit) : Measures sec c (sendSlot b) 5 (2 * sec c.tHalf) := by
  refine ⟨rfl, ?_⟩
  simp only [sendSlot, holdTotal, eventTime, delayTime]
  ring

theorem measures_recvSlot (b : Bit) : Measures sec c (recvSlot b) 5 (2 * sec c.tHalf) := by
  refine ⟨rfl, ?_⟩
  simp only [recvSlot, holdTotal, eventTime, delayTime]
  ring

theorem measures_sendEvents (v n : Nat) : Measures sec c (sendEvents v n) (5 * n) (2 * n * sec c.tHalf) := by
  refine (measures_flatMap (fun k => measures_sendSlot (v.testBit k)) (List.range n)).of_eq ?_ ?_
  · rw [List.length_range, Nat.mul_comm]
  · rw [List.length_range]
    ring

theorem measures_recvEvents (bs : List Bit) :
    Measures sec c (recvEvents bs) (5 * bs.length) (2 * bs.length * sec c.tHalf) :=
  (measures_flatMap measures_recvSlot bs).of_eq (Nat.mul_comm _ _) (by ring)

theorem measures_keyEvents : Measures sec c keyEvents 165 (66 * sec c.tHalf) := by
  refine ((measures_sendEvents 0x0A12C2B2 32).append (measures_sendEvents 0 1)).of_eq rfl ?_
  push_cast
  ring

/-! ## Commands (R78 to R85) -/

theorem measures_controlEvents (op : Nat) (d : Delay) :
    Measures sec c (controlEvents op d) 31 (12 * sec c.tHalf + delayTime sec c d) := by
  refine ((measures_sendEvents op 6).append (measures_single (.hold d))).of_eq rfl ?_
  rw [eventTime]
  push_cast
  ring

theorem measures_writeEvents (op d : Nat) :
    Measures sec c (writeEvents op d) 112 (44 * sec c.tHalf + 2 * sec c.tCmd) := by
  have hhold := measures_single (sec := sec) (c := c) (.hold .tCmd)
  refine ((((measures_sendEvents op 6).append hhold).append (measures_sendEvents (2 * d) 16)).append hhold).of_eq rfl ?_
  rw [eventTime, delayTime]
  push_cast
  ring

theorem measures_readEvents {bs : List Bit} (hb : bs.length = 16) :
    Measures sec c (readEvents bs) 114 (44 * sec c.tHalf + 2 * sec c.tCmd) := by
  have hopen : Measures sec c [.hold .tCmd, .dir .dat .dirIn] 2 (sec c.tCmd) :=
    ⟨rfl, by simp [holdTotal, eventTime, delayTime]⟩
  have hclose : Measures sec c [.dir .dat .dirOut, .hold .tCmd] 2 (sec c.tCmd) :=
    ⟨rfl, by simp [holdTotal, eventTime, delayTime]⟩
  refine ((((measures_sendEvents 0x04 6).append hopen).append (measures_recvEvents bs)).append hclose).of_eq ?_ ?_
  · rw [hb]
  · rw [hb]
    push_cast
    ring

/-! ## Entry operations (R89, R90) -/

theorem measures_claimEvents {p : Pin} (h : (s.pin p).acquired = false) : Measures sec c (claimEvents s p) 1 0 := by
  rw [claimEvents_of_not_acquired h]
  exact measures_single (.claim p)

theorem measures_driveEvent (s : State) (p : Pin) (b : Bit) : Measures sec c [driveEvent s p b] 1 0 := by
  refine (measures_single _).of_eq rfl ?_
  unfold driveEvent
  split <;> rfl

theorem measures_resetEvents (h : (s.pin .rst).acquired = false) :
    Measures sec c (resetEvents s) 3 (sec c.tReset) := by
  rw [resetEvents_eq]
  refine (((measures_claimEvents h).append (measures_driveEvent _ _ _)).append (measures_single (.hold .tReset))).of_eq
    rfl ?_
  rw [eventTime, delayTime]
  ring

theorem measures_enterEvents (hclk : (s.pin .clk).acquired = false) (hdat : (s.pin .dat).acquired = false) :
    Measures sec c (enterEvents s) 170 (66 * sec c.tHalf + sec c.tEntry) := by
  have hclock := (measures_claimEvents (sec := sec) (c := c) hclk).append
    (measures_driveEvent (s.claimed .clk) .clk false)
  have hdata := (measures_claimEvents (sec := sec) (c := c) hdat).append (measures_single (.dir .dat .dirOut))
  have hkey := (measures_keyEvents (sec := sec) (c := c)).append (measures_single (.hold .tEntry))
  rw [enterEvents_eq]
  refine (hclock.append (hdata.append hkey)).of_eq rfl ?_
  simp only [eventTime, delayTime]
  ring

/-! ## The operations of the table (R134) -/

/-- R76: a command that is admitted, ready and served emits the events planned for it; only `READ_DATA` asks for 16 bits
of the target. -/
theorem exec_command_planned {i : Instr} {bs : List Bit} {l : List Bool} {r : List (List Char)}
    (hi : isCommand i = true) (hwf : i.wf = true) (hs : s.state ∈ admittedStates i) (hready : PinsReady s bs i)
    (hl : Serves s (providerOps (plannedEvents s bs i)).length l) (hr : Presents s bs r) :
    ∃ t, exec i s = .next t ∧ t.trace = s.trace ++ plannedEvents s bs i := by
  have hp := programming_of_admitted hi hs
  obtain ⟨hsend, hbits⟩ := hready.of_command hi
  cases i with
  | loadConfig d | loadData d => exact writeCommand_trace hp hsend hwf hl
  | readData => exact readCommand_trace hp hsend (hbits rfl) hl hr
  | incAddr | resetAddr | beginProg | bulkErase | rowErase => exact controlCommand_trace hp hsend hl
  | _ => cases hi

/-- An operation that emits some events has their measures. -/
theorem exec_measured {i : Instr} (hm : Measures sec s.cfg es n τ)
    (h : ∃ t, exec i s = .next t ∧ t.trace = s.trace ++ es) :
    ∃ t evs, exec i s = .next t ∧ t.trace = s.trace ++ evs ∧ evs.length = n ∧ holdTotal sec s.cfg evs = τ := by
  obtain ⟨t, hexec, htrace⟩ := h
  exact ⟨t, es, hexec, htrace, hm⟩

/-- Settles O50: each operation of the table emits its planned events, and these have the measures of its row. -/
theorem eventCountsAndTimes : Obligations.EventCountsAndTimes := by
  intro sec s v n d i count time bs l r hrow hwf hs hready hreset hentry hl hr
  have hcommand := fun hi : isCommand i = true => exec_command_planned hi hwf hs hready hl hr
  simp only [List.mem_cons, Prod.mk.injEq, List.not_mem_nil, or_false] at hrow
  rcases hrow with ⟨rfl, rfl, rfl⟩ | ⟨rfl, rfl, rfl⟩ | ⟨rfl, rfl, rfl⟩ | ⟨rfl, rfl, rfl⟩ | ⟨rfl, rfl, rfl⟩ |
    ⟨rfl, rfl, rfl⟩ | ⟨rfl, rfl, rfl⟩ | ⟨rfl, rfl, rfl⟩ | ⟨rfl, rfl, rfl⟩ | ⟨rfl, rfl, rfl⟩ | ⟨rfl, rfl, rfl⟩ |
    ⟨rfl, rfl, rfl⟩
  · rw [plannedEvents, providerOps_sendEvents_length] at hl
    exact exec_measured (measures_sendEvents v n) ⟨_, exec_send_served (ne_exited_of_mem hs) hready hl, rfl⟩
  · obtain ⟨hclk, hacq, hin, rfl⟩ := hready
    rw [plannedEvents, providerOps_recvEvents_length] at hl
    exact exec_measured (measures_recvEvents bs)
      ⟨_, exec_recv_served rfl (ne_exited_of_mem hs) hclk hacq hin hl hr, rfl⟩
  · exact exec_measured (measures_writeEvents _ _) (hcommand rfl)
  · exact exec_measured (measures_writeEvents _ _) (hcommand rfl)
  · exact exec_measured (measures_readEvents hready.2) (hcommand rfl)
  · exact exec_measured (measures_controlEvents _ _) (hcommand rfl)
  · exact exec_measured (measures_controlEvents _ _) (hcommand rfl)
  · exact exec_measured (measures_controlEvents _ _) (hcommand rfl)
  · exact exec_measured (measures_controlEvents _ _) (hcommand rfl)
  · exact exec_measured (measures_controlEvents _ _) (hcommand rfl)
  · have hs' : s.state = .unpowered ∨ s.state = .reset := by simpa [admittedStates] using hs
    exact exec_measured (measures_resetEvents (hreset rfl)) ⟨_, exec_reset_served hs' hl, rfl⟩
  · have hs' : s.state = .reset := by simpa [admittedStates] using hs
    obtain ⟨hclk, hdat⟩ := hentry rfl
    exact exec_measured (measures_enterEvents hclk hdat) ⟨_, exec_enterLvp_served hs' hl, rfl⟩

/-! ## `VERIFY` (R97) -/

section
variable {B : Nat → Nat → List Bit} (hwidth : ∀ i k, (B i k).length = 16)
include hwidth

theorem measures_wordSteps (i : Nat) (ks : List Nat) :
    Measures sec c (verifyEvents B (wordSteps i ks)) (ks.length * 145)
      (ks.length * (56 * sec c.tHalf + 3 * sec c.tCmd)) := by
  rw [verifyEvents, wordSteps, List.flatMap_assoc]
  refine measures_flatMap (fun k => ?_) ks
  refine ((measures_readEvents (hwidth i k)).append (measures_controlEvents 0x06 .tCmd)).of_eq rfl ?_
  rw [delayTime]
  ring

theorem measures_passSteps (words i : Nat) :
    Measures sec c (verifyEvents B (passSteps words i)) (143 + 145 * words)
      ((56 + 56 * words) * sec c.tHalf + (3 + 3 * words) * sec c.tCmd) := by
  have hload := measures_writeEvents (sec := sec) (c := c) 0x00 0
  have hreset := measures_controlEvents (sec := sec) (c := c) 0x16 .tCmd
  have hwords := measures_wordSteps (sec := sec) (c := c) hwidth i (List.range words)
  rw [passSteps, List.append_assoc, List.cons_append, List.nil_append, verifyEvents_cons, verifyEvents_concat]
  refine (hload.append (hwords.append hreset)).of_eq ?_ ?_
  · rw [List.length_range]
    ring
  · rw [List.length_range, delayTime]
    ring

theorem measures_verifySteps (n words : Nat) :
    Measures sec c (verifyEvents B (verifySteps n words)) (n * (143 + 145 * words))
      (n * ((56 + 56 * words) * sec c.tHalf + (3 + 3 * words) * sec c.tCmd)) := by
  have hpasses := measures_flatMap (measures_passSteps (sec := sec) (c := c) hwidth words) (List.range n)
  rw [List.length_range] at hpasses
  rw [verifySteps_eq, verifyEvents, List.flatMap_assoc]
  exact hpasses

end

/-- Settles O51: a served run emits the events of its commands. -/
theorem verifyCountsAndTime : Obligations.VerifyCountsAndTime := by
  intro sec s n B l q r hrun hserved
  obtain ⟨_, _, _, hexec⟩ := verifyComparesWithPassZero s n B l q r hrun hserved
  exact exec_measured (measures_verifySteps hrun.width n _) ⟨_, hexec, rfl⟩

end Sys2Proof.Machine
end

section
/-! PROOFS. A whole session (spec/70_reset_and_hazards.md R123, R124; spec/10_state.md R18): what each of `SESSION_NEW`,
`RESET`, `ENTER_LVP` and `EXIT` hands on to the next, and the condition of the lines in between. -/

namespace Sys2Proof.Machine

variable {c : SessionConfig} {s t : State} {st : SessionState} {ps : PinTable} {tracked : List Pin} {l : List Bool}

/-! ## A state of an undisturbed session -/

/-- A session of `c` without an error or a refusal: its session state, its pin records, its tracked pins, and the coming
draws of the provider. -/
structure InSession (c : SessionConfig) (st : SessionState) (ps : PinTable) (tracked : List Pin) (l : List Bool)
    (s : State) : Prop where
  records : RecordsInv s
  cfg : s.cfg = c
  state : s.state = st
  pins : s.pins = ps
  tracked : s.tracked = tracked
  fails : s.env.fails = l
  err : s.err = none
  refused : s.refused = false

/-- R18, log 19: with no error recorded, only an acquired pin in `Exited` has had its last provider operation fail. -/
theorem InSession.condition (h : InSession c st ps tracked l s) (p : Pin) :
    s.condition p =
      if p ∈ tracked then
        if st = .exited ∧ (ps.get p).acquired = true then .unknown else (ps.get p).condition
      else .unknown := by
  simp [State.condition, State.lastFailed, State.pin_eq, h.state, h.pins, h.tracked, h.err]

/-- The records right after `SESSION_NEW`. -/
def PinTable.allReset : PinTable := { rst := PinRec.reset, clk := PinRec.reset, dat := PinRec.reset }

/-- The records right after the first `RESET`. -/
def PinTable.resetLow : PinTable := { rst := drivenLow, clk := PinRec.reset, dat := PinRec.reset }

/-- The records right after `ENTER_LVP`. -/
def PinTable.allLow : PinTable := { rst := drivenLow, clk := drivenLow, dat := drivenLow }

/-! ## What the lazy acquire leaves alone (R61) -/

section
variable (s : State) (p : Pin)

@[simp] theorem State.claimed_cfg : (s.claimed p).cfg = s.cfg := by unfold State.claimed; split <;> rfl
@[simp] theorem State.claimed_err : (s.claimed p).err = s.err := by unfold State.claimed; split <;> rfl
@[simp] theorem State.claimed_refused : (s.claimed p).refused = s.refused := by unfold State.claimed; split <;> rfl

theorem State.claimed_tracked : (s.claimed p).tracked = (claimEvents s p).foldl trackedAfter s.tracked := by
  rw [State.claimed_eq_afterEvents]
  rfl

end

/-! ## The four operations (R88, R89, R90, R92) -/

theorem exec_sessionNew_inSession (hc : c.pinsDistinct = true) (s : State) :
    ∃ t, exec (.sessionNew c) s = .next t ∧ InSession c .unpowered .allReset [] s.env.fails t := by
  rcases execSessionNew_cases c s with ⟨hc', _⟩ | ⟨_, hexec⟩
  · rw [hc] at hc'
    cases hc'
  · refine ⟨_, hexec, ?_, rfl, rfl, rfl, rfl, rfl, rfl, rfl⟩
    exact recordsInv_actions.addResult _ _ (recordsInv_newSession hc s)

theorem exec_reset_inSession (h : InSession c .unpowered .allReset [] (List.replicate 2 false ++ l) s) :
    ∃ t, exec .reset s = .next t ∧ InSession c .reset .resetLow [.rst] l t := by
  have hrst : claimEvents s .rst = [.claim .rst] :=
    claimEvents_of_not_acquired (by rw [State.pin_eq, h.pins]; rfl)
  have hl : Serves s ((claimEvents s .rst).length + 1) l := by
    rw [hrst]
    exact h.fails
  have hexec := ((resetDrivesResetLow s l).1 (.inl h.state)).1 hl
  refine ⟨_, hexec, exec_actions recordsInv_actions .reset nofun hexec h.records, ?_, rfl, ?_, ?_, rfl, ?_, ?_⟩
  · rw [State.claimed_cfg, h.cfg]
  · rw [h.pins]
    rfl
  · rw [State.claimed_tracked, hrst, h.tracked]
    rfl
  · rw [State.claimed_err, h.err]
  · rw [State.claimed_refused, h.refused]

theorem exec_enterLvp_inSession (h : InSession c .reset .resetLow [.rst] (List.replicate 103 false ++ l) s) :
    ∃ t, exec .enterLvp s = .next t ∧ InSession c .lvpEntered .allLow [.rst, .clk, .dat] l t := by
  have hclk : claimEvents s .clk = [.claim .clk] :=
    claimEvents_of_not_acquired (by rw [State.pin_eq, h.pins]; rfl)
  have hdat : claimEvents s .dat = [.claim .dat] :=
    claimEvents_of_not_acquired (by rw [State.pin_eq, h.pins]; rfl)
  have hl : Serves s ((claimEvents s .clk).length + (claimEvents s .dat).length + 101) l := by
    rw [hclk, hdat]
    exact h.fails
  have hexec := ((enterLvpSendsTheKey s l).1 h.state).1 hl
  refine ⟨_, hexec, exec_actions recordsInv_actions .enterLvp nofun hexec h.records, ?_, rfl, ?_, ?_, rfl, ?_, ?_⟩
  · rw [State.claimed_cfg, State.claimed_cfg, h.cfg]
  · rw [h.pins]
    rfl
  · rw [State.claimed_tracked, claimEvents_dat_claimed_clk, hdat, State.claimed_tracked, hclk, h.tracked]
    rfl
  · rw [State.claimed_err, State.claimed_err, h.err]
  · rw [State.claimed_refused, State.claimed_refused, h.refused]

/-- R92: the attempts of `EXIT` with all three pins acquired. -/
theorem exitEvents_length (h : InSession c .lvpEntered .allLow [.rst, .clk, .dat] l s) :
    (exitEvents s).length = 6 + if c.exitResetMode = .driveHigh then 1 else 0 := by
  have hacq : ∀ p, (s.pin p).acquired = true := fun p => by
    rw [State.pin_eq, h.pins]
    cases p <;> rfl
  rw [exitEvents, h.cfg, h.tracked]
  simp only [hacq, true_and, List.length_append, List.flatMap_cons, List.flatMap_nil, if_true, releaseEvents]
  split <;> rfl

theorem exec_exit_inSession
    (h : InSession c .lvpEntered .allLow [.rst, .clk, .dat]
      (List.replicate (6 + if c.exitResetMode = .driveHigh then 1 else 0) false ++ l) s) :
    ∃ t, exec .exit s = .next t ∧ InSession c .exited .allReset [.rst, .clk, .dat] l t := by
  have hl : Serves s (exitEvents s).length l := by
    rw [exitEvents_length h]
    exact h.fails
  have hlive : s.state ≠ .exited := by simp [h.state]
  have hexec := exitReleasesEveryPin s l hlive h.records hl
  exact ⟨_, hexec, exec_actions recordsInv_actions .exit nofun hexec h.records, h.cfg, rfl, rfl, h.tracked, rfl, h.err,
    h.refused⟩

/-! ## The session (R124) -/

/-- Settles O57: the four operations hand the session on, and each state of it fixes the condition of every line. -/
theorem sessionDrivesTheLines : Obligations.SessionDrivesTheLines := by
  intro c s l hc hl
  have hdraws : s.env.fails = List.replicate 2 false ++ (List.replicate 103 false ++
      (List.replicate (6 + if c.exitResetMode = .driveHigh then 1 else 0) false ++ l)) := by
    rw [← replicate_add_append, ← replicate_add_append, ← Nat.add_assoc]
    exact hl
  obtain ⟨s₁, h₁, hs₁⟩ := exec_sessionNew_inSession (pinsDistinct_iff.2 hc) s
  rw [hdraws] at hs₁
  obtain ⟨s₂, h₂, hs₂⟩ := exec_reset_inSession hs₁
  obtain ⟨s₃, h₃, hs₃⟩ := exec_enterLvp_inSession hs₂
  obtain ⟨s₄, h₄, hs₄⟩ := exec_exit_inSession hs₃
  refine ⟨s₁, s₂, s₃, s₄, h₁, h₂, h₃, h₄, fun p => ?_, ?_, ?_, ?_, fun p => ?_, fun p => ?_, hs₄.state, hs₄.err,
    hs₄.refused, hs₄.fails⟩
  · rw [hs₁.condition]; rfl
  · rw [hs₂.condition]; rfl
  · rw [hs₂.condition]; rfl
  · rw [hs₂.condition]; rfl
  · rw [hs₃.condition]; cases p <;> rfl
  · rw [hs₄.condition]; cases p <;> rfl

end Sys2Proof.Machine
end
